-- ==== Sys2Proof/Word.lean ====
section
/-! DEFINITION. The two bit-vector types of the engine: a host-visible register (RW = 32 bits) and a sample or data-space
byte (DEPTH = 8 bits), spec 00 R10 and R11. -/

namespace Sys2Proof

/-- A host-visible register's value: a u32 (00 R10 RW, R11). -/
abbrev Word := BitVec 32

/-- One byte of the data space, one sample: a u8 (00 R10 DEPTH, 20 R61). -/
abbrev Byte := BitVec 8

end Sys2Proof
end

