-- ==== Sys2Proof/Config.lean ====
section
/-! DEFINITION. What is fixed for this hardware: the parameters of spec 00 R10, and the free values of the behaviours the
spec calls unspecified or unpredictable (constants with no body: no proof can know one). -/

namespace Sys2Proof.Config

/-- The number of bytes of the data space, 2^AW with AW = 32 (00 R10, 20 R60). -/
def addressSpace : Nat := 4294967296

/-- FRAC_BITS, the shift N of every coefficient (00 R10, 40 R134). -/
def fracBits : Nat := 10

/-- BIAS = 2^(N-1), the rounding bias (00 R10, 40 R134). -/
def bias : Nat := 512

/-- CCENTRE, the chroma zero level (00 R10). -/
def chromaCentre : Nat := 128

/-- ALIGN, the alignment boundary in bytes of the aligned variant (00 R10, 20 R68). -/
def align : Nat := 16

/-- VL, the luma columns of a vector chunk (00 R10, 42 R180). -/
def vectorColumns : Nat := 16

/-- VROWS, the image rows of a vector chunk (00 R10, 42 R180). -/
def vectorRows : Nat := 2

/-- The byte that the write set holds at `address` after a job whose result is UNPREDICTABLE (20 R80, 93 U2: "every byte of
the write set holds any u8"; 20 R77, 93 U3), for the draw of that number. A free value: notes/assumptions/6.md and 4.md.
Safe: nothing constrains it. -/
opaque freeByte (draw address : Nat) : BitVec 8

/-- Whether the write of the byte at `address` had been performed when a running job was reset or its output was read
(70 R261, 93 U4, U3: per byte the old or the final value), for the draw of that number. A free value:
notes/assumptions/5.md. Safe: nothing constrains it. -/
opaque landed (draw address : Nat) : Bool

end Sys2Proof.Config
end

