-- ==== Sys2Proof/Syntax.lean ====
section
/-! DEFINITION. The commands of the engine as syntax: one constructor of `Instr` for each of the twenty rows of
spec/opcode_table.json (30 R107), and the two selectors they are made of (30 R102, R103). -/

namespace Sys2Proof

/-- The five (layout, direction) conversions, OP = CMD[2:0] (30 R102, 00 R3). -/
inductive Op where
  | i420Rgb24    -- OP 0, YUV420-planar to RGB24
  | rgb24I420    -- OP 1, RGB24 to YUV420-planar
  | nv12Rgb24    -- OP 2, NV12 to RGB24
  | nv21Rgb24    -- OP 3, NV21 to RGB24
  | rgba32I420   -- OP 4, RGBA32 to YUV420-planar
  deriving DecidableEq, Repr

/-- The kernel variant asked for, VAR = CMD[5:4] (30 R103). -/
inductive Variant where
  | scalar            -- VAR 0, S
  | vectorAligned     -- VAR 1, VA
  | vectorUnaligned   -- VAR 2, VU
  | auto              -- VAR 3, the adapter picks
  deriving DecidableEq, Repr

/-- The twenty commands (30 R107). The one operand field of the command word is STD = CMD[9:8], a number of two bits; 3 is
well formed and names no standard (30 R104). All other operands are registers (30 R106). -/
inductive Instr where
  | i420Rgb24S     (std : Nat)   -- I420_RGB24.S,    41 R152
  | rgb24I420S     (std : Nat)   -- RGB24_I420.S,    41 R155
  | nv12Rgb24S     (std : Nat)   -- NV12_RGB24.S,    41 R153
  | nv21Rgb24S     (std : Nat)   -- NV21_RGB24.S,    41 R154
  | rgba32I420S    (std : Nat)   -- RGBA32_I420.S,   41 R156
  | i420Rgb24Va    (std : Nat)   -- I420_RGB24.VA,   42 R186
  | rgb24I420Va    (std : Nat)   -- RGB24_I420.VA,   42 R192
  | nv12Rgb24Va    (std : Nat)   -- NV12_RGB24.VA,   42 R188
  | nv21Rgb24Va    (std : Nat)   -- NV21_RGB24.VA,   42 R190
  | rgba32I420Va   (std : Nat)   -- RGBA32_I420.VA,  42 R194
  | i420Rgb24Vu    (std : Nat)   -- I420_RGB24.VU,   42 R187
  | rgb24I420Vu    (std : Nat)   -- RGB24_I420.VU,   42 R193
  | nv12Rgb24Vu    (std : Nat)   -- NV12_RGB24.VU,   42 R189
  | nv21Rgb24Vu    (std : Nat)   -- NV21_RGB24.VU,   42 R191
  | rgba32I420Vu   (std : Nat)   -- RGBA32_I420.VU,  42 R195
  | i420Rgb24Auto  (std : Nat)   -- I420_RGB24.AUTO, 43 R207
  | rgb24I420Auto  (std : Nat)   -- RGB24_I420.AUTO, 43 R208
  | nv12Rgb24Auto  (std : Nat)   -- NV12_RGB24.AUTO, 43 R209
  | nv21Rgb24Auto  (std : Nat)   -- NV21_RGB24.AUTO, 43 R210
  | rgba32I420Auto (std : Nat)   -- RGBA32_I420.AUTO, 43 R211
  deriving DecidableEq, Repr

end Sys2Proof
end

