-- ==== Sys2Proof/WellFormed.lean ====
section
/-! DEFINITION. When a command can be encoded: its STD operand fits the two bits CMD[9:8] (30 R101). STD = 3 fits: "a job
with STD = 3 is a well-formed command that fails with UnsupportedStandard" (30 R104). -/

namespace Sys2Proof

/-- The STD operand fits its two-bit field (30 R101, R104). -/
def stdFits (std : Nat) : Bool := decide (std < 4)

/-- The command has an encoding (30 R101): every operand field holds its value. -/
def Instr.wellFormed : Instr → Bool
  | .i420Rgb24S std => stdFits std
  | .rgb24I420S std => stdFits std
  | .nv12Rgb24S std => stdFits std
  | .nv21Rgb24S std => stdFits std
  | .rgba32I420S std => stdFits std
  | .i420Rgb24Va std => stdFits std
  | .rgb24I420Va std => stdFits std
  | .nv12Rgb24Va std => stdFits std
  | .nv21Rgb24Va std => stdFits std
  | .rgba32I420Va std => stdFits std
  | .i420Rgb24Vu std => stdFits std
  | .rgb24I420Vu std => stdFits std
  | .nv12Rgb24Vu std => stdFits std
  | .nv21Rgb24Vu std => stdFits std
  | .rgba32I420Vu std => stdFits std
  | .i420Rgb24Auto std => stdFits std
  | .rgb24I420Auto std => stdFits std
  | .nv12Rgb24Auto std => stdFits std
  | .nv21Rgb24Auto std => stdFits std
  | .rgba32I420Auto std => stdFits std

end Sys2Proof
end

