-- ==== Sys2Proof/Decode.lean ====
section
/-! DEFINITION. The command decoder of spec 30 R110, total on the 32 bits of CMD and rejecting by name (30 R105), and the
encoder of 30 R101 and R107. Decoding reads no other register and no memory (30 R110). -/

namespace Sys2Proof

/-- The selectors of a command: its conversion (30 R107, the mnemonic's first part). -/
def Instr.op : Instr → Op
  | .i420Rgb24S _ | .i420Rgb24Va _ | .i420Rgb24Vu _ | .i420Rgb24Auto _ => .i420Rgb24
  | .rgb24I420S _ | .rgb24I420Va _ | .rgb24I420Vu _ | .rgb24I420Auto _ => .rgb24I420
  | .nv12Rgb24S _ | .nv12Rgb24Va _ | .nv12Rgb24Vu _ | .nv12Rgb24Auto _ => .nv12Rgb24
  | .nv21Rgb24S _ | .nv21Rgb24Va _ | .nv21Rgb24Vu _ | .nv21Rgb24Auto _ => .nv21Rgb24
  | .rgba32I420S _ | .rgba32I420Va _ | .rgba32I420Vu _ | .rgba32I420Auto _ => .rgba32I420

/-- The variant a command asks for (30 R107, the mnemonic's second part). -/
def Instr.variant : Instr → Variant
  | .i420Rgb24S _ | .rgb24I420S _ | .nv12Rgb24S _ | .nv21Rgb24S _ | .rgba32I420S _ => .scalar
  | .i420Rgb24Va _ | .rgb24I420Va _ | .nv12Rgb24Va _ | .nv21Rgb24Va _ | .rgba32I420Va _ => .vectorAligned
  | .i420Rgb24Vu _ | .rgb24I420Vu _ | .nv12Rgb24Vu _ | .nv21Rgb24Vu _ | .rgba32I420Vu _ => .vectorUnaligned
  | .i420Rgb24Auto _ | .rgb24I420Auto _ | .nv12Rgb24Auto _ | .nv21Rgb24Auto _ | .rgba32I420Auto _ => .auto

/-- The STD operand of a command (30 R101). -/
def Instr.std : Instr → Nat
  | .i420Rgb24S std | .i420Rgb24Va std | .i420Rgb24Vu std | .i420Rgb24Auto std => std
  | .rgb24I420S std | .rgb24I420Va std | .rgb24I420Vu std | .rgb24I420Auto std => std
  | .nv12Rgb24S std | .nv12Rgb24Va std | .nv12Rgb24Vu std | .nv12Rgb24Auto std => std
  | .nv21Rgb24S std | .nv21Rgb24Va std | .nv21Rgb24Vu std | .nv21Rgb24Auto std => std
  | .rgba32I420S std | .rgba32I420Va std | .rgba32I420Vu std | .rgba32I420Auto std => std

/-- The command of a conversion and a variant: the row of 30 R107 with that OP and VAR (30 R110). -/
def Instr.make (op : Op) (variant : Variant) (std : Nat) : Instr :=
  match variant, op with
  | .scalar, .i420Rgb24 => .i420Rgb24S std
  | .scalar, .rgb24I420 => .rgb24I420S std
  | .scalar, .nv12Rgb24 => .nv12Rgb24S std
  | .scalar, .nv21Rgb24 => .nv21Rgb24S std
  | .scalar, .rgba32I420 => .rgba32I420S std
  | .vectorAligned, .i420Rgb24 => .i420Rgb24Va std
  | .vectorAligned, .rgb24I420 => .rgb24I420Va std
  | .vectorAligned, .nv12Rgb24 => .nv12Rgb24Va std
  | .vectorAligned, .nv21Rgb24 => .nv21Rgb24Va std
  | .vectorAligned, .rgba32I420 => .rgba32I420Va std
  | .vectorUnaligned, .i420Rgb24 => .i420Rgb24Vu std
  | .vectorUnaligned, .rgb24I420 => .rgb24I420Vu std
  | .vectorUnaligned, .nv12Rgb24 => .nv12Rgb24Vu std
  | .vectorUnaligned, .nv21Rgb24 => .nv21Rgb24Vu std
  | .vectorUnaligned, .rgba32I420 => .rgba32I420Vu std
  | .auto, .i420Rgb24 => .i420Rgb24Auto std
  | .auto, .rgb24I420 => .rgb24I420Auto std
  | .auto, .nv12Rgb24 => .nv12Rgb24Auto std
  | .auto, .nv21Rgb24 => .nv21Rgb24Auto std
  | .auto, .rgba32I420 => .rgba32I420Auto std

/-- OP field values (30 R102); 5, 6 and 7 are reserved (30 R105). -/
def Op.ofField (v : BitVec 3) : Option Op :=
  if v = 0#3 then some .i420Rgb24
  else if v = 1#3 then some .rgb24I420
  else if v = 2#3 then some .nv12Rgb24
  else if v = 3#3 then some .nv21Rgb24
  else if v = 4#3 then some .rgba32I420
  else none

/-- VAR field values (30 R103): all four are legal. -/
def Variant.ofField (v : BitVec 2) : Variant :=
  if v = 0#2 then .scalar
  else if v = 1#2 then .vectorAligned
  else if v = 2#2 then .vectorUnaligned
  else .auto

/-- The OP field's value of a conversion (30 R102). -/
def Op.field : Op → Nat
  | .i420Rgb24 => 0
  | .rgb24I420 => 1
  | .nv12Rgb24 => 2
  | .nv21Rgb24 => 3
  | .rgba32I420 => 4

/-- The VAR field's value of a variant (30 R103). -/
def Variant.field : Variant → Nat
  | .scalar => 0
  | .vectorAligned => 1
  | .vectorUnaligned => 2
  | .auto => 3

/-- Why a CMD value is no command (30 R105); both make the job fail with IllegalCommand (60 R235). -/
inductive DecodeError where
  | reservedBit   -- a bit of 0xFFFFFCC8 is 1
  | reservedOp    -- OP is 5, 6 or 7
  deriving DecidableEq, Repr

/-- The bits of CMD that must be 0 (30 R101). -/
def reservedMask : Word := 0xFFFFFCC8#32

/-- The decoder (30 R110): reject a reserved bit, then a reserved OP, else the row of OP and VAR with STD as operand. -/
def decode (cmd : Word) : Except DecodeError Instr :=
  if cmd &&& reservedMask ≠ 0#32 then .error .reservedBit
  else
    match Op.ofField (cmd.extractLsb' 0 3) with
    | none => .error .reservedOp
    | some op => .ok (Instr.make op (Variant.ofField (cmd.extractLsb' 4 2)) (cmd.extractLsb' 8 2).toNat)

/-- The encoder (30 R101, R107): OP at bit 0, VAR at bit 4, STD at bit 8. -/
def encode (i : Instr) : Word :=
  BitVec.ofNat 32 (i.op.field + 16 * i.variant.field + 256 * i.std)

/-- The instruction the decoder reads from an instruction whose bits are `w`, numbered as spec/opcode_table.json numbers
them. A command is the one 32-bit word CMD (30 R100), so the bits above `nbits` are 0 and the word is CMD itself. -/
def decodeTableWord (nbits w : Nat) : Option Instr :=
  match decode (BitVec.ofNat 32 (w % 2 ^ nbits)) with
  | .ok i => some i
  | .error _ => none

end Sys2Proof
end

