-- ==== Sys2Proof/Machine/State.lean ====
section
/-! DEFINITION. The state of the engine as plain data: every piece of spec 10 R20, the data memory, and the model's own
fields (what the host does next, what its last read returned, and what the free values need). -/

namespace Sys2Proof.Machine

/-- The sequencer's phase (10 R32); STATUS.BUSY is (PHASE ≠ IDLE) (10 R23). -/
inductive Phase where
  | idle
  | check
  | run
  deriving DecidableEq, Repr

/-- The block cursor (by, bx) of the sequencer (10 R32): `row` is by, `col` is bx. -/
structure Cursor where
  row : Nat
  col : Nat
  deriving DecidableEq, Repr

/-- A plane-descriptor slot's four registers (10 R26). -/
structure Slot where
  base   : Word
  stride : Word
  pw     : Word
  ph     : Word
  deriving DecidableEq, Repr

/-- The six slots (10 R21). -/
inductive SlotId where
  | in0
  | in1
  | in2
  | out0
  | out1
  | out2
  deriving DecidableEq, Repr

/-- The four registers of a slot, at slot offsets +0x0, +0x4, +0x8, +0xC (10 R21). -/
inductive SlotField where
  | base
  | stride
  | pw
  | ph
  deriving DecidableEq, Repr

/-- The coefficient file COEF (10 R30), D0's FixedPointCoefficients (40 R134): the matrix row-major, signed, then the
luma offset, the chroma offset, the shift and the bias. -/
structure Coef where
  m0 : Int
  m1 : Int
  m2 : Int
  m3 : Int
  m4 : Int
  m5 : Int
  m6 : Int
  m7 : Int
  m8 : Int
  yoff  : Nat
  coff  : Nat
  shift : Nat
  bias  : Nat
  deriving DecidableEq, Repr

/-- The typed errors a job can end with (60 R230). -/
inductive JobError where
  | unsupportedStandard
  | invalidGeometry
  | dimensionMismatch
  | alignmentViolation
  | illegalCommand
  deriving DecidableEq, Repr

/-- The data space as the list of its bytes that differ from what an unlisted address reads as (20 R60; `Memory.wf` in
Machine/Ops.lean is the canonical form). -/
abbrev Memory := List Host.Cell

/-- What the outside of the engine can do (70 R264), and when the engine moves between two host accesses (93 U9: BUSY lasts
any finite number of host steps). DESIGN CHOICE, notes/assumptions/2.md. -/
inductive HostEvent where
  /-- A word write to the register window, at the byte offset from REGBASE (10 R29, 30 R108 `WR`). -/
  | writeReg (offset : Nat) (value : Word)
  /-- A word read of the register window (10 R29, 30 R108 `RD`). -/
  | readReg (offset : Nat)
  /-- A byte write to the data space by the host or another agent (10 R36). -/
  | writeMem (address : Word) (value : Byte)
  /-- A byte read of the data space by the host (10 R36). -/
  | readMem (address : Word)
  /-- The engine makes one sequencer transition: the check, or one block (10 R33, R34). -/
  | engineTick
  /-- The engine runs its job to the end (30 R108 `WAIT`; 93 U9). -/
  | engineRun
  /-- The reset event (70 R260, R261). -/
  | reset
  deriving DecidableEq, Repr

/-- The state of the machine. The fields to `mem` are the spec's (10 R20); those from `host` on are the model's own. -/
structure State where
  phase  : Phase        -- PHASE, and STATUS.BUSY with it (10 R23, R32)
  done   : Bool         -- STATUS.DONE (10 R23)
  err    : Bool         -- STATUS.ERR (10 R23)
  errCode : BitVec 3    -- STATUS.ERRCODE (10 R23, 60 R230)
  path   : BitVec 2     -- STATUS.PATH (10 R23, 43 R212)
  cmd    : Word         -- CMD (10 R24)
  width  : Word         -- WIDTH (10 R25)
  height : Word         -- HEIGHT (10 R25)
  in0    : Slot         -- the six plane-descriptor slots (10 R26)
  in1    : Slot
  in2    : Slot
  out0   : Slot
  out1   : Slot
  out2   : Slot
  coef   : Coef         -- COEF (10 R30)
  cursor : Cursor       -- (by, bx) (10 R32)
  mem    : Memory       -- the data space (10 R36, 20 R60)
  host   : List HostEvent   -- what the outside does next (log entry 2)
  readData : Word           -- what the host's latest read returned (log entry 2)
  draws    : Nat            -- the number of free values drawn (log entry 3)
  touched  : List Nat       -- the bytes of the job's planes that the host wrote while BUSY, rising (20 R77, log entry 4)
  memAtRun : Memory         -- the data space at the entry to RUN (70 R261, log entry 5)
  deriving DecidableEq, Repr

/-- Why the machine stops with a fault. -/
inductive Fault where
  /-- Raised by the sequencer (`exec` and the engine tick) when PHASE is RUN and the registers do not decode and validate.
  The spec admits no such run: RUN is entered only when validation passes (10 R33) and the job registers keep their values
  while BUSY (10 R29). Safe: no state reached from reset raises it, and it stops the model. -/
  | runWithoutValidation
  deriving DecidableEq, Repr

/-- Why the machine has no meaning for what it is asked to do. -/
inductive Refusal where
  /-- Raised by an arm of `exec` whose instruction has no meaning yet. Safe: nothing is claimed of it. -/
  | notModelled (mnemonic : String)
  /-- Raised by a host access to the register window at an offset that is not a multiple of 4 or lies beyond 0xFC: not
  defined by the spec (10 R29, 93 U7). Safe: nothing is claimed of it. -/
  | windowAccessUndefined
  deriving DecidableEq, Repr

/-- All four registers of a slot at reset (10 R38). -/
def Slot.zero : Slot := ⟨0#32, 0#32, 0#32, 0#32⟩

/-- COEF at reset: all thirteen read 0 (10 R31, R38). -/
def Coef.zero : Coef := ⟨0, 0, 0, 0, 0, 0, 0, 0, 0, 0, 0, 0, 0⟩

/-- The machine right after reset (10 R38, 70 R260). The data memory lists nothing (its contents are the platform's,
log entry 1); the model's own fields start empty (log entries 2 to 5). -/
def State.reset : State where
  phase := .idle
  done := false
  err := false
  errCode := 0#3
  path := 0#2
  cmd := 0#32
  width := 0#32
  height := 0#32
  in0 := Slot.zero
  in1 := Slot.zero
  in2 := Slot.zero
  out0 := Slot.zero
  out1 := Slot.zero
  out2 := Slot.zero
  coef := Coef.zero
  cursor := ⟨0, 0⟩
  mem := []
  host := []
  readData := 0#32
  draws := 0
  touched := []
  memAtRun := []

end Sys2Proof.Machine
end

