-- ==== Sys2Proof/Machine/Flags.lean ====
section
/-! DEFINITION. The engine's only flags, the fields of STATUS (spec 10 R23, 60 R230, 43 R212), and their word. -/

namespace Sys2Proof.Machine

/-- The kernel variant a job runs, as STATUS.PATH reports it (10 R23, 43 R201 step 4). -/
inductive Path where
  | scalar
  | vectorAligned
  | vectorUnaligned
  deriving DecidableEq, Repr

/-- PATH's value: 0 scalar, 1 vector-aligned, 2 vector-unaligned (10 R23). -/
def Path.code : Path → BitVec 2
  | .scalar => 0#2
  | .vectorAligned => 1#2
  | .vectorUnaligned => 2#2

/-- ERRCODE's value of an error (60 R230); 6 and 7 are never produced. -/
def JobError.code : JobError → BitVec 3
  | .unsupportedStandard => 1#3
  | .invalidGeometry => 2#3
  | .dimensionMismatch => 3#3
  | .alignmentViolation => 4#3
  | .illegalCommand => 5#3

/-- STATUS.BUSY: equals (PHASE ≠ IDLE) (10 R23, R32). -/
def State.busy (s : State) : Bool := decide (s.phase ≠ .idle)

/-- The STATUS word (10 R23): BUSY bit 0, DONE bit 1, ERR bit 2, ERRCODE bits 6:4, PATH bits 9:8, the rest 0. -/
def State.statusWord (s : State) : Word :=
  0#22 ++ s.path ++ 0#1 ++ s.errCode ++ 0#1 ++ BitVec.ofBool s.err ++ BitVec.ofBool s.done ++ BitVec.ofBool s.busy

end Sys2Proof.Machine
end

