-- ==== Sys2Proof/Machine/Ops.lean ====
section
/-! DEFINITION. The named operations over the data memory and the registers: reading and writing a byte in the canonical
form, the slots by name, accepting a START, taking an error (the engine's exception, spec 60 R238) and ending a job. -/

namespace Sys2Proof.Machine

/-- What an address that the list does not name reads as. The spec leaves the memory's contents to the platform (10 R38, 93
U12). DESIGN CHOICE, unsafe for claims about unlisted bytes of State.reset: notes/assumptions/1.md. -/
def Memory.unlisted : Byte := 0#8

/-- MemRead(address, 1), M[address] (00 R16). -/
def Memory.read : Memory → Nat → Byte
  | [], _ => Memory.unlisted
  | (b, v) :: m, a => if a = b then v else Memory.read m a

/-- MemWrite(address, 1, v) (00 R16), keeping the canonical form. -/
def Memory.write : Memory → Nat → Byte → Memory
  | [], a, v => if v = Memory.unlisted then [] else [(a, v)]
  | (b, w) :: m, a, v =>
    if a < b then (if v = Memory.unlisted then (b, w) :: m else (a, v) :: (b, w) :: m)
    else if a = b then (if v = Memory.unlisted then m else (a, v) :: m)
    else (b, w) :: Memory.write m a v

/-- A list of byte writes, first to last. -/
def Memory.writeAll (m : Memory) (cells : List Host.Cell) : Memory :=
  cells.foldl (fun m c => Memory.write m c.1 c.2) m

/-- The canonical form: addresses strictly rising, inside the data space (20 R60), none holding what an unlisted address
reads as. -/
abbrev Memory.wf (m : Memory) : Prop :=
  m.Pairwise (fun c d => c.1 < d.1) ∧ ∀ c ∈ m, c.1 < Config.addressSpace ∧ c.2 ≠ Memory.unlisted

/-- Note an address in a strictly rising list of addresses. -/
def noteAddress : List Nat → Nat → List Nat
  | [], a => [a]
  | b :: l, a => if a < b then a :: b :: l else if a = b then b :: l else b :: noteAddress l a

/-- The registers of a slot (10 R21). -/
def State.slot (s : State) : SlotId → Slot
  | .in0 => s.in0
  | .in1 => s.in1
  | .in2 => s.in2
  | .out0 => s.out0
  | .out1 => s.out1
  | .out2 => s.out2

/-- Replace the registers of a slot (10 R21). -/
def State.setSlot (s : State) (id : SlotId) (p : Slot) : State :=
  match id with
  | .in0 => { s with in0 := p }
  | .in1 => { s with in1 := p }
  | .in2 => { s with in2 := p }
  | .out0 => { s with out0 := p }
  | .out1 => { s with out1 := p }
  | .out2 => { s with out2 := p }

/-- One register of a slot (10 R26). -/
def Slot.get (p : Slot) : SlotField → Word
  | .base => p.base
  | .stride => p.stride
  | .pw => p.pw
  | .ph => p.ph

/-- Replace one register of a slot (10 R26). -/
def Slot.set (p : Slot) (f : SlotField) (v : Word) : Slot :=
  match f with
  | .base => { p with base := v }
  | .stride => { p with stride := v }
  | .pw => { p with pw := v }
  | .ph => { p with ph := v }

/-- Step 1 of a job, the accepted START (43 R201): STATUS <- BUSY and nothing else, PHASE <- CHECK. It is also the return
from an error: it clears DONE, ERR, ERRCODE and PATH (60 R239). -/
def State.acceptStart (s : State) : State :=
  { s with phase := .check, done := false, err := false, errCode := 0#3, path := 0#2, touched := [] }

/-- Taking an error, `raise E()` (60 R238): STATUS <- DONE, ERR and the code, PHASE <- IDLE; registers, COEF and memory
keep their values. (`touched` concerns a job in progress only, log entry 4.) -/
def State.raise (e : JobError) (s : State) : State :=
  { s with phase := .idle, done := true, err := true, errCode := e.code, path := 0#2, touched := [] }

/-- The STATUS and PHASE of a job that ended without error (43 R201 step 6). -/
def State.succeed (p : Path) (s : State) : State :=
  { s with phase := .idle, done := true, err := false, errCode := 0#3, path := p.code, touched := [], memAtRun := [] }

/-- The command that CMD holds, if it is legal (30 R110). -/
def State.fetch (s : State) : Option Instr :=
  match decode s.cmd with
  | .ok i => some i
  | .error _ => none

end Sys2Proof.Machine
end

