-- ==== Sys2Proof/Machine/Operands.lean ====
section
/-! DEFINITION. The operands of a command: the roles of the slots (spec 10 R27), plane geometry and sample addresses (20
R64, R65), the 4:2:0 chroma mapper (20 R66), alignment (43 R205), and the read and write sets (20 R71, R80). All addresses
and sizes are exact natural numbers (30 R106, 20 R64). -/

namespace Sys2Proof.Machine

/-- What a used plane holds (10 R27). -/
inductive Role where
  | y
  | u
  | v
  | uv
  | vu
  | rgb24
  | rgba32
  deriving DecidableEq, Repr

/-- Bytes per picture element (20 R62). -/
def Role.bpp : Role → Nat
  | .y => 1
  | .u => 1
  | .v => 1
  | .uv => 2
  | .vu => 2
  | .rgb24 => 3
  | .rgba32 => 4

/-- The role of each slot, by OP alone; `none` is an unused slot (10 R27, R28). -/
def Op.role : Op → SlotId → Option Role
  | .i420Rgb24, .in0 => some .y
  | .i420Rgb24, .in1 => some .u
  | .i420Rgb24, .in2 => some .v
  | .i420Rgb24, .out0 => some .rgb24
  | .i420Rgb24, .out1 => none
  | .i420Rgb24, .out2 => none
  | .rgb24I420, .in0 => some .rgb24
  | .rgb24I420, .in1 => none
  | .rgb24I420, .in2 => none
  | .rgb24I420, .out0 => some .y
  | .rgb24I420, .out1 => some .u
  | .rgb24I420, .out2 => some .v
  | .nv12Rgb24, .in0 => some .y
  | .nv12Rgb24, .in1 => some .uv
  | .nv12Rgb24, .in2 => none
  | .nv12Rgb24, .out0 => some .rgb24
  | .nv12Rgb24, .out1 => none
  | .nv12Rgb24, .out2 => none
  | .nv21Rgb24, .in0 => some .y
  | .nv21Rgb24, .in1 => some .vu
  | .nv21Rgb24, .in2 => none
  | .nv21Rgb24, .out0 => some .rgb24
  | .nv21Rgb24, .out1 => none
  | .nv21Rgb24, .out2 => none
  | .rgba32I420, .in0 => some .rgba32
  | .rgba32I420, .in1 => none
  | .rgba32I420, .in2 => none
  | .rgba32I420, .out0 => some .y
  | .rgba32I420, .out1 => some .u
  | .rgba32I420, .out2 => some .v

/-- The input slots a conversion uses (10 R27). -/
def Op.inputs (op : Op) : List SlotId := [SlotId.in0, .in1, .in2].filter (fun id => (Op.role op id).isSome)

/-- The output slots a conversion uses (10 R27). -/
def Op.outputs (op : Op) : List SlotId := [SlotId.out0, .out1, .out2].filter (fun id => (Op.role op id).isSome)

/-- The used planes of a job (10 R27). -/
def Op.used (op : Op) : List SlotId := Op.inputs op ++ Op.outputs op

/-- Bytes per element of a used slot (20 R62); 0 for an unused one, which no rule asks for. -/
def Op.bpp (op : Op) (id : SlotId) : Nat :=
  match Op.role op id with
  | some r => r.bpp
  | none => 0

/-- The direction (30 R102, R106): forward is YUV to RGB. -/
def Op.forward : Op → Bool
  | .i420Rgb24 => true
  | .rgb24I420 => false
  | .nv12Rgb24 => true
  | .nv21Rgb24 => true
  | .rgba32I420 => false

/-- The luma plane of the job's YUV side (43 R203). -/
def Op.lumaSlot (op : Op) : SlotId := if Op.forward op then .in0 else .out0

/-- The chroma planes of the job's YUV side (43 R203): slot 1 for all, slot 2 for the planar layouts. -/
def Op.chromaSlots : Op → List SlotId
  | .i420Rgb24 => [.in1, .in2]
  | .rgb24I420 => [.out1, .out2]
  | .nv12Rgb24 => [.in1]
  | .nv21Rgb24 => [.in1]
  | .rgba32I420 => [.out1, .out2]

/-- Chroma size by ceiling division (20 R66). -/
def chromaSize (n : Nat) : Nat := (n + 1) / 2

/-- The chroma coordinate of a pixel coordinate (20 R66): the chroma position of (x, y) is (x div 2, y div 2). -/
def chromaOf (n : Nat) : Nat := n / 2

/-- W (00 R15). -/
def State.w (s : State) : Nat := s.width.toNat

/-- H (00 R15). -/
def State.h (s : State) : Nat := s.height.toNat

/-- cw, the chroma width (00 R15). -/
def State.cw (s : State) : Nat := chromaSize s.w

/-- ch, the chroma height (00 R15). -/
def State.ch (s : State) : Nat := chromaSize s.h

/-- rowbytes(s) (20 R64). -/
def Slot.rowBytes (p : Slot) (bpp : Nat) : Nat := p.pw.toNat * bpp

/-- The first address of row r (20 R64). -/
def Slot.rowStart (p : Slot) (r : Nat) : Nat := p.base.toNat + r * p.stride.toNat

/-- top(s), one past the highest footprint address (20 R64). -/
def Slot.top (p : Slot) (bpp : Nat) : Nat := Slot.rowStart p (p.ph.toNat - 1) + Slot.rowBytes p bpp

/-- addr(s, r, c, k), the address of byte k of the element at column c, row r (20 R65). -/
def Slot.addr (p : Slot) (bpp r c k : Nat) : Nat := Slot.rowStart p r + c * bpp + k

/-- The rows of a plane, each its first address and its number of sample bytes (20 R64). -/
def Slot.rows (p : Slot) (bpp : Nat) : List (Nat × Nat) :=
  (List.range p.ph.toNat).map (fun r => (Slot.rowStart p r, Slot.rowBytes p bpp))

/-- Whether an address lies in the footprint of a plane (20 R64). -/
def Slot.covers (p : Slot) (bpp a : Nat) : Bool :=
  (Slot.rows p bpp).any (fun r => decide (r.1 ≤ a) && decide (a < r.1 + r.2))

/-- The footprint of a plane as a list of addresses (20 R64). -/
def Slot.footprint (p : Slot) (bpp : Nat) : List Nat :=
  (Slot.rows p bpp).flatMap (fun r => (List.range r.2).map (fun k => r.1 + k))

/-- Whether the footprints of two planes share a byte (20 R80). -/
def Slot.sharesByte (p : Slot) (bppP : Nat) (q : Slot) (bppQ : Nat) : Bool :=
  (Slot.rows p bppP).any (fun i => (Slot.rows q bppQ).any (fun j => decide (max i.1 j.1 < min (i.1 + i.2) (j.1 + j.2))))

/-- Whether an address is in the read set of a job of this conversion (20 R71). -/
def State.inReadSet (s : State) (op : Op) (a : Nat) : Bool :=
  (Op.inputs op).any (fun id => Slot.covers (s.slot id) (Op.bpp op id) a)

/-- Whether an address is in the write set of a job of this conversion (20 R71). -/
def State.inWriteSet (s : State) (op : Op) (a : Nat) : Bool :=
  (Op.outputs op).any (fun id => Slot.covers (s.slot id) (Op.bpp op id) a)

/-- The write set of a job of this conversion as a list of addresses (20 R71). -/
def State.writeSet (s : State) (op : Op) : List Nat :=
  (Op.outputs op).flatMap (fun id => Slot.footprint (s.slot id) (Op.bpp op id))

/-- Whether an output footprint shares a byte with another used footprint of the job (20 R80). -/
def State.overlaps (s : State) (op : Op) : Bool :=
  (Op.outputs op).any (fun o => (Op.used op).any (fun t =>
    decide (t ≠ o) && Slot.sharesByte (s.slot o) (Op.bpp op o) (s.slot t) (Op.bpp op t)))

/-- ALIGNED(job) (43 R205): every used base and stride is a multiple of 16. -/
def State.aligned (s : State) (op : Op) : Bool :=
  (Op.used op).all (fun id =>
    decide ((s.slot id).base.toNat % Config.align = 0) && decide ((s.slot id).stride.toNat % Config.align = 0))

/-- How the chroma of a forward conversion lies in memory (10 R27, 20 R62). -/
inductive ChromaLayout where
  | planar
  | nv12
  | nv21
  deriving DecidableEq, Repr

/-- Yin(x, y) (20 R65). -/
def State.yIn (s : State) (x y : Nat) : Nat := Slot.addr s.in0 Role.y.bpp y x 0

/-- Uin(cx, cy) (20 R65): in NV12 the first byte of the pair, in NV21 the second. -/
def State.uIn (s : State) : ChromaLayout → Nat → Nat → Nat
  | .planar, cx, cy => Slot.addr s.in1 Role.u.bpp cy cx 0
  | .nv12, cx, cy => Slot.addr s.in1 Role.uv.bpp cy cx 0
  | .nv21, cx, cy => Slot.addr s.in1 Role.vu.bpp cy cx 1

/-- Vin(cx, cy) (20 R65): in NV12 the second byte of the pair, in NV21 the first. -/
def State.vIn (s : State) : ChromaLayout → Nat → Nat → Nat
  | .planar, cx, cy => Slot.addr s.in2 Role.v.bpp cy cx 0
  | .nv12, cx, cy => Slot.addr s.in1 Role.uv.bpp cy cx 1
  | .nv21, cx, cy => Slot.addr s.in1 Role.vu.bpp cy cx 0

/-- RGBout(x, y, k), k = 0 R, 1 G, 2 B (20 R65). -/
def State.rgbOut (s : State) (x y k : Nat) : Nat := Slot.addr s.out0 Role.rgb24.bpp y x k

/-- RGBin(x, y, k), k = 0 R, 1 G, 2 B, and 3 A of an RGBA32 plane (20 R65). -/
def State.rgbIn (s : State) (role : Role) (x y k : Nat) : Nat := Slot.addr s.in0 role.bpp y x k

/-- Yout(x, y) (20 R65). -/
def State.yOut (s : State) (x y : Nat) : Nat := Slot.addr s.out0 Role.y.bpp y x 0

/-- Uout(cx, cy) (20 R65). -/
def State.uOut (s : State) (cx cy : Nat) : Nat := Slot.addr s.out1 Role.u.bpp cy cx 0

/-- Vout(cx, cy) (20 R65). -/
def State.vOut (s : State) (cx cy : Nat) : Nat := Slot.addr s.out2 Role.v.bpp cy cx 0

end Sys2Proof.Machine
end

