-- ==== Sys2Proof/Machine/Coefficients.lean ====
section
/-! DEFINITION. The Color Standard Table (spec 40 R130), the exact matrices (R131, R132), the fixed-point quantizer (R133)
and the six quantized sets as the hardware holds them, a ROM (R135, R136, R137). -/

namespace Sys2Proof.Machine

/-- The three colour standards (00 R19, 40 R130). -/
inductive Standard where
  | bt601
  | bt709
  | jpegFullRange
  deriving DecidableEq, Repr

/-- STD values (30 R104): every other value names no standard. -/
def Standard.ofField : Nat → Option Standard
  | 0 => some .bt601
  | 1 => some .bt709
  | 2 => some .jpegFullRange
  | _ => none

/-- Kr, the luma weight of red (40 R130). -/
def Standard.kr : Standard → Rat
  | .bt601 => 299 / 1000
  | .bt709 => 2126 / 10000
  | .jpegFullRange => 299 / 1000

/-- Kb, the luma weight of blue (40 R130). -/
def Standard.kb : Standard → Rat
  | .bt601 => 114 / 1000
  | .bt709 => 722 / 10000
  | .jpegFullRange => 114 / 1000

/-- Kg = 1 - Kr - Kb (40 R130). -/
def Standard.kg (st : Standard) : Rat := 1 - st.kr - st.kb

/-- YOFF, the luma level of black (40 R130). -/
def Standard.yoff : Standard → Nat
  | .bt601 => 16
  | .bt709 => 16
  | .jpegFullRange => 0

/-- YEXC, the luma excursion (40 R130). -/
def Standard.yexc : Standard → Rat
  | .bt601 => 219
  | .bt709 => 219
  | .jpegFullRange => 255

/-- CEXC, the chroma excursion (40 R130). -/
def Standard.cexc : Standard → Rat
  | .bt601 => 224
  | .bt709 => 224
  | .jpegFullRange => 255

/-- The real-valued inverse matrix, rows Y, U, V, columns R, G, B, row-major (40 R131). -/
def Standard.inverseMatrix (st : Standard) : List Rat :=
  let sy := st.yexc / 255
  let sc := st.cexc / 255
  [ st.kr * sy, st.kg * sy, st.kb * sy,
    -st.kr / (2 * (1 - st.kb)) * sc, -st.kg / (2 * (1 - st.kb)) * sc, 1 / 2 * sc,
    1 / 2 * sc, -st.kg / (2 * (1 - st.kr)) * sc, -st.kb / (2 * (1 - st.kr)) * sc ]

/-- The real-valued forward matrix, rows R, G, B, columns Y - YOFF, U - 128, V - 128, row-major (40 R132). -/
def Standard.forwardMatrix (st : Standard) : List Rat :=
  let cy := 255 / st.yexc
  let crv := 2 * (1 - st.kr) * 255 / st.cexc
  let cbu := 2 * (1 - st.kb) * 255 / st.cexc
  let cgu := st.kb / st.kg * cbu
  let cgv := st.kr / st.kg * crv
  [ cy, 0, crv,
    cy, -cgu, -cgv,
    cy, cbu, 0 ]

/-- The quantizer Q(c) = sign(c) * floor(|c| * 2^N + 1/2): nearest at N fractional bits, ties away from zero (40 R133). -/
def quantize (c : Rat) : Int :=
  if c < 0 then -((-c) * 2 ^ Config.fracBits + 1 / 2).floor else (c * 2 ^ Config.fracBits + 1 / 2).floor

/-- The forward sets, YUV to RGB (40 R135): the ROM of R137. -/
def Standard.forwardSet : Standard → Coef
  | .bt601 => ⟨1192, 0, 1634, 1192, -401, -832, 1192, 2066, 0, 16, 128, 10, 512⟩
  | .bt709 => ⟨1192, 0, 1836, 1192, -218, -546, 1192, 2163, 0, 16, 128, 10, 512⟩
  | .jpegFullRange => ⟨1024, 0, 1436, 1024, -352, -731, 1024, 1815, 0, 0, 128, 10, 512⟩

/-- The inverse sets, RGB to YUV (40 R136): the ROM of R137. -/
def Standard.inverseSet : Standard → Coef
  | .bt601 => ⟨263, 516, 100, -152, -298, 450, 450, -377, -73, 16, 128, 10, 512⟩
  | .bt709 => ⟨187, 629, 63, -103, -347, 450, 450, -409, -41, 16, 128, 10, 512⟩
  | .jpegFullRange => ⟨306, 601, 117, -173, -339, 512, 512, -429, -83, 0, 128, 10, 512⟩

/-- FixedPointCoefficients(STD, direction(OP)) (40 R134): what the entry to RUN loads into COEF (10 R31). -/
def coefficients (st : Standard) (op : Op) : Coef :=
  if Op.forward op then st.forwardSet else st.inverseSet

/-- The matrix entries of a set, row-major (40 R134). -/
def Coef.matrix (c : Coef) : List Int := [c.m0, c.m1, c.m2, c.m3, c.m4, c.m5, c.m6, c.m7, c.m8]

end Sys2Proof.Machine
end

