-- ==== Sys2Proof/Machine/Pixel.lean ====
section
/-! DEFINITION. The pixel functions FWD_PX and INV_PX (spec 41 R150, R151) over exact integers (40 R139, R140), with the
floor shift (00 R13) and the saturating clamp (00 R14). -/

namespace Sys2Proof.Machine

/-- `v >>a n`, floor(v / 2^n) (00 R13). -/
def asr (v : Int) (n : Nat) : Int := v / 2 ^ n

/-- clamp8(v) (00 R14). -/
def clamp8 (v : Int) : Int := if v < 0 then 0 else if v > 255 then 255 else v

/-- The one narrowing of the pixel path: clamp8, then the byte it is (40 R140). -/
def toSample (v : Int) : Byte := BitVec.ofNat 8 (clamp8 v).toNat

/-- A sample as the unsigned integer it holds (20 R61). -/
def sample (b : Byte) : Int := (b.toNat : Int)

/-- One channel: sum of products, bias, floor shift (40 R139). -/
def channel (c : Coef) (k0 k1 k2 a0 a1 a2 : Int) : Int :=
  asr (k0 * a0 + k1 * a1 + k2 * a2 + (c.bias : Int)) c.shift

/-- FWD_PX(c, y, u, v) = (r, g, b) (41 R150). -/
def fwdPx (c : Coef) (y u v : Byte) : Byte × Byte × Byte :=
  let a0 := sample y - (c.yoff : Int)
  let a1 := sample u - (c.coff : Int)
  let a2 := sample v - (c.coff : Int)
  (toSample (channel c c.m0 c.m1 c.m2 a0 a1 a2),
   toSample (channel c c.m3 c.m4 c.m5 a0 a1 a2),
   toSample (channel c c.m6 c.m7 c.m8 a0 a1 a2))

/-- INV_Y (41 R151). -/
def invY (c : Coef) (r g b : Byte) : Byte :=
  toSample (channel c c.m0 c.m1 c.m2 (sample r) (sample g) (sample b) + (c.yoff : Int))

/-- INV_U (41 R151). -/
def invU (c : Coef) (r g b : Byte) : Byte :=
  toSample (channel c c.m3 c.m4 c.m5 (sample r) (sample g) (sample b) + (c.coff : Int))

/-- INV_V (41 R151). -/
def invV (c : Coef) (r g b : Byte) : Byte :=
  toSample (channel c c.m6 c.m7 c.m8 (sample r) (sample g) (sample b) + (c.coff : Int))

end Sys2Proof.Machine
end

