-- ==== Sys2Proof/Machine/Kernels.lean ====
section
/-! DEFINITION. The conversion kernels: the body of a scalar kernel for one block (spec 41 R152 to R157, R161), the order in
which the scalar and the vector kernels take the blocks (10 R34, 42 R180, R185), the conversion of a list of blocks, and the input
bytes that each output byte is computed from (41 R159). -/

namespace Sys2Proof.Machine

/-- The pixels of block (by, bx) that lie inside the image (41 R157), in the order of the kernels' loops (dy, then dx). -/
def blockPixels (w h row col : Nat) : List (Nat × Nat) :=
  [(2 * col, 2 * row), (2 * col + 1, 2 * row), (2 * col, 2 * row + 1), (2 * col + 1, 2 * row + 1)].filter
    (fun p => decide (p.1 < w) && decide (p.2 < h))

/-- The bytes one pixel of a forward kernel writes, given its block's chroma pair (41 R152). -/
def forwardPixel (c : Coef) (s : State) (m : Memory) (u v : Byte) (x y : Nat) : List Host.Cell :=
  let px := fwdPx c (m.read (s.yIn x y)) u v
  [(s.rgbOut x y 0, px.1), (s.rgbOut x y 1, px.2.1), (s.rgbOut x y 2, px.2.2)]

/-- The bytes one block of a forward kernel writes (41 R152, R153, R154). -/
def forwardBlock (layout : ChromaLayout) (c : Coef) (s : State) (m : Memory) (row col : Nat) : List Host.Cell :=
  let u := m.read (s.uIn layout col row)
  let v := m.read (s.vIn layout col row)
  (blockPixels s.w s.h row col).flatMap (fun p => forwardPixel c s m u v p.1 p.2)

/-- The bytes one pixel of an inverse kernel writes: its luma, and the block's chroma pair if it is the block's top-left
pixel (41 R155, R161). An RGBA32 plane's alpha byte is read and dropped (41 R156), which has no effect (20 R70). -/
def inversePixel (role : Role) (c : Coef) (s : State) (m : Memory) (row col x y : Nat) : List Host.Cell :=
  let r := m.read (s.rgbIn role x y 0)
  let g := m.read (s.rgbIn role x y 1)
  let b := m.read (s.rgbIn role x y 2)
  (s.yOut x y, invY c r g b) ::
    (if x = 2 * col ∧ y = 2 * row then [(s.uOut col row, invU c r g b), (s.vOut col row, invV c r g b)] else [])

/-- The bytes one block of an inverse kernel writes (41 R155, R156). -/
def inverseBlock (role : Role) (c : Coef) (s : State) (m : Memory) (row col : Nat) : List Host.Cell :=
  (blockPixels s.w s.h row col).flatMap (fun p => inversePixel role c s m row col p.1 p.2)

/-- SCALAR_BLOCK(OP, c, bx, by): the body of the two outer loops of the scalar kernel of OP (42 section 3), as the bytes
it writes; it reads only the inputs (20 R72). -/
def scalarBlock (op : Op) (c : Coef) (s : State) (m : Memory) (b : Cursor) : List Host.Cell :=
  match op with
  | .i420Rgb24 => forwardBlock .planar c s m b.row b.col
  | .rgb24I420 => inverseBlock .rgb24 c s m b.row b.col
  | .nv12Rgb24 => forwardBlock .nv12 c s m b.row b.col
  | .nv21Rgb24 => forwardBlock .nv21 c s m b.row b.col
  | .rgba32I420 => inverseBlock .rgba32 c s m b.row b.col

/-- The data memory after the blocks of a list, first to last. -/
def convert (op : Op) (c : Coef) (s : State) (m : Memory) (blocks : List Cursor) : Memory :=
  blocks.foldl (fun m b => m.writeAll (scalarBlock op c s m b)) m

/-- The output bytes of a forward pixel, each with the addresses of the input bytes it is computed from (41 R150, R159: R from
(y, v), G from all three, B from (y, u)). -/
def forwardSources (layout : ChromaLayout) (s : State) (x y : Nat) : List (Nat × List Nat) :=
  let luma := s.yIn x y
  let u := s.uIn layout (chromaOf x) (chromaOf y)
  let v := s.vIn layout (chromaOf x) (chromaOf y)
  [(s.rgbOut x y 0, [luma, v]), (s.rgbOut x y 1, [luma, u, v]), (s.rgbOut x y 2, [luma, u])]

/-- The output bytes of an inverse pixel, each with the addresses of the input bytes it is computed from (41 R151, R161: three
colour bytes of the pixel, never its alpha, R156). -/
def inverseSources (role : Role) (s : State) (x y : Nat) : List (Nat × List Nat) :=
  let pixel := [s.rgbIn role x y 0, s.rgbIn role x y 1, s.rgbIn role x y 2]
  (s.yOut x y, pixel) ::
    (if x % 2 = 0 ∧ y % 2 = 0 then
      [(s.uOut (chromaOf x) (chromaOf y), pixel), (s.vOut (chromaOf x) (chromaOf y), pixel)]
    else [])

/-- The output bytes of a pixel with their input addresses, by conversion (41 R159). -/
def pixelSources (op : Op) (s : State) (x y : Nat) : List (Nat × List Nat) :=
  match op with
  | .i420Rgb24 => forwardSources .planar s x y
  | .rgb24I420 => inverseSources .rgb24 s x y
  | .nv12Rgb24 => forwardSources .nv12 s x y
  | .nv21Rgb24 => forwardSources .nv21 s x y
  | .rgba32I420 => inverseSources .rgba32 s x y

/-- The output bytes of a job with their input addresses (41 R159). -/
def imageSources (op : Op) (s : State) : List (Nat × List Nat) :=
  (List.range s.h).flatMap (fun y => (List.range s.w).flatMap (fun x => pixelSources op s x y))

/-- The blocks of block row `row` from column `col` on. -/
def rowBlocks (cw row col : Nat) : List Cursor := (List.range' col (cw - col)).map (fun c => ⟨row, c⟩)

/-- The blocks from a cursor on, in the scalar reference order (10 R34). -/
def blocksFrom (cw ch : Nat) (k : Cursor) : List Cursor :=
  if k.row < ch then
    rowBlocks cw k.row k.col ++ (List.range' (k.row + 1) (ch - (k.row + 1))).flatMap (fun r => rowBlocks cw r 0)
  else []

/-- The cursor after a block in the reference order; `none` when the job ends (10 R34). -/
def nextCursor (cw ch : Nat) (k : Cursor) : Option Cursor :=
  if k.col + 1 < cw then some ⟨k.row, k.col + 1⟩
  else if k.row + 1 < ch then some ⟨k.row + 1, 0⟩
  else none

/-- Whether a block belongs to the body of a vector kernel (42 R180): bx < WB div 2 and by < HB div 2, where
WB = 16 * (W div 16) and HB = 2 * (H div 2). -/
def inBody (w h : Nat) (b : Cursor) : Bool :=
  decide (b.col < Config.vectorColumns * (w / Config.vectorColumns) / 2) &&
    decide (b.row < Config.vectorRows * (h / Config.vectorRows) / 2)

/-- The eight blocks of chunk (k, by) (42 R180, R181). -/
def chunkBlocks (k row : Nat) : List Cursor := (List.range 8).map (fun j => ⟨row, 8 * k + j⟩)

/-- The blocks of VECTOR_KERNEL in its order (42 section 3): the chunks of the body, then the tail blocks. -/
def vectorBlocks (w h : Nat) : List Cursor :=
  (List.range (h / Config.vectorRows)).flatMap
      (fun row => (List.range (w / Config.vectorColumns)).flatMap (fun k => chunkBlocks k row)) ++
    (blocksFrom (chromaSize w) (chromaSize h) ⟨0, 0⟩).filter (fun b => !(inBody w h b))

/-- The blocks of a whole job in the order of the kernel that the path names (43 R201 step 5). -/
def kernelBlocks (w h : Nat) : Path → List Cursor
  | .scalar => blocksFrom (chromaSize w) (chromaSize h) ⟨0, 0⟩
  | .vectorAligned => vectorBlocks w h
  | .vectorUnaligned => vectorBlocks w h

end Sys2Proof.Machine
end

