-- ==== Sys2Proof/Machine/Adapter.lean ====
section
/-! DEFINITION. The layout/stride adapter: the checks of a job in their order (spec 43 R202 to R205) and the choice of the
kernel (43 R206, R212). They read registers only (60 R237). -/

namespace Sys2Proof.Machine

/-- G1: W = 0 or H = 0 (43 R203). -/
def State.zeroSize (s : State) : Bool := decide (s.w = 0) || decide (s.h = 0)

/-- G2: a used plane has no columns or no rows (43 R203). -/
def State.zeroPlane (s : State) (op : Op) : Bool :=
  (Op.used op).any (fun id => decide ((s.slot id).pw.toNat = 0) || decide ((s.slot id).ph.toNat = 0))

/-- G3: a chroma plane is not sized by ceiling division from its luma plane (43 R203). -/
def State.chromaMisfit (s : State) (op : Op) : Bool :=
  (Op.chromaSlots op).any (fun id =>
    decide ((s.slot id).pw.toNat ≠ chromaSize (s.slot (Op.lumaSlot op)).pw.toNat) ||
      decide ((s.slot id).ph.toNat ≠ chromaSize (s.slot (Op.lumaSlot op)).ph.toNat))

/-- G4: a stride is smaller than its plane's row (43 R203). -/
def State.shortStride (s : State) (op : Op) : Bool :=
  (Op.used op).any (fun id => decide ((s.slot id).stride.toNat < Slot.rowBytes (s.slot id) (Op.bpp op id)))

/-- G5: the primary input plane is not W × H (43 R203). -/
def State.inputMisfit (s : State) : Bool :=
  decide (s.in0.pw.toNat ≠ s.w) || decide (s.in0.ph.toNat ≠ s.h)

/-- G6: a plane does not fit in the address space (43 R203). -/
def State.planeOutside (s : State) (op : Op) : Bool :=
  (Op.used op).any (fun id => decide (Config.addressSpace < Slot.top (s.slot id) (Op.bpp op id)))

/-- Check 3, geometry: any of G1 to G6 (43 R203). -/
def State.badGeometry (s : State) (op : Op) : Bool :=
  s.zeroSize || s.zeroPlane op || s.chromaMisfit op || s.shortStride op || s.inputMisfit || s.planeOutside op

/-- Check 4: the primary output plane's size differs from the primary input plane's (43 R204). -/
def State.sizesDiffer (s : State) : Bool :=
  decide (s.out0.pw.toNat ≠ s.in0.pw.toNat) || decide (s.out0.ph.toNat ≠ s.in0.ph.toNat)

/-- The checks 2 to 5 in their order; the first that fails decides the error (43 R202, 60 R236). Check 1, a legal CMD, is
the decoder's. -/
def validate (op : Op) (variant : Variant) (std : Nat) (s : State) : Except JobError Standard :=
  match Standard.ofField std with
  | none => .error .unsupportedStandard
  | some st =>
    if s.badGeometry op then .error .invalidGeometry
    else if s.sizesDiffer then .error .dimensionMismatch
    else if variant = .vectorAligned ∧ s.aligned op = false then .error .alignmentViolation
    else .ok st

/-- AUTO_PATH(job) (43 R206). -/
def autoPath (op : Op) (s : State) : Path :=
  if s.w < Config.vectorColumns ∨ s.h < Config.vectorRows then .scalar
  else if s.aligned op then .vectorAligned
  else .vectorUnaligned

/-- The path of a job (43 R201 step 4, R212). -/
def jobPath (op : Op) (variant : Variant) (s : State) : Path :=
  match variant with
  | .scalar => .scalar
  | .vectorAligned => .vectorAligned
  | .vectorUnaligned => .vectorUnaligned
  | .auto => autoPath op s

end Sys2Proof.Machine
end

