-- ==== Sys2Proof/Machine/Job.lean ====
section
/-! DEFINITION. A job from CHECK to its end (spec 43 R201 steps 2 to 6): the entry to RUN, the end, the whole run as one
transition, one sequencer transition (10 R33, R34), and what an unfinished job shows (70 R261, 93 U3, U4). -/

namespace Sys2Proof.Machine

/-- The entry to RUN (43 R201 step 4): COEF is loaded (10 R31), the cursor is (0, 0), and the model notes the data memory
as it is before the job's first access (log entry 5). -/
def enterRun (op : Op) (st : Standard) (s : State) : State :=
  { s with phase := .run, coef := coefficients st op, cursor := ⟨0, 0⟩, memAtRun := s.mem }

/-- Whether what the host wrote while BUSY leaves the byte of the write set at `a` unspecified: it was touched, or it is
computed from a byte that was (20 R77, 93 U3). -/
def disturbed (op : Op) (s : State) (a : Nat) : Bool :=
  s.touched.contains a || (imageSources op s).any (fun d => decide (d.1 = a) && d.2.any (fun b => s.touched.contains b))

/-- Whether the job leaves any u8 at the address `a` of its write set: an output footprint overlaps another used one (20 R80,
93 U2: every byte), or the host's writes reach it (20 R77, 93 U3). -/
def uncertain (op : Op) (s : State) (a : Nat) : Bool := s.overlaps op || disturbed op s a

/-- Whether the job may leave an unspecified byte at all (20 R77, R80). -/
def unpredictable (op : Op) (s : State) : Bool := s.overlaps op || decide (s.touched ≠ [])

/-- The unspecified bytes of the write set, a free byte at each (93 U2, U3: "any u8"). -/
def freeCells (op : Op) (s : State) : List Host.Cell :=
  ((s.writeSet op).filter (uncertain op s)).map (fun a => (a, Config.freeByte s.draws a))

/-- Step 6, the end of the job, after the last block (43 R201, 41 R158). The cursor stays at the last block (10 R34; log
entry 10). An unpredictable job leaves free bytes where they are unspecified and all else as a success does (93 U2, U3; log entries 4
and 6). -/
def endJob (op : Op) (variant : Variant) (s : State) : State :=
  let s' := if unpredictable op s then { s with mem := s.mem.writeAll (freeCells op s), draws := s.draws + 1 } else s
  State.succeed (jobPath op variant s) { s' with cursor := ⟨s.ch - 1, s.cw - 1⟩ }

/-- Steps 4 to 6 from CHECK: enter RUN, convert every block in the order of the kernel that the path names, end. -/
def convertAll (op : Op) (variant : Variant) (st : Standard) (s : State) : State :=
  let s' := enterRun op st s
  endJob op variant
    { s' with mem := convert op (coefficients st op) s' s'.mem (kernelBlocks s.w s.h (jobPath op variant s)) }

/-- Steps 5 and 6 from RUN: convert the blocks from the cursor on, end. -/
def convertRest (op : Op) (variant : Variant) (st : Standard) (s : State) : State :=
  endJob op variant { s with mem := convert op (coefficients st op) s s.mem (blocksFrom s.cw s.ch s.cursor) }

/-- A job of a conversion, a variant and a standard, run to its end as one transition (43 R201: "a model may make ... all
six one atomic transition"): steps 3 to 6 from CHECK, steps 5 and 6 from RUN. -/
def runJob (op : Op) (variant : Variant) (std : Nat) (s : State) : Host.Outcome State Fault Refusal :=
  match validate op variant std s with
  | .error e => if s.phase = .run then .fault .runWithoutValidation else .next (State.raise e s)
  | .ok st => .next (if s.phase = .run then convertRest op variant st s else convertAll op variant st s)

/-- One block of RUN: convert the block at the cursor, and advance the cursor or end the job (10 R33, R34). -/
def convertOne (op : Op) (variant : Variant) (st : Standard) (s : State) : State :=
  let s' := { s with mem := s.mem.writeAll (scalarBlock op (coefficients st op) s s.mem s.cursor) }
  match nextCursor s.cw s.ch s.cursor with
  | some k => { s' with cursor := k }
  | none => endJob op variant s'

/-- One sequencer transition of a job (10 R33): the check with the entry to RUN or the error, or one block. -/
def advanceJob (op : Op) (variant : Variant) (std : Nat) (s : State) : Host.Outcome State Fault Refusal :=
  match validate op variant std s with
  | .error e => if s.phase = .run then .fault .runWithoutValidation else .next (State.raise e s)
  | .ok st => .next (if s.phase = .run then convertOne op variant st s else enterRun op st s)

/-- What the sequencer does when CMD is not legal (43 R201 step 2, 60 R235). -/
def noCommand (s : State) : Host.Outcome State Fault Refusal :=
  if s.phase = .run then .fault .runWithoutValidation else .next (State.raise .illegalCommand s)

/-- One sequencer transition of the engine; an idle engine does nothing (60 R245). -/
def engineTick (s : State) : Host.Outcome State Fault Refusal :=
  if s.phase = .idle then .next s
  else
    match s.fetch with
    | none => noCommand s
    | some i => advanceJob i.op i.variant i.std s

/-- The conversion, variant and standard of the job in progress, if it passes its checks. -/
def activeJob (s : State) : Option (Op × Variant × Standard) :=
  if s.phase = .idle then none
  else
    match s.fetch with
    | none => none
    | some i =>
      match validate i.op i.variant i.std s with
      | .error _ => none
      | .ok st => some (i.op, i.variant, st)

/-- Whether an address lies in the read or write set of the job in progress (20 R77). -/
def inActiveSets (s : State) (a : Nat) : Bool :=
  match activeJob s with
  | none => false
  | some (op, _, _) => s.inReadSet op a || s.inWriteSet op a

/-- The data memory that the job in RUN will leave, had it no unspecified bytes: the value each byte will finally hold. -/
def finalMemory (op : Op) (st : Standard) (s : State) : Memory :=
  convert op (coefficients st op) s s.mem (blocksFrom s.cw s.ch s.cursor)

/-- A byte of the write set of a job in RUN as it may be seen: its value before the job or its final value, and which is a
free choice (70 R261, 93 U3, U4); any byte if the final value is unspecified. -/
def midByte (op : Op) (st : Standard) (s : State) (a : Nat) : Byte :=
  if uncertain op s a then Config.freeByte s.draws a
  else if Config.landed s.draws a then (finalMemory op st s).read a
  else s.memAtRun.read a

/-- The data memory after a reset (70 R261): untouched, but for the write set of a job in RUN. -/
def abandonedMemory (s : State) : Memory :=
  match s.phase, activeJob s with
  | .run, some (op, _, st) => s.mem.writeAll ((s.writeSet op).map (fun a => (a, midByte op st s a)))
  | _, _ => s.mem

end Sys2Proof.Machine
end

