-- ==== Sys2Proof/Machine/Auto.lean ====
section
/-! DEFINITION. The commands whose variant the adapter picks (spec 43 R207 to R211): path = AUTO_PATH(job) (R206). -/

namespace Sys2Proof.Machine

/-- I420_RGB24.AUTO: YUV420-planar to RGB24 (43 R207). -/
def execI420Rgb24Auto (std : Nat) (s : State) : Host.Outcome State Fault Refusal :=
  runJob .i420Rgb24 .auto std s

/-- RGB24_I420.AUTO: RGB24 to YUV420-planar (43 R208). -/
def execRgb24I420Auto (std : Nat) (s : State) : Host.Outcome State Fault Refusal :=
  runJob .rgb24I420 .auto std s

/-- NV12_RGB24.AUTO: NV12 to RGB24 (43 R209). -/
def execNv12Rgb24Auto (std : Nat) (s : State) : Host.Outcome State Fault Refusal :=
  runJob .nv12Rgb24 .auto std s

/-- NV21_RGB24.AUTO: NV21 to RGB24 (43 R210). -/
def execNv21Rgb24Auto (std : Nat) (s : State) : Host.Outcome State Fault Refusal :=
  runJob .nv21Rgb24 .auto std s

/-- RGBA32_I420.AUTO: RGBA32 to YUV420-planar, alpha dropped (43 R211). -/
def execRgba32I420Auto (std : Nat) (s : State) : Host.Outcome State Fault Refusal :=
  runJob .rgba32I420 .auto std s

end Sys2Proof.Machine
end

