-- ==== Sys2Proof/Machine/Scalar.lean ====
section
/-! DEFINITION. The scalar commands (spec 41 R152 to R156): never AlignmentViolation, PATH = 0 (R158, R160). -/

namespace Sys2Proof.Machine

/-- I420_RGB24.S: YUV420-planar to RGB24 (41 R152). -/
def execI420Rgb24S (std : Nat) (s : State) : Host.Outcome State Fault Refusal :=
  runJob .i420Rgb24 .scalar std s

/-- RGB24_I420.S: RGB24 to YUV420-planar (41 R155). -/
def execRgb24I420S (std : Nat) (s : State) : Host.Outcome State Fault Refusal :=
  runJob .rgb24I420 .scalar std s

/-- NV12_RGB24.S: NV12 to RGB24 (41 R153). -/
def execNv12Rgb24S (std : Nat) (s : State) : Host.Outcome State Fault Refusal :=
  runJob .nv12Rgb24 .scalar std s

/-- NV21_RGB24.S: NV21 to RGB24 (41 R154). -/
def execNv21Rgb24S (std : Nat) (s : State) : Host.Outcome State Fault Refusal :=
  runJob .nv21Rgb24 .scalar std s

/-- RGBA32_I420.S: RGBA32 to YUV420-planar, alpha dropped (41 R156). -/
def execRgba32I420S (std : Nat) (s : State) : Host.Outcome State Fault Refusal :=
  runJob .rgba32I420 .scalar std s

end Sys2Proof.Machine
end

