-- ==== Sys2Proof/Machine/Vector.lean ====
section
/-! DEFINITION. The vector commands (spec 42 R186 to R195): VA checks ALIGNED and reports PATH = 1, VU never checks
and reports PATH = 2; the kernel is VECTOR_KERNEL (42 section 3). -/

namespace Sys2Proof.Machine

/-- I420_RGB24.VA: YUV420-planar to RGB24 (42 R186). -/
def execI420Rgb24Va (std : Nat) (s : State) : Host.Outcome State Fault Refusal :=
  runJob .i420Rgb24 .vectorAligned std s

/-- RGB24_I420.VA: RGB24 to YUV420-planar (42 R192). -/
def execRgb24I420Va (std : Nat) (s : State) : Host.Outcome State Fault Refusal :=
  runJob .rgb24I420 .vectorAligned std s

/-- NV12_RGB24.VA: NV12 to RGB24 (42 R188). -/
def execNv12Rgb24Va (std : Nat) (s : State) : Host.Outcome State Fault Refusal :=
  runJob .nv12Rgb24 .vectorAligned std s

/-- NV21_RGB24.VA: NV21 to RGB24 (42 R190). -/
def execNv21Rgb24Va (std : Nat) (s : State) : Host.Outcome State Fault Refusal :=
  runJob .nv21Rgb24 .vectorAligned std s

/-- RGBA32_I420.VA: RGBA32 to YUV420-planar, alpha dropped (42 R194). -/
def execRgba32I420Va (std : Nat) (s : State) : Host.Outcome State Fault Refusal :=
  runJob .rgba32I420 .vectorAligned std s

/-- I420_RGB24.VU: YUV420-planar to RGB24 (42 R187). -/
def execI420Rgb24Vu (std : Nat) (s : State) : Host.Outcome State Fault Refusal :=
  runJob .i420Rgb24 .vectorUnaligned std s

/-- RGB24_I420.VU: RGB24 to YUV420-planar (42 R193). -/
def execRgb24I420Vu (std : Nat) (s : State) : Host.Outcome State Fault Refusal :=
  runJob .rgb24I420 .vectorUnaligned std s

/-- NV12_RGB24.VU: NV12 to RGB24 (42 R189). -/
def execNv12Rgb24Vu (std : Nat) (s : State) : Host.Outcome State Fault Refusal :=
  runJob .nv12Rgb24 .vectorUnaligned std s

/-- NV21_RGB24.VU: NV21 to RGB24 (42 R191). -/
def execNv21Rgb24Vu (std : Nat) (s : State) : Host.Outcome State Fault Refusal :=
  runJob .nv21Rgb24 .vectorUnaligned std s

/-- RGBA32_I420.VU: RGBA32 to YUV420-planar, alpha dropped (42 R195). -/
def execRgba32I420Vu (std : Nat) (s : State) : Host.Outcome State Fault Refusal :=
  runJob .rgba32I420 .vectorUnaligned std s

end Sys2Proof.Machine
end

