-- ==== Sys2Proof/Machine/Dispatch.lean ====
section
/-! DEFINITION. The dispatch of a command to its meaning, one arm per constructor of Instr (spec 30 R107). -/

namespace Sys2Proof.Machine
open Host

/-- The effect of a command: its job run to the end from where the sequencer stands (spec 43 R201). -/
def exec (i : Instr) (s : State) : Host.Outcome State Fault Refusal :=
  match i with
  | .i420Rgb24S std => Sys2Proof.Machine.execI420Rgb24S std s
  | .rgb24I420S std => Sys2Proof.Machine.execRgb24I420S std s
  | .nv12Rgb24S std => Sys2Proof.Machine.execNv12Rgb24S std s
  | .nv21Rgb24S std => Sys2Proof.Machine.execNv21Rgb24S std s
  | .rgba32I420S std => Sys2Proof.Machine.execRgba32I420S std s
  | .i420Rgb24Va std => Sys2Proof.Machine.execI420Rgb24Va std s
  | .rgb24I420Va std => Sys2Proof.Machine.execRgb24I420Va std s
  | .nv12Rgb24Va std => Sys2Proof.Machine.execNv12Rgb24Va std s
  | .nv21Rgb24Va std => Sys2Proof.Machine.execNv21Rgb24Va std s
  | .rgba32I420Va std => Sys2Proof.Machine.execRgba32I420Va std s
  | .i420Rgb24Vu std => Sys2Proof.Machine.execI420Rgb24Vu std s
  | .rgb24I420Vu std => Sys2Proof.Machine.execRgb24I420Vu std s
  | .nv12Rgb24Vu std => Sys2Proof.Machine.execNv12Rgb24Vu std s
  | .nv21Rgb24Vu std => Sys2Proof.Machine.execNv21Rgb24Vu std s
  | .rgba32I420Vu std => Sys2Proof.Machine.execRgba32I420Vu std s
  | .i420Rgb24Auto std => Sys2Proof.Machine.execI420Rgb24Auto std s
  | .rgb24I420Auto std => Sys2Proof.Machine.execRgb24I420Auto std s
  | .nv12Rgb24Auto std => Sys2Proof.Machine.execNv12Rgb24Auto std s
  | .nv21Rgb24Auto std => Sys2Proof.Machine.execNv21Rgb24Auto std s
  | .rgba32I420Auto std => Sys2Proof.Machine.execRgba32I420Auto std s

end Sys2Proof.Machine
end

