-- ==== Sys2Proof/Machine/Window.lean ====
section
/-! DEFINITION. The register window (spec 10 R21 to R30): the map of offsets, a word read, a word write. -/

namespace Sys2Proof.Machine

/-- What stands at a word offset of the window (10 R21). -/
inductive Reg where
  | ctrl
  | status
  | cmd
  | width
  | height
  | slot (id : SlotId) (f : SlotField)
  | coefM (i : Nat)
  | coefYoff
  | coefCoff
  | coefShift
  | coefBias
  | reserved
  deriving DecidableEq, Repr

/-- The slot at a slot index (10 R21: IN0, IN1, IN2, OUT0, OUT1, OUT2 from 0x20 on, 16 bytes each). -/
def slotAt : Nat → SlotId
  | 0 => .in0
  | 1 => .in1
  | 2 => .in2
  | 3 => .out0
  | 4 => .out1
  | _ => .out2

/-- The register at a word index inside a slot (10 R21). -/
def fieldAt : Nat → SlotField
  | 0 => .base
  | 1 => .stride
  | 2 => .pw
  | _ => .ph

/-- The register at an aligned offset up to 0xFC (10 R21). -/
def regOfOffset (offset : Nat) : Reg :=
  if offset = 0x00 then .ctrl
  else if offset = 0x04 then .status
  else if offset = 0x08 then .cmd
  else if offset = 0x0C then .width
  else if offset = 0x10 then .height
  else if offset < 0x20 then .reserved
  else if offset < 0x80 then .slot (slotAt ((offset - 0x20) / 16)) (fieldAt ((offset - 0x20) % 16 / 4))
  else if offset < 0xA4 then .coefM ((offset - 0x80) / 4)
  else if offset = 0xA4 then .coefYoff
  else if offset = 0xA8 then .coefCoff
  else if offset = 0xAC then .coefShift
  else if offset = 0xB0 then .coefBias
  else .reserved

/-- The register of a host access; `none` where the spec defines no access (10 R29, 93 U7). -/
def regAt (offset : Nat) : Option Reg :=
  if offset % 4 = 0 ∧ offset ≤ 0xFC then some (regOfOffset offset) else none

/-- What a word read returns (10 R21 to R30): CTRL and the reserved offsets read 0; a matrix entry reads as its
two's-complement word (10 R30). -/
def State.readReg (s : State) : Reg → Word
  | .ctrl => 0#32
  | .status => s.statusWord
  | .cmd => s.cmd
  | .width => s.width
  | .height => s.height
  | .slot id f => (s.slot id).get f
  | .coefM i => BitVec.ofInt 32 (s.coef.matrix.getD i 0)
  | .coefYoff => BitVec.ofNat 32 s.coef.yoff
  | .coefCoff => BitVec.ofNat 32 s.coef.coff
  | .coefShift => BitVec.ofNat 32 s.coef.shift
  | .coefBias => BitVec.ofNat 32 s.coef.bias
  | .reserved => 0#32

/-- What a word write does (10 R22, R29): START by CTRL bit 0 while not BUSY; a job register takes the value while not
BUSY; read-only and reserved registers, and every register while BUSY, ignore it. -/
def State.writeReg (s : State) (r : Reg) (v : Word) : State :=
  if s.busy then s
  else
    match r with
    | .ctrl => if v.getLsbD 0 then s.acceptStart else s
    | .status => s
    | .cmd => { s with cmd := v }
    | .width => { s with width := v }
    | .height => { s with height := v }
    | .slot id f => s.setSlot id ((s.slot id).set f v)
    | .coefM _ => s
    | .coefYoff => s
    | .coefCoff => s
    | .coefShift => s
    | .coefBias => s
    | .reserved => s

end Sys2Proof.Machine
end

