-- ==== Sys2Proof/Machine/HostPort.lean ====
section
/-! DEFINITION. What the host does to the machine, one operation per access (spec 70 R264): window accesses, data memory
accesses, and the reset event. -/

namespace Sys2Proof.Machine

/-- A word write to the window at a byte offset from REGBASE (10 R29); refused where the spec defines no access (U7). -/
def hostWriteReg (offset : Nat) (v : Word) (s : State) : Host.Outcome State Fault Refusal :=
  match regAt offset with
  | none => .refused .windowAccessUndefined
  | some r => .next (s.writeReg r v)

/-- A word read of the window; it changes nothing in the engine (10 R29). -/
def hostReadReg (offset : Nat) (s : State) : Host.Outcome State Fault Refusal :=
  match regAt offset with
  | none => .refused .windowAccessUndefined
  | some r => .next { s with readData := s.readReg r }

/-- A byte write to the data space by the host or another agent (10 R36). A byte of the planes of the job in progress is noted:
it leaves unspecified what depends on it (20 R77, 93 U3; log entry 4). -/
def hostWriteMem (a : Word) (v : Byte) (s : State) : Host.Outcome State Fault Refusal :=
  .next { s with
    mem := s.mem.write a.toNat v
    touched := if inActiveSets s a.toNat then noteAddress s.touched a.toNat else s.touched }

/-- What the host sees at an address (10 R36): the byte there; in the write set of a job in RUN, the old or the final byte
(20 R70, R77, 93 U3; log entry 5). -/
def hostReadMem (a : Word) (s : State) : Host.Outcome State Fault Refusal :=
  match s.phase, activeJob s with
  | .run, some (op, _, st) =>
    if s.inWriteSet op a.toNat then
      .next { s with readData := (midByte op st s a.toNat).setWidth 32, draws := s.draws + 1 }
    else .next { s with readData := (s.mem.read a.toNat).setWidth 32 }
  | _, _ => .next { s with readData := (s.mem.read a.toNat).setWidth 32 }

/-- The reset event (70 R260, R261): every register takes its reset value, a running job is abandoned, and data memory is
untouched but for the write set of a job in RUN. -/
def hostReset (s : State) : Host.Outcome State Fault Refusal :=
  .next { State.reset with
    mem := abandonedMemory s
    host := s.host
    readData := s.readData
    draws := if s.phase = .run then s.draws + 1 else s.draws }

end Sys2Proof.Machine
end

