-- ==== Sys2Proof/Machine/Step.lean ====
section
/-! DEFINITION. One step of the machine: the next thing the outside does, or, when the outside does nothing more, the engine
running its job to the end. -/

namespace Sys2Proof.Machine

/-- The engine runs its job to the end: it decodes CMD (spec 30 R110) and executes the command, or raises IllegalCommand
(60 R235). An idle engine does nothing (60 R245). -/
def engineRun (s : State) : Host.Outcome State Fault Refusal :=
  if s.phase = .idle then .next s
  else
    match s.fetch with
    | none => noCommand s
    | some i => exec i s

/-- One step. -/
def step (s : State) : Host.Outcome State Fault Refusal :=
  match s.host with
  | [] => engineRun s
  | .writeReg offset v :: rest => hostWriteReg offset v { s with host := rest }
  | .readReg offset :: rest => hostReadReg offset { s with host := rest }
  | .writeMem a v :: rest => hostWriteMem a v { s with host := rest }
  | .readMem a :: rest => hostReadMem a { s with host := rest }
  | .engineTick :: rest => engineTick { s with host := rest }
  | .engineRun :: rest => engineRun { s with host := rest }
  | .reset :: rest => hostReset { s with host := rest }

/-- `s` with the command whose bits are `w` (numbered as spec/opcode_table.json numbers them) in CMD and a START accepted
(43 R201 step 1), and nothing pending from the outside: the next step decodes CMD and runs that command. -/
def State.withFetchWord (s : State) (nbits w : Nat) : State :=
  { (State.acceptStart { s with cmd := BitVec.ofNat 32 (w % 2 ^ nbits) }) with host := [] }

end Sys2Proof.Machine
end

