-- ==== Sys2Proof/Machine/HostScript.lean ====
section
/-! DEFINITION. The host script of spec 30 R108 and R109 as lists of host events, and the contiguous layouts that the host
splits into plane descriptors (20 R83, R84). Conveniences of the host: no instruction and no step uses them (43 R213). -/

namespace Sys2Proof.Machine

/-- The window offset of a slot's first register (10 R21). -/
def slotOffset : SlotId → Nat
  | .in0 => 0x20
  | .in1 => 0x30
  | .in2 => 0x40
  | .out0 => 0x50
  | .out1 => 0x60
  | .out2 => 0x70

/-- `PLANE slot, base, stride, pw, ph` (30 R108): the four writes, in that order. -/
def scriptPlane (id : SlotId) (p : Slot) : List HostEvent :=
  [.writeReg (slotOffset id) p.base, .writeReg (slotOffset id + 4) p.stride, .writeReg (slotOffset id + 8) p.pw,
    .writeReg (slotOffset id + 12) p.ph]

/-- `SIZE w, h` (30 R108). -/
def scriptSize (w h : Nat) : List HostEvent := [.writeReg 0x0C (BitVec.ofNat 32 w), .writeReg 0x10 (BitVec.ofNat 32 h)]

/-- `mnemonic std` (30 R108): a write of the command's word to CMD. -/
def scriptCommand (i : Instr) : List HostEvent := [.writeReg 0x08 (encode i)]

/-- `START` (30 R108): `WR CTRL, 1`. -/
def scriptStart : List HostEvent := [.writeReg 0x00 1#32]

/-- `WAIT` (30 R108): the engine runs its job to the end, and the read of STATUS then finds BUSY = 0 (notes/assumptions/2.md). -/
def scriptWait : List HostEvent := [.engineRun, .readReg 0x04]

/-- `RUN` (30 R109): `START` then `WAIT`. -/
def scriptRun : List HostEvent := scriptStart ++ scriptWait

/-- A plane of `w` × `h` elements of `bpp` bytes with tight stride at an address (20 R83, R84). -/
def tightPlane (base bpp w h : Nat) : Slot :=
  ⟨BitVec.ofNat 32 base, BitVec.ofNat 32 (w * bpp), BitVec.ofNat 32 w, BitVec.ofNat 32 h⟩

/-- The size in bytes of a contiguous 4:2:0 image, planar or semi-planar (20 R83, R84). -/
def contiguousSize (w h : Nat) : Nat := w * h + 2 * chromaSize w * chromaSize h

/-- The Y plane of a contiguous 4:2:0 image (20 R83, R84). -/
def splitY (base w h : Nat) : Slot := tightPlane base 1 w h

/-- The U plane of a contiguous planar image (20 R83). -/
def splitU (base w h : Nat) : Slot := tightPlane (base + w * h) 1 (chromaSize w) (chromaSize h)

/-- The V plane of a contiguous planar image (20 R83). -/
def splitV (base w h : Nat) : Slot :=
  tightPlane (base + w * h + chromaSize w * chromaSize h) 1 (chromaSize w) (chromaSize h)

/-- The interleaved chroma plane of a contiguous NV12 or NV21 image (20 R84). -/
def splitPairs (base w h : Nat) : Slot := tightPlane (base + w * h) 2 (chromaSize w) (chromaSize h)

/-- `SPLIT420 base, w, h` on the input side (30 R109). -/
def scriptSplit420 (base w h : Nat) : List HostEvent :=
  scriptPlane .in0 (splitY base w h) ++ scriptPlane .in1 (splitU base w h) ++ scriptPlane .in2 (splitV base w h)

/-- `SPLIT420OUT base, w, h` (30 R109). -/
def scriptSplit420Out (base w h : Nat) : List HostEvent :=
  scriptPlane .out0 (splitY base w h) ++ scriptPlane .out1 (splitU base w h) ++ scriptPlane .out2 (splitV base w h)

/-- `SPLITNV base, w, h` (30 R109). -/
def scriptSplitNv (base w h : Nat) : List HostEvent :=
  scriptPlane .in0 (splitY base w h) ++ scriptPlane .in1 (splitPairs base w h)

/-- `TIGHT slot, base, role, w, h` (30 R109). -/
def scriptTight (id : SlotId) (base : Nat) (role : Role) (w h : Nat) : List HostEvent :=
  scriptPlane id (tightPlane base role.bpp w h)

end Sys2Proof.Machine
end

