-- ==== Sys2Proof/Safety.lean ====
section
/-! DEFINITION. The terms that claims use: when a job passes its checks (spec 43 R202 to R205), when its planes are disjoint
(20 R80), what a successful job leaves (70 R265), and the invariants of the machine. -/

namespace Sys2Proof.Machine

/-- The width a used plane must have: cw for a chroma plane, W for any other (10 R27, 43 R204). -/
def expectedCols (op : Op) (s : State) (id : SlotId) : Nat := if id ∈ Op.chromaSlots op then (s.w + 1) / 2 else s.w

/-- The height a used plane must have: ch for a chroma plane, H for any other (10 R27, 43 R204). -/
def expectedRows (op : Op) (s : State) (id : SlotId) : Nat := if id ∈ Op.chromaSlots op then (s.h + 1) / 2 else s.h

/-- InvalidGeometry's causes G1 to G6 (43 R203), in exact natural numbers. -/
def GeometryFault (op : Op) (s : State) : Prop :=
  (s.width.toNat = 0 ∨ s.height.toNat = 0) ∨
  (∃ id ∈ Op.used op, (s.slot id).pw.toNat = 0 ∨ (s.slot id).ph.toNat = 0) ∨
  (∃ q ∈ Op.chromaSlots op,
    ((s.slot q).pw.toNat, (s.slot q).ph.toNat) ≠
      (((s.slot (Op.lumaSlot op)).pw.toNat + 1) / 2, ((s.slot (Op.lumaSlot op)).ph.toNat + 1) / 2)) ∨
  (∃ id ∈ Op.used op, (s.slot id).stride.toNat < (s.slot id).pw.toNat * Op.bpp op id) ∨
  (s.in0.pw.toNat, s.in0.ph.toNat) ≠ (s.width.toNat, s.height.toNat) ∨
  (∃ id ∈ Op.used op,
    (2 : Nat) ^ 32 < (s.slot id).base.toNat + ((s.slot id).ph.toNat - 1) * (s.slot id).stride.toNat +
      (s.slot id).pw.toNat * Op.bpp op id)

/-- DimensionMismatch's cause (43 R204): the primary output plane's size differs from the primary input plane's. -/
def SizeFault (s : State) : Prop := (s.out0.pw.toNat, s.out0.ph.toNat) ≠ (s.in0.pw.toNat, s.in0.ph.toNat)

/-- ALIGNED(job) (43 R205). -/
def AlignedJob (op : Op) (s : State) : Prop :=
  ∀ id ∈ Op.used op, (s.slot id).base.toNat % 16 = 0 ∧ (s.slot id).stride.toNat % 16 = 0

/-- A job with a supported standard that passes the checks 3 to 5 (43 R202): every used plane has its expected size, room
for its rows, and lies below 2^32 (43 R203, R204), and the aligned variant's planes are aligned (43 R205). -/
def Accepted (op : Op) (variant : Variant) (s : State) : Prop :=
  0 < s.w ∧ 0 < s.h ∧
  (∀ id ∈ Op.used op,
    (s.slot id).pw.toNat = expectedCols op s id ∧ (s.slot id).ph.toNat = expectedRows op s id ∧
    (s.slot id).pw.toNat * Op.bpp op id ≤ (s.slot id).stride.toNat ∧
    (s.slot id).base.toNat + ((s.slot id).ph.toNat - 1) * (s.slot id).stride.toNat +
      (s.slot id).pw.toNat * Op.bpp op id ≤ 2 ^ 32) ∧
  (variant = .vectorAligned → AlignedJob op s)

/-- No output footprint shares a byte with another used footprint of the job (20 R80, 70 R262 item 6). -/
def DisjointPlanes (op : Op) (s : State) : Prop :=
  ∀ o ∈ Op.outputs op, ∀ t ∈ Op.used op, t ≠ o → ∀ a : Nat,
    ¬(Slot.covers (s.slot o) (Op.bpp op o) a = true ∧ Slot.covers (s.slot t) (Op.bpp op t) a = true)

/-- A job about to be checked that meets what the host owes it (70 R262): accepted, disjoint planes, no host write into its
planes since START (70 R263 H1), on a data memory in canonical form. -/
def CleanJob (op : Op) (variant : Variant) (s : State) : Prop :=
  s.phase = .check ∧ Accepted op variant s ∧ DisjointPlanes op s ∧ s.touched = [] ∧ s.mem.wf

/-- A forward job computes the byte at `a` from the byte at `b` (41 R150, R159): R of a pixel from its Y and V samples, B from
its Y and U samples, G from all three. `u` and `v` give the chroma addresses of a block. -/
def ForwardDepends (s : State) (u v : Nat → Nat → Nat) (a b : Nat) : Prop :=
  ∃ x < s.w, ∃ y < s.h,
    let r := s.out0.base.toNat + y * s.out0.stride.toNat + 3 * x
    let luma := s.in0.base.toNat + y * s.in0.stride.toNat + x
    (a = r ∧ (b = luma ∨ b = v (x / 2) (y / 2))) ∨
    (a = r + 1 ∧ (b = luma ∨ b = u (x / 2) (y / 2) ∨ b = v (x / 2) (y / 2))) ∨
    (a = r + 2 ∧ (b = luma ∨ b = u (x / 2) (y / 2)))

/-- An inverse job on pixels of `bpp` bytes computes the byte at `a` from the byte at `b` (41 R151, R159, R161): a Y sample from
the colour bytes of its pixel, a chroma sample from those of its block's top-left pixel. -/
def InverseDepends (s : State) (bpp a b : Nat) : Prop :=
  (∃ x < s.w, ∃ y < s.h, a = s.out0.base.toNat + y * s.out0.stride.toNat + x ∧
    ∃ k < 3, b = s.in0.base.toNat + y * s.in0.stride.toNat + bpp * x + k) ∨
  (∃ cx < (s.w + 1) / 2, ∃ cy < (s.h + 1) / 2,
    (a = s.out1.base.toNat + cy * s.out1.stride.toNat + cx ∨ a = s.out2.base.toNat + cy * s.out2.stride.toNat + cx) ∧
    ∃ k < 3, b = s.in0.base.toNat + 2 * cy * s.in0.stride.toNat + bpp * (2 * cx) + k)

/-- The output byte at `a` of a job of this conversion depends on the input byte at `b` (20 R77, 41 R159). -/
def OutputDependsOn (op : Op) (s : State) (a b : Nat) : Prop :=
  match op with
  | .i420Rgb24 =>
    ForwardDepends s (fun cx cy => s.in1.base.toNat + cy * s.in1.stride.toNat + cx)
      (fun cx cy => s.in2.base.toNat + cy * s.in2.stride.toNat + cx) a b
  | .nv12Rgb24 =>
    ForwardDepends s (fun cx cy => s.in1.base.toNat + cy * s.in1.stride.toNat + 2 * cx)
      (fun cx cy => s.in1.base.toNat + cy * s.in1.stride.toNat + 2 * cx + 1) a b
  | .nv21Rgb24 =>
    ForwardDepends s (fun cx cy => s.in1.base.toNat + cy * s.in1.stride.toNat + 2 * cx + 1)
      (fun cx cy => s.in1.base.toNat + cy * s.in1.stride.toNat + 2 * cx) a b
  | .rgb24I420 => InverseDepends s 3 a b
  | .rgba32I420 => InverseDepends s 4 a b

/-- The host's writes while BUSY reach the output byte at `a`: it was touched, or it depends on a touched byte (20 R77, 93 U3). -/
def Reached (op : Op) (s : State) (a : Nat) : Prop := a ∈ s.touched ∨ ∃ b ∈ s.touched, OutputDependsOn op s a b

/-- What a successful job leaves apart from its output bytes (70 R265, 43 R201, 41 R158): STATUS and PHASE, COEF, every other
register as it was, and every byte outside the write set as it was. (The cursor after the job: notes/assumptions/10.md;
`draws`, `touched` and `memAtRun` are the model's own: notes/assumptions/3.md to 5.md.) -/
def SuccessFrame (op : Op) (variant : Variant) (st : Standard) (s t : State) : Prop :=
  t.phase = .idle ∧ t.done = true ∧ t.err = false ∧ t.errCode = 0#3 ∧ t.path = (jobPath op variant s).code ∧
  t.coef = coefficients st op ∧
  t.cmd = s.cmd ∧ t.width = s.width ∧ t.height = s.height ∧ (∀ id, t.slot id = s.slot id) ∧
  t.host = s.host ∧ t.readData = s.readData ∧ t.draws = s.draws ∧ t.touched = [] ∧
  t.cursor = ⟨s.ch - 1, s.cw - 1⟩ ∧ t.memAtRun = [] ∧
  ∀ a : Nat, s.inWriteSet op a = false → t.mem.read a = s.mem.read a

/-- `t` is the state after an error of that code (60 R238): DONE and ERR set, BUSY clear, the code, PATH 0, nothing else
changed. (Nothing is said of `touched`, a field of the model's own: notes/assumptions/4.md.) -/
def FailedWith (code : BitVec 3) (s t : State) : Prop :=
  t = { s with
    phase := .idle, done := true, err := true, errCode := code, path := 0#2, touched := t.touched }

/-- The legal combinations of STATUS (10 R23). -/
def StatusLegal (s : State) : Prop :=
  (s.phase ≠ .idle → s.done = false ∧ s.err = false ∧ s.errCode = 0#3 ∧ s.path = 0#2) ∧
  (s.phase = .idle →
    (s.done = false ∧ s.err = false ∧ s.errCode = 0#3 ∧ s.path = 0#2) ∨
    (s.done = true ∧ s.err = false ∧ s.errCode = 0#3 ∧ s.path ≠ 3#2) ∨
    (s.done = true ∧ s.err = true ∧ s.errCode ≠ 0#3 ∧ s.errCode ≠ 6#3 ∧ s.errCode ≠ 7#3 ∧ s.path = 0#2))

/-- COEF holds its reset value or one of the six sets (10 R31, 40 R137). -/
def CoefLegal (s : State) : Prop := s.coef = Coef.zero ∨ ∃ st op, s.coef = coefficients st op

/-- The sequencer (10 R32, R33): in RUN the job passed its checks, COEF is its set and the cursor is at a block of the image;
outside RUN no data memory is noted; the bytes noted as touched lie in the planes of the job in progress. -/
def SequencerLegal (s : State) : Prop :=
  (s.phase = .run → ∃ op variant st, activeJob s = some (op, variant, st) ∧ s.coef = coefficients st op ∧
    s.cursor.row < s.ch ∧ s.cursor.col < s.cw) ∧
  (s.phase ≠ .run → s.memAtRun = []) ∧
  s.touched.Pairwise (· < ·) ∧ (∀ a ∈ s.touched, inActiveSets s a = true)

/-- The invariant of the machine. -/
def MachineInv (s : State) : Prop :=
  s.mem.wf ∧ s.memAtRun.wf ∧ StatusLegal s ∧ CoefLegal s ∧ SequencerLegal s

end Sys2Proof.Machine
end

