-- ==== Sys2Proof/Certificates/Slice0/Obligations.lean ====
section
/-! DEFINITION. The statements for the provers, from the numbered rules of spec/. Addresses, sizes and the pixel arithmetic are
written out here, not taken from the model, wherever a rule gives them. -/

open Sys2Proof Sys2Proof.Machine

/-! ### Encoding (30) -/

/-- 30 R101, R107, R110: the decoder reads back every well-formed command from the word the encoder writes. -/
def Obligations.DecodeOfEncodeIsTheCommand : Prop :=
  ∀ i : Instr, i.wellFormed = true → decode (encode i) = .ok i

/-- 30 R110: a legal CMD value is the word of exactly one command, and that command is well formed. -/
def Obligations.EncodeOfDecodeIsTheWord : Prop :=
  ∀ (w : Word) (i : Instr), decode w = .ok i → i.wellFormed = true ∧ encode i = w

/-- 30 R105: a CMD value is illegal if and only if (CMD & 0xFFFFFCC8) ≠ 0 or CMD[2:0] > 4; STD selects no command, so words
that agree on all bits but 9:8 decode to the same command but for STD (30 R101). -/
def Obligations.IllegalCommandWordsExactly : Prop :=
  (∀ w : Word, (∀ i, decode w ≠ .ok i) ↔ (w &&& 0xFFFFFCC8#32 ≠ 0#32 ∨ 4 < (w.extractLsb' 0 3).toNat)) ∧
  (∀ (w w' : Word) (i : Instr), w &&& 0xFFFFFCFF#32 = w' &&& 0xFFFFFCFF#32 → decode w = .ok i →
    ∃ i', decode w' = .ok i' ∧ i'.op = i.op ∧ i'.variant = i.variant)

/-- 30 R107: words of the table, one of each variant with each standard value, are the commands the table names. -/
def Obligations.TableWordsDecode : Prop :=
  decode 0x000#32 = .ok (.i420Rgb24S 0) ∧ decode 0x101#32 = .ok (.rgb24I420S 1) ∧
  decode 0x212#32 = .ok (.nv12Rgb24Va 2) ∧ decode 0x323#32 = .ok (.nv21Rgb24Vu 3) ∧
  decode 0x134#32 = .ok (.rgba32I420Auto 1) ∧ decode 0x233#32 = .ok (.nv21Rgb24Auto 2)

/-! ### The step (43 R201, 60 R245) -/

/-- 43 R201, 30 R110: when the host does nothing more, or waits, and a job is in progress, a step runs exactly the command that
CMD decodes to, at that state (with the host's pending list moved on, where the wait stood in it).
(The pending list is the model's own: notes/assumptions/2.md.) -/
def Obligations.StepRunsTheDecodedCommand : Prop :=
  ∀ (s : State) (i : Instr), s.phase ≠ .idle → decode s.cmd = .ok i →
    (s.host = [] → step s = exec i s) ∧
    (∀ rest, s.host = .engineRun :: rest → step s = exec i { s with host := rest })

/-- 60 R245: an idle engine keeps everything and does nothing, whether the host is silent, waits or lets a transition pass.
(The engine events are the model's own: notes/assumptions/2.md.) -/
def Obligations.IdleEngineDoesNothing : Prop :=
  ∀ s : State, s.phase = .idle →
    (s.host = [] → step s = .next s) ∧
    (∀ rest, s.host = .engineRun :: rest → step s = .next { s with host := rest }) ∧
    (∀ rest, s.host = .engineTick :: rest → step s = .next { s with host := rest })

/-! ### The register window (10) -/

/-- 10 R22: a write of CTRL with bit 0 = 1 while not BUSY starts a job (43 R201 step 1: STATUS is BUSY alone, PHASE is CHECK);
with bit 0 = 0 or while BUSY it does nothing, whatever bits 31:1 are; a read returns 0. (Nothing is said of `touched`, a field
of the model's own.) -/
def Obligations.CtrlStartsAJob : Prop :=
  ∀ (s : State) (v : Word) (rest : List HostEvent),
    (s.host = .writeReg 0x00 v :: rest → s.phase = .idle → v.getLsbD 0 = true →
      ∃ t, step s = .next t ∧ t = { s with
        host := rest, phase := .check, done := false, err := false, errCode := 0#3, path := 0#2, touched := t.touched }) ∧
    (s.host = .writeReg 0x00 v :: rest → s.phase ≠ .idle ∨ v.getLsbD 0 = false → step s = .next { s with host := rest }) ∧
    (s.host = .readReg 0x00 :: rest → step s = .next { s with host := rest, readData := 0#32 })

/-- 10 R24, R25, R26, R29: while not BUSY a write to CMD, WIDTH, HEIGHT or a slot register is read back as written; every other
register of the window, data memory and the rest of the engine keep their values. -/
def Obligations.JobRegisterWritesReadBack : Prop :=
  ∀ (s : State) (off : Nat) (v : Word) (rest : List HostEvent), s.phase = .idle →
    (off = 0x08 ∨ off = 0x0C ∨ off = 0x10 ∨ (0x20 ≤ off ∧ off < 0x80 ∧ off % 4 = 0)) →
    s.host = .writeReg off v :: .readReg off :: rest →
    ∃ t, step s = .next t ∧ t.host = .readReg off :: rest ∧
      step t = .next { t with host := rest, readData := v } ∧
      (∀ off', off' % 4 = 0 → off' ≤ 0xFC → off' ≠ off →
        t.readReg (regOfOffset off') = s.readReg (regOfOffset off')) ∧
      t.phase = .idle ∧ t.done = s.done ∧ t.err = s.err ∧ t.errCode = s.errCode ∧ t.path = s.path ∧ t.coef = s.coef ∧
      t.cursor = s.cursor ∧ t.mem = s.mem ∧ t.memAtRun = s.memAtRun ∧ t.touched = s.touched ∧ t.draws = s.draws ∧
      t.readData = s.readData

/-- 10 R29, 70 R263 H4, H5: a write to any register while BUSY, and a write to STATUS, COEF or a reserved offset at any time, is
ignored. -/
def Obligations.OtherWritesAreIgnored : Prop :=
  ∀ (s : State) (off : Nat) (v : Word) (rest : List HostEvent), off % 4 = 0 → off ≤ 0xFC →
    (s.phase ≠ .idle ∨ off = 0x04 ∨ (0x14 ≤ off ∧ off < 0x20) ∨ 0x80 ≤ off) →
    s.host = .writeReg off v :: rest → step s = .next { s with host := rest }

/-- 10 R21, R29, R30: what a read of each offset returns, in any phase; it changes nothing else. -/
def Obligations.WindowReadsAnswer : Prop :=
  ∀ (s : State) (off : Nat) (rest : List HostEvent), s.host = .readReg off :: rest →
    (∀ r ∈ [(0x04, s.statusWord), (0x08, s.cmd), (0x0C, s.width), (0x10, s.height),
        (0x20, s.in0.base), (0x24, s.in0.stride), (0x28, s.in0.pw), (0x2C, s.in0.ph),
        (0x30, s.in1.base), (0x34, s.in1.stride), (0x38, s.in1.pw), (0x3C, s.in1.ph),
        (0x40, s.in2.base), (0x44, s.in2.stride), (0x48, s.in2.pw), (0x4C, s.in2.ph),
        (0x50, s.out0.base), (0x54, s.out0.stride), (0x58, s.out0.pw), (0x5C, s.out0.ph),
        (0x60, s.out1.base), (0x64, s.out1.stride), (0x68, s.out1.pw), (0x6C, s.out1.ph),
        (0x70, s.out2.base), (0x74, s.out2.stride), (0x78, s.out2.pw), (0x7C, s.out2.ph),
        (0x80, BitVec.ofInt 32 s.coef.m0), (0x84, BitVec.ofInt 32 s.coef.m1), (0x88, BitVec.ofInt 32 s.coef.m2),
        (0x8C, BitVec.ofInt 32 s.coef.m3), (0x90, BitVec.ofInt 32 s.coef.m4), (0x94, BitVec.ofInt 32 s.coef.m5),
        (0x98, BitVec.ofInt 32 s.coef.m6), (0x9C, BitVec.ofInt 32 s.coef.m7), (0xA0, BitVec.ofInt 32 s.coef.m8),
        (0xA4, BitVec.ofNat 32 s.coef.yoff), (0xA8, BitVec.ofNat 32 s.coef.coff),
        (0xAC, BitVec.ofNat 32 s.coef.shift), (0xB0, BitVec.ofNat 32 s.coef.bias)],
      off = r.1 → step s = .next { s with host := rest, readData := r.2 }) ∧
    (off % 4 = 0 → (0x14 ≤ off ∧ off < 0x20) ∨ (0xB4 ≤ off ∧ off ≤ 0xFC) →
      step s = .next { s with host := rest, readData := 0#32 })

/-- 10 R23: the fields of STATUS and their places; the reserved bits read 0. -/
def Obligations.StatusWordFields : Prop :=
  ∀ s : State,
    s.statusWord.getLsbD 0 = decide (s.phase ≠ .idle) ∧ s.statusWord.getLsbD 1 = s.done ∧
    s.statusWord.getLsbD 2 = s.err ∧ s.statusWord.getLsbD 3 = false ∧ s.statusWord.extractLsb' 4 3 = s.errCode ∧
    s.statusWord.getLsbD 7 = false ∧ s.statusWord.extractLsb' 8 2 = s.path ∧ s.statusWord.extractLsb' 10 22 = 0#22

/-- 10 R29, 93 U7: an access that is no aligned word of the window has no meaning, and is refused by name. The refusal is the
model's choice (notes/assumptions/8.md). -/
def Obligations.UndefinedWindowAccessIsRefused : Prop :=
  ∀ (s : State) (off : Nat) (v : Word) (rest : List HostEvent), off % 4 ≠ 0 ∨ 0xFC < off →
    (s.host = .writeReg off v :: rest → step s = .refused .windowAccessUndefined) ∧
    (s.host = .readReg off :: rest → step s = .refused .windowAccessUndefined)

/-! ### Errors (60, 43 R202 to R205) -/

/-- 60 R231: STD outside the supported set raises UnsupportedStandard, whatever OP and VAR are and whatever the other
registers hold. -/
def Obligations.UnsupportedStandardRaised : Prop :=
  ∀ (i : Instr) (s : State), 3 ≤ i.std → s.phase = .check → ∃ t, exec i s = .next t ∧ FailedWith 1#3 s t

/-- 43 R203, 60 R232, R236: with a supported standard, InvalidGeometry is raised exactly when one of G1 to G6 holds. -/
def Obligations.InvalidGeometryRaisedExactly : Prop :=
  ∀ (i : Instr) (s : State), i.std < 3 → s.phase = .check →
    (GeometryFault i.op s → ∃ t, exec i s = .next t ∧ FailedWith 2#3 s t) ∧
    (¬GeometryFault i.op s → ∀ t, exec i s = .next t → t.errCode ≠ 2#3)

/-- 60 R233, R236: past the earlier checks, DimensionMismatch is raised exactly when the primary output plane's declared size
differs from the primary input plane's. -/
def Obligations.DimensionMismatchRaisedExactly : Prop :=
  ∀ (i : Instr) (s : State), i.std < 3 → s.phase = .check → ¬GeometryFault i.op s →
    ((s.out0.pw.toNat, s.out0.ph.toNat) ≠ (s.in0.pw.toNat, s.in0.ph.toNat) → ∃ t, exec i s = .next t ∧ FailedWith 3#3 s t) ∧
    ((s.out0.pw.toNat, s.out0.ph.toNat) = (s.in0.pw.toNat, s.in0.ph.toNat) →
      ∀ t, exec i s = .next t → t.errCode ≠ 3#3)

/-- 60 R234, R236, 42 R183: past the earlier checks, a VA command with a used base or stride that is no multiple of 16 raises
AlignmentViolation. -/
def Obligations.AlignmentViolationRaised : Prop :=
  ∀ (i : Instr) (s : State), i.std < 3 → s.phase = .check → ¬GeometryFault i.op s → ¬SizeFault s →
    i.variant = .vectorAligned →
    (∃ id ∈ Op.used i.op, (s.slot id).base.toNat % 16 ≠ 0 ∨ (s.slot id).stride.toNat % 16 ≠ 0) →
    ∃ t, exec i s = .next t ∧ FailedWith 4#3 s t

/-- 41 R160, 42 R184, 43 R205: only the VA commands, and only on a misaligned plane, raise AlignmentViolation. -/
def Obligations.OnlyMisalignedVaRaisesAlignmentViolation : Prop :=
  ∀ (i : Instr) (s t : State), s.phase = .check → exec i s = .next t → t.errCode = 4#3 →
    i.variant = .vectorAligned ∧
      ∃ id ∈ Op.used i.op, (s.slot id).base.toNat % 16 ≠ 0 ∨ (s.slot id).stride.toNat % 16 ≠ 0

/-- 60 R235: a START with a CMD that has a reserved bit set or OP > 4 raises IllegalCommand, whether the host is silent, waits
or lets one transition pass (the events are the model's own: notes/assumptions/2.md). -/
def Obligations.IllegalCommandRaised : Prop :=
  ∀ (s : State) (rest : List HostEvent),
    (s.host = [] ∧ rest = []) ∨ s.host = .engineRun :: rest ∨ s.host = .engineTick :: rest → s.phase = .check →
    (s.cmd &&& 0xFFFFFCC8#32 ≠ 0#32 ∨ 4 < (s.cmd.extractLsb' 0 3).toNat) →
    ∃ t, step s = .next t ∧ FailedWith 5#3 { s with host := rest } t

/-- 60 R237, R238, 20 R82: a command that fails leaves every register but STATUS, COEF and all of memory as they were. -/
def Obligations.FailedJobChangesOnlyStatus : Prop :=
  ∀ (i : Instr) (s t : State), s.phase = .check → exec i s = .next t → t.err = true →
    t.errCode ≠ 0#3 ∧ FailedWith t.errCode s t

/-! ### The commands (41, 42, 43) -/

/-- 41 R152, 42 R186, R187, 43 R207: an I420_RGB24 command in any variant completes, and every pixel of the RGB24 plane is
FWD_PX of its Y sample and its block's U and V samples.
(The cursor it leaves is the model's reading: notes/assumptions/10.md.) -/
def Obligations.I420ToRgb24Converts : Prop :=
  ∀ (std : Nat) (st : Standard) (i : Instr) (s : State),
    i ∈ [Instr.i420Rgb24S std, .i420Rgb24Va std, .i420Rgb24Vu std, .i420Rgb24Auto std] →
    Standard.ofField std = some st → CleanJob .i420Rgb24 i.variant s →
    ∃ t, exec i s = .next t ∧ SuccessFrame .i420Rgb24 i.variant st s t ∧
      ∀ x y : Nat, x < s.w → y < s.h →
        let px := fwdPx st.forwardSet
          (s.mem.read (s.in0.base.toNat + y * s.in0.stride.toNat + x))
          (s.mem.read (s.in1.base.toNat + y / 2 * s.in1.stride.toNat + x / 2))
          (s.mem.read (s.in2.base.toNat + y / 2 * s.in2.stride.toNat + x / 2))
        let a := s.out0.base.toNat + y * s.out0.stride.toNat + 3 * x
        t.mem.read a = px.1 ∧ t.mem.read (a + 1) = px.2.1 ∧ t.mem.read (a + 2) = px.2.2

/-- 41 R153, 42 R188, R189, 43 R209: the NV12_RGB24 commands; byte 0 of a chroma pair is U, byte 1 is V.
(The cursor it leaves is the model's reading: notes/assumptions/10.md.) -/
def Obligations.Nv12ToRgb24Converts : Prop :=
  ∀ (std : Nat) (st : Standard) (i : Instr) (s : State),
    i ∈ [Instr.nv12Rgb24S std, .nv12Rgb24Va std, .nv12Rgb24Vu std, .nv12Rgb24Auto std] →
    Standard.ofField std = some st → CleanJob .nv12Rgb24 i.variant s →
    ∃ t, exec i s = .next t ∧ SuccessFrame .nv12Rgb24 i.variant st s t ∧
      ∀ x y : Nat, x < s.w → y < s.h →
        let pair := s.in1.base.toNat + y / 2 * s.in1.stride.toNat + 2 * (x / 2)
        let px := fwdPx st.forwardSet
          (s.mem.read (s.in0.base.toNat + y * s.in0.stride.toNat + x)) (s.mem.read pair) (s.mem.read (pair + 1))
        let a := s.out0.base.toNat + y * s.out0.stride.toNat + 3 * x
        t.mem.read a = px.1 ∧ t.mem.read (a + 1) = px.2.1 ∧ t.mem.read (a + 2) = px.2.2

/-- 41 R154, 42 R190, R191, 43 R210: the NV21_RGB24 commands; byte 0 of a chroma pair is V, byte 1 is U.
(The cursor it leaves is the model's reading: notes/assumptions/10.md.) -/
def Obligations.Nv21ToRgb24Converts : Prop :=
  ∀ (std : Nat) (st : Standard) (i : Instr) (s : State),
    i ∈ [Instr.nv21Rgb24S std, .nv21Rgb24Va std, .nv21Rgb24Vu std, .nv21Rgb24Auto std] →
    Standard.ofField std = some st → CleanJob .nv21Rgb24 i.variant s →
    ∃ t, exec i s = .next t ∧ SuccessFrame .nv21Rgb24 i.variant st s t ∧
      ∀ x y : Nat, x < s.w → y < s.h →
        let pair := s.in1.base.toNat + y / 2 * s.in1.stride.toNat + 2 * (x / 2)
        let px := fwdPx st.forwardSet
          (s.mem.read (s.in0.base.toNat + y * s.in0.stride.toNat + x)) (s.mem.read (pair + 1)) (s.mem.read pair)
        let a := s.out0.base.toNat + y * s.out0.stride.toNat + 3 * x
        t.mem.read a = px.1 ∧ t.mem.read (a + 1) = px.2.1 ∧ t.mem.read (a + 2) = px.2.2

/-- 41 R155, R161, 42 R192, R193, 43 R208: an RGB24_I420 command in any variant completes; every Y sample is INV_Y of its
pixel, and every U and V sample is INV_U and INV_V of its block's top-left pixel.
(The cursor it leaves is the model's reading: notes/assumptions/10.md.) -/
def Obligations.Rgb24ToI420Converts : Prop :=
  ∀ (std : Nat) (st : Standard) (i : Instr) (s : State),
    i ∈ [Instr.rgb24I420S std, .rgb24I420Va std, .rgb24I420Vu std, .rgb24I420Auto std] →
    Standard.ofField std = some st → CleanJob .rgb24I420 i.variant s →
    ∃ t, exec i s = .next t ∧ SuccessFrame .rgb24I420 i.variant st s t ∧
      (∀ x y : Nat, x < s.w → y < s.h →
        let a := s.in0.base.toNat + y * s.in0.stride.toNat + 3 * x
        t.mem.read (s.out0.base.toNat + y * s.out0.stride.toNat + x) =
          invY st.inverseSet (s.mem.read a) (s.mem.read (a + 1)) (s.mem.read (a + 2))) ∧
      (∀ cx cy : Nat, cx < (s.w + 1) / 2 → cy < (s.h + 1) / 2 →
        let a := s.in0.base.toNat + 2 * cy * s.in0.stride.toNat + 3 * (2 * cx)
        t.mem.read (s.out1.base.toNat + cy * s.out1.stride.toNat + cx) =
          invU st.inverseSet (s.mem.read a) (s.mem.read (a + 1)) (s.mem.read (a + 2)) ∧
        t.mem.read (s.out2.base.toNat + cy * s.out2.stride.toNat + cx) =
          invV st.inverseSet (s.mem.read a) (s.mem.read (a + 1)) (s.mem.read (a + 2)))

/-- 41 R156, R161, 42 R194, R195, 43 R211: the RGBA32_I420 commands: as RGB24_I420 on four bytes a pixel, the fourth (alpha)
entering no result.
(The cursor it leaves is the model's reading: notes/assumptions/10.md.) -/
def Obligations.Rgba32ToI420Converts : Prop :=
  ∀ (std : Nat) (st : Standard) (i : Instr) (s : State),
    i ∈ [Instr.rgba32I420S std, .rgba32I420Va std, .rgba32I420Vu std, .rgba32I420Auto std] →
    Standard.ofField std = some st → CleanJob .rgba32I420 i.variant s →
    ∃ t, exec i s = .next t ∧ SuccessFrame .rgba32I420 i.variant st s t ∧
      (∀ x y : Nat, x < s.w → y < s.h →
        let a := s.in0.base.toNat + y * s.in0.stride.toNat + 4 * x
        t.mem.read (s.out0.base.toNat + y * s.out0.stride.toNat + x) =
          invY st.inverseSet (s.mem.read a) (s.mem.read (a + 1)) (s.mem.read (a + 2))) ∧
      (∀ cx cy : Nat, cx < (s.w + 1) / 2 → cy < (s.h + 1) / 2 →
        let a := s.in0.base.toNat + 2 * cy * s.in0.stride.toNat + 4 * (2 * cx)
        t.mem.read (s.out1.base.toNat + cy * s.out1.stride.toNat + cx) =
          invU st.inverseSet (s.mem.read a) (s.mem.read (a + 1)) (s.mem.read (a + 2)) ∧
        t.mem.read (s.out2.base.toNat + cy * s.out2.stride.toNat + cx) =
          invV st.inverseSet (s.mem.read a) (s.mem.read (a + 1)) (s.mem.read (a + 2)))

/-- 41 R156: no output byte of an RGBA32_I420 command depends on any alpha byte. -/
def Obligations.AlphaBytesDoNotMatter : Prop :=
  ∀ (i : Instr) (s t t' : State) (m : Memory), i.op = .rgba32I420 → CleanJob .rgba32I420 i.variant s → m.wf →
    (∀ a : Nat, (∀ x y : Nat, x < s.w → y < s.h → a ≠ s.in0.base.toNat + y * s.in0.stride.toNat + 4 * x + 3) →
      m.read a = s.mem.read a) →
    exec i s = .next t → exec i { s with mem := m } = .next t' →
    ∀ a : Nat, s.inWriteSet .rgba32I420 a = true → t'.mem.read a = t.mem.read a

/-- 41 R161: a chroma sample of an inverse command depends on its block's top-left pixel alone. -/
def Obligations.ChromaIsOfTheTopLeftPixel : Prop :=
  ∀ (i : Instr) (s t t' : State) (m : Memory) (cx cy : Nat), (i.op = .rgb24I420 ∨ i.op = .rgba32I420) → i.std < 3 →
    CleanJob i.op i.variant s → m.wf → cx < (s.w + 1) / 2 → cy < (s.h + 1) / 2 →
    (∀ k < 3, m.read (s.in0.base.toNat + 2 * cy * s.in0.stride.toNat + 2 * cx * Op.bpp i.op .in0 + k) =
      s.mem.read (s.in0.base.toNat + 2 * cy * s.in0.stride.toNat + 2 * cx * Op.bpp i.op .in0 + k)) →
    exec i s = .next t → exec i { s with mem := m } = .next t' →
    t'.mem.read (s.out1.base.toNat + cy * s.out1.stride.toNat + cx) =
        t.mem.read (s.out1.base.toNat + cy * s.out1.stride.toNat + cx) ∧
      t'.mem.read (s.out2.base.toNat + cy * s.out2.stride.toNat + cx) =
        t.mem.read (s.out2.base.toNat + cy * s.out2.stride.toNat + cx)

/-- 42 R182, R196, R198 (95 V18): on a job that passes its checks in two variants, the two commands leave the same machine but
for STATUS.PATH: in particular the same bytes. -/
def Obligations.VariantsLeaveTheSameBytes : Prop :=
  ∀ (op : Op) (v v' : Variant) (std : Nat) (s : State), std < 3 → CleanJob op v s → CleanJob op v' s →
    ∃ t t', exec (Instr.make op v std) s = .next t ∧ exec (Instr.make op v' std) s = .next t' ∧
      t.mem = t'.mem ∧ t = { t' with path := t.path }

/-- 43 R212, R206, R201: STATUS.PATH after a successful job is VAR for the S, VA and VU commands and AUTO_PATH(job) for the
AUTO ones; after a failed job it is 0. -/
def Obligations.PathReported : Prop :=
  ∀ (i : Instr) (s : State), s.phase = .check →
    (i.std < 3 → Accepted i.op i.variant s →
      ∃ t, exec i s = .next t ∧ t.err = false ∧
        (i.variant = .scalar → t.path = 0#2) ∧ (i.variant = .vectorAligned → t.path = 1#2) ∧
        (i.variant = .vectorUnaligned → t.path = 2#2) ∧
        (i.variant = .auto → s.w < 16 ∨ s.h < 2 → t.path = 0#2) ∧
        (i.variant = .auto → 16 ≤ s.w → 2 ≤ s.h → AlignedJob i.op s → t.path = 1#2) ∧
        (i.variant = .auto → 16 ≤ s.w → 2 ≤ s.h → ¬AlignedJob i.op s → t.path = 2#2)) ∧
    (∀ t, exec i s = .next t → t.err = true → t.path = 0#2)

/-- 10 R30, R31, 40 R133, R134: after a successful job COEF reads as the quantized matrix of the job's standard and direction,
its luma offset, 128, 10 and 512; a failed job leaves it as it was. -/
def Obligations.CoefHoldsTheQuantizedMatrix : Prop :=
  ∀ (i : Instr) (st : Standard) (s : State), Standard.ofField i.std = some st → s.phase = .check →
    (Accepted i.op i.variant s →
      ∃ t, exec i s = .next t ∧
        (∀ k < 9, t.readReg (regOfOffset (0x80 + 4 * k)) =
          BitVec.ofInt 32 (quantize ((if Op.forward i.op then st.forwardMatrix else st.inverseMatrix).getD k 0))) ∧
        t.readReg (regOfOffset 0xA4) = (if st = .jpegFullRange then 0#32 else 16#32) ∧
        t.readReg (regOfOffset 0xA8) = 128#32 ∧ t.readReg (regOfOffset 0xAC) = 10#32 ∧
        t.readReg (regOfOffset 0xB0) = 512#32) ∧
    (¬Accepted i.op i.variant s → ∃ t, exec i s = .next t ∧ t.coef = s.coef)

/-- 41 R159: a job run again with the same registers on the memory it left gives the same memory. -/
def Obligations.RerunLeavesTheSameMemory : Prop :=
  ∀ (i : Instr) (s t : State), CleanJob i.op i.variant s → i.std < 3 → exec i s = .next t →
    ∃ t', exec i { t with phase := .check } = .next t' ∧ t'.mem = t.mem

/-- 93 U2, U3, 20 R80, R77: a job whose output overlaps another of its planes, or whose planes the host wrote while BUSY, ends
as a success, and every byte outside its write set is as it was. On overlap the write set holds any bytes; without it, the
bytes the host's writes reach hold any bytes and the others the values of the job left alone. The free values are the model's
reading of UNPREDICTABLE and unspecified (notes/assumptions/6.md and 4.md); the statement holds for every value of them. -/
def Obligations.UnpredictableJobKeepsToItsWriteSet : Prop :=
  ∀ (i : Instr) (s : State), i.std < 3 → s.phase = .check → Accepted i.op i.variant s → s.mem.wf →
    (¬DisjointPlanes i.op s ∨ s.touched ≠ []) →
    ∃ t t0, exec i s = .next t ∧ exec i { s with touched := [] } = .next t0 ∧
      t.phase = .idle ∧ t.done = true ∧ t.err = false ∧ t.errCode = 0#3 ∧
      t.path = (jobPath i.op i.variant s).code ∧ t.coef = t0.coef ∧ t.cmd = s.cmd ∧ t.width = s.width ∧ t.height = s.height ∧
      (∀ id, t.slot id = s.slot id) ∧ t.host = s.host ∧ t.readData = s.readData ∧ t.draws = s.draws + 1 ∧
      (∀ a, s.inWriteSet i.op a = false → t.mem.read a = s.mem.read a) ∧
      (¬DisjointPlanes i.op s → ∀ a, s.inWriteSet i.op a = true → t.mem.read a = Config.freeByte s.draws a) ∧
      (DisjointPlanes i.op s → ∀ a, s.inWriteSet i.op a = true →
        (Reached i.op s a → t.mem.read a = Config.freeByte s.draws a) ∧
        (¬Reached i.op s a → t.mem.read a = t0.mem.read a))

/-- 10 R28: an unused slot is neither checked nor read and keeps its value: a command answers the same on any contents. -/
def Obligations.UnusedSlotsAreIgnored : Prop :=
  ∀ (i : Instr) (s : State) (id : SlotId) (p : Slot), Op.role i.op id = none → s.phase = .check →
    ∃ t, exec i s = .next t ∧ t.slot id = s.slot id ∧ exec i (s.setSlot id p) = .next (t.setSlot id p)

/-! ### The sequencer (10 R33, R34) -/

/-- 10 R34, R33: a transition in RUN moves the cursor from (by, bx) to (by, bx+1) if bx+1 < cw, else to (by+1, 0) if by+1 < ch,
else the job ends. While RUN goes on nothing but the cursor and data memory changes: so the memory from before the job stays
noted. (The transition event and the noted memory are the model's own: notes/assumptions/2.md and 5.md.) -/
def Obligations.CursorAdvancesRowByRow : Prop :=
  ∀ (s : State) (rest : List HostEvent), SequencerLegal s → s.phase = .run → s.host = .engineTick :: rest →
    ∃ t, step s = .next t ∧
      (s.cursor.col + 1 < s.cw →
        t = { s with host := rest, mem := t.mem, cursor := ⟨s.cursor.row, s.cursor.col + 1⟩ }) ∧
      (¬s.cursor.col + 1 < s.cw → s.cursor.row + 1 < s.ch →
        t = { s with host := rest, mem := t.mem, cursor := ⟨s.cursor.row + 1, 0⟩ }) ∧
      (¬s.cursor.col + 1 < s.cw → ¬s.cursor.row + 1 < s.ch → t.phase = .idle ∧ t.done = true ∧ t.err = false) ∧
      t.coef = s.coef ∧ t.cmd = s.cmd ∧ t.width = s.width ∧ t.height = s.height ∧ (∀ id, t.slot id = s.slot id) ∧
      (∀ op variant st, activeJob s = some (op, variant, st) →
        ∀ a, s.inWriteSet op a = false → t.mem.read a = s.mem.read a)

/-- 10 R33: the transition out of CHECK: to RUN with the cursor at (0, 0) and COEF loaded when CMD is legal and every check
passes, with the memory before the job noted (70 R261, 93 U3, U4), else to IDLE with an error; nothing else changes, and
memory is untouched either way (20 R82, R60). (The transition event, the noted memory and `touched` are the model's own:
notes/assumptions/2.md, 5.md and 4.md.) -/
def Obligations.CheckEntersRunOrFails : Prop :=
  ∀ (s : State) (rest : List HostEvent), s.phase = .check → s.host = .engineTick :: rest →
    ∃ t, step s = .next t ∧
      (∀ (i : Instr) (st : Standard), decode s.cmd = .ok i → Standard.ofField i.std = some st →
        Accepted i.op i.variant s →
        t = { s with host := rest, phase := .run, cursor := ⟨0, 0⟩, coef := coefficients st i.op, memAtRun := s.mem }) ∧
      ((¬∃ i, decode s.cmd = .ok i ∧ i.std < 3 ∧ Accepted i.op i.variant s) →
        t.errCode ≠ 0#3 ∧ FailedWith t.errCode { s with host := rest } t)

/-- 43 R201, 10 R34, 20 R75: block by block or as one transition, in whatever order the kernel of the path takes the blocks, a
job leaves the same machine.
(Transitions and the fixed orders are the model's choice: notes/assumptions/2.md and 7.md.) -/
def Obligations.BlockwiseRunIsTheAtomicRun : Prop :=
  ∀ (s t : State) (i : Instr), s.phase ≠ .idle → s.mem.wf → SequencerLegal s → decode s.cmd = .ok i →
    engineTick s = .next t →
    (t.phase = .idle → exec i s = .next t) ∧ (t.phase ≠ .idle → exec i t = exec i s)

/-- 70 R266: every accepted START is followed by BUSY = 0 with DONE = 1, for every register content. -/
def Obligations.EveryStartEnds : Prop :=
  ∀ s : State, s.host = [] → SequencerLegal s → s.phase ≠ .idle →
    ∃ t, step s = .next t ∧ t.phase = .idle ∧ t.done = true

/-! ### Invariants -/

/-- The data memory stays in canonical form (20 R60), STATUS stays one of its legal combinations (10 R23), COEF is zero or one
of the six sets (10 R31), and RUN is entered only by a job that passed its checks (10 R33): every step keeps it. -/
def Obligations.EveryStepKeepsTheInvariant : Prop :=
  ∀ s t : State, MachineInv s → step s = .next t → MachineInv t

/-- 10 R38: reset meets the invariant. -/
def Obligations.ResetMeetsTheInvariant : Prop := MachineInv State.reset

/-- 60 R247, R237: nothing can fail once PHASE = RUN: from a state that meets the sequencer's invariant no step faults.
(The fault is the model's own: notes/assumptions/13.md.) -/
def Obligations.NoStepFaults : Prop :=
  ∀ (s : State) (r : Fault), SequencerLegal s → step s ≠ .fault r

/-! ### Reset and the host (70) -/

/-- 70 R260, 10 R38: after the reset event every register of the window reads 0 and PHASE is IDLE; outside RUN data memory is
untouched. -/
def Obligations.ResetEventZeroesTheRegisters : Prop :=
  ∀ (s : State) (rest : List HostEvent), s.host = .reset :: rest →
    ∃ t, step s = .next t ∧ t.phase = .idle ∧ t.host = rest ∧
      (∀ off, off % 4 = 0 → off ≤ 0xFC → t.readReg (regOfOffset off) = 0#32) ∧
      t.coef = Coef.zero ∧ t.cursor = ⟨0, 0⟩ ∧ (s.phase ≠ .run → t.mem = s.mem)

/-- 70 R261, 93 U4: a reset during RUN abandons the job: each byte of its write set holds the value from before the job or the
job's final value for it, and every other byte is as it was.
(Which of the two is a free choice: notes/assumptions/5.md.) -/
def Obligations.ResetAbandonsTheRunningJob : Prop :=
  ∀ (s f : State) (i : Instr) (rest : List HostEvent), MachineInv s → s.phase = .run → decode s.cmd = .ok i →
    exec i s = .next f → s.host = .reset :: rest →
    ∃ t, step s = .next t ∧
      (∀ a, s.inWriteSet i.op a = false → t.mem.read a = s.mem.read a) ∧
      (∀ a, s.inWriteSet i.op a = true → t.mem.read a = s.memAtRun.read a ∨ t.mem.read a = f.mem.read a)

/-- 20 R77, R70, 93 U3: a host read of the write set of a job in RUN returns the byte from before the job or the final one; a
read of any other byte returns that byte; the engine and the memory are unchanged. (Which of the two is a free choice, which
only the model's count of draws notes: notes/assumptions/5.md and 3.md.) -/
def Obligations.HostReadsOldOrFinalByte : Prop :=
  ∀ (s f : State) (i : Instr) (a : Word) (rest : List HostEvent), MachineInv s → s.phase = .run →
    decode s.cmd = .ok i → exec i s = .next f → s.host = .readMem a :: rest →
    ∃ t, step s = .next t ∧ t = { s with host := rest, readData := t.readData, draws := t.draws } ∧
      (s.inWriteSet i.op a.toNat = false → t.readData = (s.mem.read a.toNat).setWidth 32) ∧
      (s.inWriteSet i.op a.toNat = true →
        t.readData = (s.memAtRun.read a.toNat).setWidth 32 ∨ t.readData = (f.mem.read a.toNat).setWidth 32)

/-- 10 R36, 20 R73: plain memory for the host while no job runs: a byte written is the byte read, every other byte keeps its
value, and no register changes.
(The data space is a total array, the model's choice: notes/assumptions/9.md.) -/
def Obligations.HostMemoryIsPlain : Prop :=
  ∀ (s : State) (a : Word) (v : Byte) (rest : List HostEvent), s.phase = .idle → s.mem.wf →
    s.host = .writeMem a v :: .readMem a :: rest →
    ∃ t, step s = .next t ∧ t = { s with host := .readMem a :: rest, mem := t.mem } ∧
      step t = .next { t with host := rest, readData := v.setWidth 32 } ∧
      (∀ b : Nat, b ≠ a.toNat → t.mem.read b = s.mem.read b)

/-- 10 R36, 20 R77, R79, 70 R263 H1: a host write while BUSY changes that byte of memory and no register of the engine; the byte
is noted exactly when it lies in the read or write set of a job that passes its checks. (`touched` is a field of the model's
own: notes/assumptions/4.md.) -/
def Obligations.HostWriteIntoARunningJobIsNoted : Prop :=
  ∀ (s : State) (a : Word) (v : Byte) (rest : List HostEvent), s.phase ≠ .idle → s.mem.wf →
    s.host = .writeMem a v :: rest →
    ∃ t, step s = .next t ∧ t = { s with host := rest, mem := t.mem, touched := t.touched } ∧
      t.mem.read a.toNat = v ∧ (∀ b : Nat, b ≠ a.toNat → t.mem.read b = s.mem.read b) ∧
      (∀ b : Nat, b ∈ t.touched ↔
        b ∈ s.touched ∨
          (b = a.toNat ∧ ∃ i, decode s.cmd = .ok i ∧ i.std < 3 ∧ Accepted i.op i.variant s ∧
            (s.inReadSet i.op b = true ∨ s.inWriteSet i.op b = true)))

/-! ### Addresses and blocks (20, 42) -/

/-- 20 R64, R65: in an accepted job the bytes of the elements of a used plane lie in its footprint, below 2^32, and different
elements or bytes have different addresses. -/
def Obligations.ElementAddressesAreDistinct : Prop :=
  ∀ (op : Op) (variant : Variant) (s : State) (id : SlotId), Accepted op variant s → id ∈ Op.used op →
    let p := s.slot id
    let addrOf := fun (r c k : Nat) => p.base.toNat + r * p.stride.toNat + c * Op.bpp op id + k
    (∀ r c k, r < p.ph.toNat → c < p.pw.toNat → k < Op.bpp op id →
      addrOf r c k < 2 ^ 32 ∧ Slot.covers p (Op.bpp op id) (addrOf r c k) = true) ∧
    (∀ r c k r' c' k', c < p.pw.toNat → c' < p.pw.toNat → k < Op.bpp op id → k' < Op.bpp op id →
      addrOf r c k = addrOf r' c' k' → r = r' ∧ c = c' ∧ k = k')

/-- 20 R83: the three descriptors of a contiguous planar image of W × H pixels at B cover exactly the
W*H + 2*cw*ch bytes from B on, each byte in one plane. -/
def Obligations.SplitPlanesFillTheBuffer : Prop :=
  ∀ b w h : Nat, 0 < w → 0 < h → b + (w * h + 2 * ((w + 1) / 2) * ((h + 1) / 2)) ≤ 2 ^ 32 →
    let y := fun a => Slot.covers (splitY b w h) 1 a
    let u := fun a => Slot.covers (splitU b w h) 1 a
    let v := fun a => Slot.covers (splitV b w h) 1 a
    ∀ a : Nat,
      ((y a = true ∨ u a = true ∨ v a = true) ↔
        b ≤ a ∧ a < b + (w * h + 2 * ((w + 1) / 2) * ((h + 1) / 2))) ∧
      ¬(y a = true ∧ u a = true) ∧ ¬(y a = true ∧ v a = true) ∧ ¬(u a = true ∧ v a = true)

/-- 42 R180 (95 V17): the chunks and the tail of a vector kernel take every block of the image exactly once, and the body is
the blocks whose pixels all lie below WB = 16 * (W div 16) and HB = 2 * (H div 2). -/
def Obligations.VectorKernelTakesEveryBlockOnce : Prop :=
  ∀ w h : Nat,
    (vectorBlocks w h).Perm (blocksFrom ((w + 1) / 2) ((h + 1) / 2) ⟨0, 0⟩) ∧ (vectorBlocks w h).Nodup ∧
    (∀ b : Cursor, inBody w h b = true ↔
      2 * b.col + 1 < 16 * (w / 16) ∧ 2 * b.row + 1 < 2 * (h / 2))

/-! ### Arithmetic (40, 41) -/

/-- 41 R150, 40 R139, 00 R13, R14: FWD_PX in integers: one sum, bias 512, floor division by 1024, saturation. -/
def Obligations.ForwardPixelArithmetic : Prop :=
  ∀ (st : Standard) (y u v : Byte),
    let c := st.forwardSet
    let a0 : Int := (y.toNat : Int) - (if st = .jpegFullRange then 0 else 16)
    let a1 : Int := (u.toNat : Int) - 128
    let a2 : Int := (v.toNat : Int) - 128
    let px := fwdPx c y u v
    (px.1.toNat : Int) = max 0 (min 255 ⌊((c.m0 * a0 + c.m1 * a1 + c.m2 * a2 + 512 : Int) : ℚ) / 1024⌋) ∧
    (px.2.1.toNat : Int) = max 0 (min 255 ⌊((c.m3 * a0 + c.m4 * a1 + c.m5 * a2 + 512 : Int) : ℚ) / 1024⌋) ∧
    (px.2.2.toNat : Int) = max 0 (min 255 ⌊((c.m6 * a0 + c.m7 * a1 + c.m8 * a2 + 512 : Int) : ℚ) / 1024⌋)

/-- 41 R151, 40 R139, 00 R13, R14: INV_PX in integers: the offset is added after the shift. -/
def Obligations.InversePixelArithmetic : Prop :=
  ∀ (st : Standard) (r g b : Byte),
    let c := st.inverseSet
    let yoff : Int := if st = .jpegFullRange then 0 else 16
    ((invY c r g b).toNat : Int) =
      max 0 (min 255 (⌊((c.m0 * r.toNat + c.m1 * g.toNat + c.m2 * b.toNat + 512 : Int) : ℚ) / 1024⌋ + yoff)) ∧
    ((invU c r g b).toNat : Int) =
      max 0 (min 255 (⌊((c.m3 * r.toNat + c.m4 * g.toNat + c.m5 * b.toNat + 512 : Int) : ℚ) / 1024⌋ + 128)) ∧
    ((invV c r g b).toNat : Int) =
      max 0 (min 255 (⌊((c.m6 * r.toNat + c.m7 * g.toNat + c.m8 * b.toNat + 512 : Int) : ℚ) / 1024⌋ + 128))

/-- 40 R140 (95 V7): every biased sum of every standard and direction lies in -295424 .. 560101; before the clamp the forward
results lie in -289 .. 546 and the inverse results in 0 .. 256. -/
def Obligations.SumsAndResultsStayInRange : Prop :=
  ∀ st : Standard, ∀ p q r : Byte,
    let P : Int := p.toNat
    let Q : Int := q.toNat
    let R : Int := r.toNat
    (∀ k ∈ [(st.forwardSet.m0, st.forwardSet.m1, st.forwardSet.m2), (st.forwardSet.m3, st.forwardSet.m4, st.forwardSet.m5),
        (st.forwardSet.m6, st.forwardSet.m7, st.forwardSet.m8)],
      let sum := k.1 * (P - st.yoff) + k.2.1 * (Q - 128) + k.2.2 * (R - 128) + 512;
      -295424 ≤ sum ∧ sum ≤ 560101 ∧ -289 ≤ asr sum 10 ∧ asr sum 10 ≤ 546) ∧
    (∀ k ∈ [(st.inverseSet.m0, st.inverseSet.m1, st.inverseSet.m2, (st.yoff : Int)),
        (st.inverseSet.m3, st.inverseSet.m4, st.inverseSet.m5, 128), (st.inverseSet.m6, st.inverseSet.m7, st.inverseSet.m8, 128)],
      let sum := k.1 * P + k.2.1 * Q + k.2.2.1 * R + 512;
      -295424 ≤ sum ∧ sum ≤ 560101 ∧ 0 ≤ asr sum 10 + k.2.2.2 ∧ asr sum 10 + k.2.2.2 ≤ 256)

/-- 40 R142 (a) to (d) (D0 §8's gray): a gray pixel has U = V = 128; black and white have luma YOFF and YOFF + YEXC; U = V = 128
gives R = G = B; gray 128 has luma 126, 126, 128. -/
def Obligations.GrayHasNoChroma : Prop :=
  ∀ st : Standard,
    (∀ g : Byte, invU st.inverseSet g g g = 128#8 ∧ invV st.inverseSet g g g = 128#8) ∧
    invY st.inverseSet 0#8 0#8 0#8 = (if st = .jpegFullRange then 0#8 else 16#8) ∧
    invY st.inverseSet 255#8 255#8 255#8 = (if st = .jpegFullRange then 255#8 else 235#8) ∧
    (∀ y : Byte, (fwdPx st.forwardSet y 128#8 128#8).1 = (fwdPx st.forwardSet y 128#8 128#8).2.1 ∧
      (fwdPx st.forwardSet y 128#8 128#8).1 = (fwdPx st.forwardSet y 128#8 128#8).2.2) ∧
    invY st.inverseSet 128#8 128#8 128#8 = (if st = .jpegFullRange then 128#8 else 126#8)

/-- 40 R135, R136 against R130 to R133: the six sets of the ROM are the quantized matrices of the Color Standard Table. -/
def Obligations.RomIsTheQuantizedTable : Prop :=
  ∀ st : Standard,
    st.forwardMatrix.map quantize = st.forwardSet.matrix ∧ st.inverseMatrix.map quantize = st.inverseSet.matrix ∧
    st.forwardSet.yoff = st.yoff ∧ st.inverseSet.yoff = st.yoff

/-- 40 R132 ("the 3×3 transform matrix (forward and its algebraic inverse)"): the forward matrix is the inverse of R131's. -/
def Obligations.ForwardMatrixInvertsTheInverseMatrix : Prop :=
  ∀ st : Standard, ∀ i < 3, ∀ j < 3,
    ((List.range 3).map (fun k => st.forwardMatrix.getD (3 * i + k) 0 * st.inverseMatrix.getD (3 * k + j) 0)).sum =
      if i = j then 1 else 0

/-- 95 V-S1 (D0 §8's round trip, as 90 C8 restates it): a colour converted to (Y, U, V) and back changes no channel by more than
2 levels. -/
def Obligations.RoundTripStaysWithinTwoLevels : Prop :=
  ∀ (st : Standard) (r g b : Byte),
    let px := fwdPx st.forwardSet (invY st.inverseSet r g b) (invU st.inverseSet r g b) (invV st.inverseSet r g b)
    |(px.1.toNat : Int) - r.toNat| ≤ 2 ∧ |(px.2.1.toNat : Int) - g.toNat| ≤ 2 ∧ |(px.2.2.toNat : Int) - b.toNat| ≤ 2

/-! ### What the host touches while BUSY (20 R77, 93 U3) -/

/-- 10 R36, 20 R70: outside RUN a host read returns the byte in memory and changes nothing else: in CHECK the engine has made no
memory access (43 R201). -/
def Obligations.HostReadOutsideRunReturnsTheByte : Prop :=
  ∀ (s : State) (a : Word) (rest : List HostEvent), s.phase ≠ .run → s.host = .readMem a :: rest →
    step s = .next { s with host := rest, readData := (s.mem.read a.toNat).setWidth 32 }

/-- 41 R159 (D0's reproducibility), R150, R151, R161: an output byte is a function of the input bytes it is computed from: two runs
on memories that agree on these leave the same byte. -/
def Obligations.OutputByteDependsOnItsSourcesOnly : Prop :=
  ∀ (i : Instr) (s t t' : State) (m : Memory) (a : Nat), i.std < 3 → CleanJob i.op i.variant s → m.wf →
    s.inWriteSet i.op a = true → (∀ b, OutputDependsOn i.op s a b → m.read b = s.mem.read b) →
    exec i s = .next t → exec i { s with mem := m } = .next t' → t'.mem.read a = t.mem.read a

/-- 20 R77, R71: a byte that some output byte depends on lies in the read set, and the output byte in the
write set. -/
def Obligations.SourcesLieInTheReadSet : Prop :=
  ∀ (op : Op) (variant : Variant) (s : State) (a b : Nat), Accepted op variant s → OutputDependsOn op s a b →
    s.inWriteSet op a = true ∧ s.inReadSet op b = true

/-- 43 R201 step 1 with 70 R263 H1: an accepted START begins with no byte touched and no memory noted. (Both fields are the
model's own: notes/assumptions/4.md and 5.md.) -/
def Obligations.StartBeginsWithNothingTouched : Prop :=
  ∀ (s : State) (v : Word) (rest : List HostEvent), SequencerLegal s → s.phase = .idle → v.getLsbD 0 = true →
    s.host = .writeReg 0x00 v :: rest →
    ∃ t, step s = .next t ∧ t.touched = [] ∧ t.memAtRun = [] ∧ t.mem = s.mem
end

