-- ==== Sys2Proof/Laws/Memory.lean ====
section
/-! SUPPORT. The laws of the data memory: a read after a write, the canonical form kept by every operation, and two memories in
canonical form that read alike are equal. -/

namespace Sys2Proof.Laws
open Sys2Proof Sys2Proof.Machine

@[simp] theorem read_nil (a : Nat) : Memory.read [] a = Memory.unlisted := rfl

theorem read_cons (b : Nat) (v : Byte) (m : Memory) (a : Nat) :
    Memory.read ((b, v) :: m) a = if a = b then v else Memory.read m a := rfl

/-- An address no cell names reads as unlisted. -/
theorem read_of_not_mem {m : Memory} {a : Nat} (h : ∀ c ∈ m, c.1 ≠ a) : m.read a = Memory.unlisted := by
  induction m with
  | nil => rfl
  | cons c m ih =>
    obtain ⟨b, v⟩ := c
    have hb : a ≠ b := fun e => h (b, v) (by simp) e.symm
    rw [read_cons, if_neg hb]
    exact ih fun c hc => h c (by simp [hc])

/-- A write leaves every other address as it was, in any memory. -/
theorem read_write_other (m : Memory) (a c : Nat) (v : Byte) (h : c ≠ a) : (m.write a v).read c = m.read c := by
  induction m with
  | nil =>
    simp only [Memory.write]
    split
    · rfl
    · simp [read_cons, h]
  | cons d m ih =>
    obtain ⟨b, w⟩ := d
    simp only [Memory.write]
    split
    · split
      · rfl
      · simp [read_cons, h]
    · split
      · rename_i hab
        subst hab
        split
        · simp [read_cons, h]
        · simp [read_cons, h]
      · simp only [read_cons, ih]

/-- A cell of the memory after a write is the written one or an old one. -/
theorem mem_write {m : Memory} {a : Nat} {v : Byte} {c : Host.Cell} (h : c ∈ m.write a v) :
    (c = (a, v) ∧ v ≠ Memory.unlisted) ∨ c ∈ m := by
  induction m with
  | nil =>
    simp only [Memory.write] at h
    split at h
    · simp at h
    · rename_i hv
      simp at h
      exact .inl ⟨h, hv⟩
  | cons d m ih =>
    obtain ⟨b, w⟩ := d
    simp only [Memory.write] at h
    split at h
    · split at h
      · exact .inr h
      · rename_i hv
        rcases List.mem_cons.1 h with h | h
        · exact .inl ⟨h, hv⟩
        · exact .inr h
    · split at h
      · split at h
        · exact .inr (List.mem_cons_of_mem _ h)
        · rename_i hv
          rcases List.mem_cons.1 h with h | h
          · exact .inl ⟨h, hv⟩
          · exact .inr (List.mem_cons_of_mem _ h)
      · rcases List.mem_cons.1 h with h | h
        · exact .inr (by simp [h])
        · rcases ih h with h | h
          · exact .inl h
          · exact .inr (List.mem_cons_of_mem _ h)

theorem wf_tail {c : Host.Cell} {m : Memory} (h : Memory.wf (c :: m)) : Memory.wf m :=
  ⟨(List.pairwise_cons.1 h.1).2, fun d hd => h.2 d (List.mem_cons_of_mem _ hd)⟩

/-- Every memory operation keeps the canonical form: a write. -/
theorem write_wf {m : Memory} {a : Nat} (v : Byte) (h : m.wf) (ha : a < Config.addressSpace) : (m.write a v).wf := by
  induction m with
  | nil =>
    simp only [Memory.write]
    split
    · exact h
    · rename_i hv
      exact ⟨List.pairwise_singleton _ _, by simp [ha, hv]⟩
  | cons d m ih =>
    obtain ⟨b, w⟩ := d
    have hm := wf_tail h
    have hb : ∀ c ∈ m, b < c.1 := (List.pairwise_cons.1 h.1).1
    simp only [Memory.write]
    split
    · rename_i hab
      split
      · exact h
      · rename_i hv
        refine ⟨List.pairwise_cons.2 ⟨?_, h.1⟩, ?_⟩
        · intro c hc
          rcases List.mem_cons.1 hc with rfl | hc
          · exact hab
          · exact hab.trans (hb c hc)
        · intro c hc
          rcases List.mem_cons.1 hc with rfl | hc
          · exact ⟨ha, hv⟩
          · exact h.2 c hc
    · split
      · rename_i _ hab
        subst hab
        split
        · exact hm
        · rename_i hv
          refine ⟨List.pairwise_cons.2 ⟨hb, hm.1⟩, ?_⟩
          intro c hc
          rcases List.mem_cons.1 hc with rfl | hc
          · exact ⟨ha, hv⟩
          · exact hm.2 c hc
      · rename_i h1 h2
        have ihm := ih hm
        refine ⟨List.pairwise_cons.2 ⟨?_, ihm.1⟩, ?_⟩
        · intro c hc
          rcases mem_write hc with ⟨rfl, _⟩ | hc
          · simp only; omega
          · exact hb c hc
        · intro c hc
          rcases List.mem_cons.1 hc with rfl | hc
          · exact h.2 _ (by simp)
          · exact ihm.2 c hc

/-- A read after a write to the same address gives the value written. -/
theorem read_write_same {m : Memory} (a : Nat) (v : Byte) (h : m.wf) : (m.write a v).read a = v := by
  induction m with
  | nil =>
    simp only [Memory.write]
    split
    · rename_i hv
      simp [hv]
    · simp [read_cons]
  | cons d m ih =>
    obtain ⟨b, w⟩ := d
    have hb : ∀ c ∈ m, b < c.1 := (List.pairwise_cons.1 h.1).1
    simp only [Memory.write]
    split
    · rename_i hab
      split
      · rename_i hv
        rw [hv]
        refine read_of_not_mem fun c hc => ?_
        rcases List.mem_cons.1 hc with rfl | hc
        · simp only; omega
        · have := hb c hc
          omega
      · simp [read_cons]
    · split
      · rename_i _ hab
        subst hab
        split
        · rename_i hv
          rw [hv]
          exact read_of_not_mem fun c hc => by have := hb c hc; omega
        · simp [read_cons]
      · rename_i h2
        rw [read_cons, if_neg h2]
        exact ih (wf_tail h)

/-- What a write makes every address read as. -/
theorem read_write {m : Memory} (a c : Nat) (v : Byte) (h : m.wf) :
    (m.write a v).read c = if c = a then v else m.read c := by
  split
  · rename_i hc
    subst hc
    exact read_write_same _ v h
  · rename_i hc
    exact read_write_other m a c v hc

@[simp] theorem writeAll_nil (m : Memory) : m.writeAll [] = m := rfl

@[simp] theorem writeAll_cons (m : Memory) (c : Host.Cell) (cs : List Host.Cell) :
    m.writeAll (c :: cs) = (m.write c.1 c.2).writeAll cs := rfl

theorem writeAll_append (m : Memory) (cs ds : List Host.Cell) :
    m.writeAll (cs ++ ds) = (m.writeAll cs).writeAll ds := by
  simp [Memory.writeAll, List.foldl_append]

/-- Every memory operation keeps the canonical form: a list of writes. -/
theorem writeAll_wf {m : Memory} {cs : List Host.Cell} (h : m.wf) (hc : ∀ c ∈ cs, c.1 < Config.addressSpace) :
    (m.writeAll cs).wf := by
  induction cs generalizing m with
  | nil => exact h
  | cons c cs ih =>
    rw [writeAll_cons]
    exact ih (write_wf _ h (hc c (by simp))) fun d hd => hc d (by simp [hd])

/-- A list of writes leaves every address it does not name as it was. -/
theorem read_writeAll_other (m : Memory) {cs : List Host.Cell} {a : Nat} (h : ∀ c ∈ cs, c.1 ≠ a) :
    (m.writeAll cs).read a = m.read a := by
  induction cs generalizing m with
  | nil => rfl
  | cons c cs ih =>
    rw [writeAll_cons, ih _ fun d hd => h d (by simp [hd])]
    exact read_write_other _ _ _ _ fun e => h c (by simp) e.symm

/-- A list of writes that gives an address one value only leaves that value there. -/
theorem read_writeAll_of_mem {m : Memory} {cs : List Host.Cell} {a : Nat} {v : Byte} (hm : m.wf)
    (hin : ∀ c ∈ cs, c.1 < Config.addressSpace) (hc : (a, v) ∈ cs) (hv : ∀ c ∈ cs, c.1 = a → c.2 = v) :
    (m.writeAll cs).read a = v := by
  induction cs generalizing m with
  | nil => simp at hc
  | cons c cs ih =>
    rw [writeAll_cons]
    have hm' := write_wf c.2 hm (hin c (by simp))
    have hin' : ∀ d ∈ cs, d.1 < Config.addressSpace := fun d hd => hin d (by simp [hd])
    have hv' : ∀ d ∈ cs, d.1 = a → d.2 = v := fun d hd => hv d (by simp [hd])
    by_cases h : (a, v) ∈ cs
    · exact ih hm' hin' h hv'
    · rcases List.mem_cons.1 hc with rfl | hc
      · rw [read_writeAll_other]
        · exact read_write_same _ _ hm
        · intro d hd e
          exact h (by rw [← e, ← hv' d hd e]; exact hd)
      · exact absurd hc h

/-- Two memories in canonical form that read alike everywhere are equal. -/
theorem memory_ext {m n : Memory} (hm : m.wf) (hn : n.wf) (h : ∀ a, m.read a = n.read a) : m = n := by
  induction m generalizing n with
  | nil =>
    cases n with
    | nil => rfl
    | cons c n =>
      have := h c.1
      rw [read_nil, read_cons, if_pos rfl] at this
      exact absurd this.symm (hn.2 c (by simp)).2
  | cons c m ih =>
    obtain ⟨a, v⟩ := c
    cases n with
    | nil =>
      have := h a
      rw [read_nil, read_cons, if_pos rfl] at this
      exact absurd this (hm.2 (a, v) (by simp)).2
    | cons d n =>
      obtain ⟨b, w⟩ := d
      have ha : ∀ c ∈ m, a < c.1 := (List.pairwise_cons.1 hm.1).1
      have hb : ∀ c ∈ n, b < c.1 := (List.pairwise_cons.1 hn.1).1
      have hva := (hm.2 (a, v) (by simp)).2
      have hwb := (hn.2 (b, w) (by simp)).2
      have hab : a = b := by
        rcases Nat.lt_trichotomy a b with hlt | heq | hgt
        · have := h a
          rw [read_cons, if_pos rfl, read_of_not_mem] at this
          · exact absurd this hva
          · intro c hc
            rcases List.mem_cons.1 hc with rfl | hc
            · simp only; omega
            · have := hb c hc
              omega
        · exact heq
        · have := h b
          rw [read_cons (a := b) (b := b), if_pos rfl, read_of_not_mem] at this
          · exact absurd this.symm hwb
          · intro c hc
            rcases List.mem_cons.1 hc with rfl | hc
            · simp only; omega
            · have := ha c hc
              omega
      subst hab
      have hvw : v = w := by
        have := h a
        rwa [read_cons, if_pos rfl, read_cons, if_pos rfl] at this
      subst hvw
      congr 1
      refine ih (wf_tail hm) (wf_tail hn) fun x => ?_
      by_cases hx : x = a
      · subst hx
        rw [read_of_not_mem fun c hc => by have := ha c hc; omega,
          read_of_not_mem fun c hc => by have := hb c hc; omega]
      · have := h x
        rwa [read_cons, if_neg hx, read_cons, if_neg hx] at this

/-- Reset's memory is in canonical form. -/
theorem reset_mem_wf : State.reset.mem.wf := ⟨List.Pairwise.nil, by simp [State.reset]⟩

end Sys2Proof.Laws
end

