-- ==== Sys2Proof/Laws/State.lean ====
section
/-! SUPPORT. What each named update of the state leaves in each field, one lemma per field, so that no proof unfolds a record
update. -/

namespace Sys2Proof.Laws
open Sys2Proof Sys2Proof.Machine

@[simp] theorem acceptStart_phase (s : State) : (State.acceptStart s).phase = .check := rfl
@[simp] theorem acceptStart_done (s : State) : (State.acceptStart s).done = false := rfl
@[simp] theorem acceptStart_err (s : State) : (State.acceptStart s).err = false := rfl
@[simp] theorem acceptStart_errCode (s : State) : (State.acceptStart s).errCode = 0#3 := rfl
@[simp] theorem acceptStart_path (s : State) : (State.acceptStart s).path = 0#2 := rfl
@[simp] theorem acceptStart_cmd (s : State) : (State.acceptStart s).cmd = s.cmd := rfl
@[simp] theorem acceptStart_width (s : State) : (State.acceptStart s).width = s.width := rfl
@[simp] theorem acceptStart_height (s : State) : (State.acceptStart s).height = s.height := rfl
@[simp] theorem acceptStart_in0 (s : State) : (State.acceptStart s).in0 = s.in0 := rfl
@[simp] theorem acceptStart_in1 (s : State) : (State.acceptStart s).in1 = s.in1 := rfl
@[simp] theorem acceptStart_in2 (s : State) : (State.acceptStart s).in2 = s.in2 := rfl
@[simp] theorem acceptStart_out0 (s : State) : (State.acceptStart s).out0 = s.out0 := rfl
@[simp] theorem acceptStart_out1 (s : State) : (State.acceptStart s).out1 = s.out1 := rfl
@[simp] theorem acceptStart_out2 (s : State) : (State.acceptStart s).out2 = s.out2 := rfl
@[simp] theorem acceptStart_coef (s : State) : (State.acceptStart s).coef = s.coef := rfl
@[simp] theorem acceptStart_cursor (s : State) : (State.acceptStart s).cursor = s.cursor := rfl
@[simp] theorem acceptStart_mem (s : State) : (State.acceptStart s).mem = s.mem := rfl
@[simp] theorem acceptStart_host (s : State) : (State.acceptStart s).host = s.host := rfl
@[simp] theorem acceptStart_readData (s : State) : (State.acceptStart s).readData = s.readData := rfl
@[simp] theorem acceptStart_draws (s : State) : (State.acceptStart s).draws = s.draws := rfl
@[simp] theorem acceptStart_touched (s : State) : (State.acceptStart s).touched = [] := rfl
@[simp] theorem acceptStart_memAtRun (s : State) : (State.acceptStart s).memAtRun = s.memAtRun := rfl

@[simp] theorem raise_phase (e : JobError) (s : State) : (State.raise e s).phase = .idle := rfl
@[simp] theorem raise_done (e : JobError) (s : State) : (State.raise e s).done = true := rfl
@[simp] theorem raise_err (e : JobError) (s : State) : (State.raise e s).err = true := rfl
@[simp] theorem raise_errCode (e : JobError) (s : State) : (State.raise e s).errCode = e.code := rfl
@[simp] theorem raise_path (e : JobError) (s : State) : (State.raise e s).path = 0#2 := rfl
@[simp] theorem raise_cmd (e : JobError) (s : State) : (State.raise e s).cmd = s.cmd := rfl
@[simp] theorem raise_width (e : JobError) (s : State) : (State.raise e s).width = s.width := rfl
@[simp] theorem raise_height (e : JobError) (s : State) : (State.raise e s).height = s.height := rfl
@[simp] theorem raise_in0 (e : JobError) (s : State) : (State.raise e s).in0 = s.in0 := rfl
@[simp] theorem raise_in1 (e : JobError) (s : State) : (State.raise e s).in1 = s.in1 := rfl
@[simp] theorem raise_in2 (e : JobError) (s : State) : (State.raise e s).in2 = s.in2 := rfl
@[simp] theorem raise_out0 (e : JobError) (s : State) : (State.raise e s).out0 = s.out0 := rfl
@[simp] theorem raise_out1 (e : JobError) (s : State) : (State.raise e s).out1 = s.out1 := rfl
@[simp] theorem raise_out2 (e : JobError) (s : State) : (State.raise e s).out2 = s.out2 := rfl
@[simp] theorem raise_coef (e : JobError) (s : State) : (State.raise e s).coef = s.coef := rfl
@[simp] theorem raise_cursor (e : JobError) (s : State) : (State.raise e s).cursor = s.cursor := rfl
@[simp] theorem raise_mem (e : JobError) (s : State) : (State.raise e s).mem = s.mem := rfl
@[simp] theorem raise_host (e : JobError) (s : State) : (State.raise e s).host = s.host := rfl
@[simp] theorem raise_readData (e : JobError) (s : State) : (State.raise e s).readData = s.readData := rfl
@[simp] theorem raise_draws (e : JobError) (s : State) : (State.raise e s).draws = s.draws := rfl
@[simp] theorem raise_touched (e : JobError) (s : State) : (State.raise e s).touched = [] := rfl
@[simp] theorem raise_memAtRun (e : JobError) (s : State) : (State.raise e s).memAtRun = s.memAtRun := rfl

@[simp] theorem succeed_phase (p : Path) (s : State) : (State.succeed p s).phase = .idle := rfl
@[simp] theorem succeed_done (p : Path) (s : State) : (State.succeed p s).done = true := rfl
@[simp] theorem succeed_err (p : Path) (s : State) : (State.succeed p s).err = false := rfl
@[simp] theorem succeed_errCode (p : Path) (s : State) : (State.succeed p s).errCode = 0#3 := rfl
@[simp] theorem succeed_path (p : Path) (s : State) : (State.succeed p s).path = p.code := rfl
@[simp] theorem succeed_cmd (p : Path) (s : State) : (State.succeed p s).cmd = s.cmd := rfl
@[simp] theorem succeed_width (p : Path) (s : State) : (State.succeed p s).width = s.width := rfl
@[simp] theorem succeed_height (p : Path) (s : State) : (State.succeed p s).height = s.height := rfl
@[simp] theorem succeed_in0 (p : Path) (s : State) : (State.succeed p s).in0 = s.in0 := rfl
@[simp] theorem succeed_in1 (p : Path) (s : State) : (State.succeed p s).in1 = s.in1 := rfl
@[simp] theorem succeed_in2 (p : Path) (s : State) : (State.succeed p s).in2 = s.in2 := rfl
@[simp] theorem succeed_out0 (p : Path) (s : State) : (State.succeed p s).out0 = s.out0 := rfl
@[simp] theorem succeed_out1 (p : Path) (s : State) : (State.succeed p s).out1 = s.out1 := rfl
@[simp] theorem succeed_out2 (p : Path) (s : State) : (State.succeed p s).out2 = s.out2 := rfl
@[simp] theorem succeed_coef (p : Path) (s : State) : (State.succeed p s).coef = s.coef := rfl
@[simp] theorem succeed_cursor (p : Path) (s : State) : (State.succeed p s).cursor = s.cursor := rfl
@[simp] theorem succeed_mem (p : Path) (s : State) : (State.succeed p s).mem = s.mem := rfl
@[simp] theorem succeed_host (p : Path) (s : State) : (State.succeed p s).host = s.host := rfl
@[simp] theorem succeed_readData (p : Path) (s : State) : (State.succeed p s).readData = s.readData := rfl
@[simp] theorem succeed_draws (p : Path) (s : State) : (State.succeed p s).draws = s.draws := rfl
@[simp] theorem succeed_touched (p : Path) (s : State) : (State.succeed p s).touched = [] := rfl
@[simp] theorem succeed_memAtRun (p : Path) (s : State) : (State.succeed p s).memAtRun = [] := rfl

@[simp] theorem enterRun_phase (op : Op) (st : Standard) (s : State) : (enterRun op st s).phase = .run := rfl
@[simp] theorem enterRun_done (op : Op) (st : Standard) (s : State) : (enterRun op st s).done = s.done := rfl
@[simp] theorem enterRun_err (op : Op) (st : Standard) (s : State) : (enterRun op st s).err = s.err := rfl
@[simp] theorem enterRun_errCode (op : Op) (st : Standard) (s : State) : (enterRun op st s).errCode = s.errCode := rfl
@[simp] theorem enterRun_path (op : Op) (st : Standard) (s : State) : (enterRun op st s).path = s.path := rfl
@[simp] theorem enterRun_cmd (op : Op) (st : Standard) (s : State) : (enterRun op st s).cmd = s.cmd := rfl
@[simp] theorem enterRun_width (op : Op) (st : Standard) (s : State) : (enterRun op st s).width = s.width := rfl
@[simp] theorem enterRun_height (op : Op) (st : Standard) (s : State) : (enterRun op st s).height = s.height := rfl
@[simp] theorem enterRun_in0 (op : Op) (st : Standard) (s : State) : (enterRun op st s).in0 = s.in0 := rfl
@[simp] theorem enterRun_in1 (op : Op) (st : Standard) (s : State) : (enterRun op st s).in1 = s.in1 := rfl
@[simp] theorem enterRun_in2 (op : Op) (st : Standard) (s : State) : (enterRun op st s).in2 = s.in2 := rfl
@[simp] theorem enterRun_out0 (op : Op) (st : Standard) (s : State) : (enterRun op st s).out0 = s.out0 := rfl
@[simp] theorem enterRun_out1 (op : Op) (st : Standard) (s : State) : (enterRun op st s).out1 = s.out1 := rfl
@[simp] theorem enterRun_out2 (op : Op) (st : Standard) (s : State) : (enterRun op st s).out2 = s.out2 := rfl
@[simp] theorem enterRun_coef (op : Op) (st : Standard) (s : State) : (enterRun op st s).coef = coefficients st op := rfl
@[simp] theorem enterRun_cursor (op : Op) (st : Standard) (s : State) : (enterRun op st s).cursor = ⟨0, 0⟩ := rfl
@[simp] theorem enterRun_mem (op : Op) (st : Standard) (s : State) : (enterRun op st s).mem = s.mem := rfl
@[simp] theorem enterRun_host (op : Op) (st : Standard) (s : State) : (enterRun op st s).host = s.host := rfl
@[simp] theorem enterRun_readData (op : Op) (st : Standard) (s : State) : (enterRun op st s).readData = s.readData := rfl
@[simp] theorem enterRun_draws (op : Op) (st : Standard) (s : State) : (enterRun op st s).draws = s.draws := rfl
@[simp] theorem enterRun_touched (op : Op) (st : Standard) (s : State) : (enterRun op st s).touched = s.touched := rfl
@[simp] theorem enterRun_memAtRun (op : Op) (st : Standard) (s : State) : (enterRun op st s).memAtRun = s.mem := rfl

@[simp] theorem endJob_phase (op : Op) (variant : Variant) (s : State) : (endJob op variant s).phase = .idle := by
  unfold endJob; split <;> rfl
@[simp] theorem endJob_done (op : Op) (variant : Variant) (s : State) : (endJob op variant s).done = true := by
  unfold endJob; split <;> rfl
@[simp] theorem endJob_err (op : Op) (variant : Variant) (s : State) : (endJob op variant s).err = false := by
  unfold endJob; split <;> rfl
@[simp] theorem endJob_errCode (op : Op) (variant : Variant) (s : State) : (endJob op variant s).errCode = 0#3 := by
  unfold endJob; split <;> rfl
@[simp] theorem endJob_path (op : Op) (variant : Variant) (s : State) : (endJob op variant s).path = (jobPath op variant s).code := by
  unfold endJob; split <;> rfl
@[simp] theorem endJob_cmd (op : Op) (variant : Variant) (s : State) : (endJob op variant s).cmd = s.cmd := by
  unfold endJob; split <;> rfl
@[simp] theorem endJob_width (op : Op) (variant : Variant) (s : State) : (endJob op variant s).width = s.width := by
  unfold endJob; split <;> rfl
@[simp] theorem endJob_height (op : Op) (variant : Variant) (s : State) : (endJob op variant s).height = s.height := by
  unfold endJob; split <;> rfl
@[simp] theorem endJob_in0 (op : Op) (variant : Variant) (s : State) : (endJob op variant s).in0 = s.in0 := by
  unfold endJob; split <;> rfl
@[simp] theorem endJob_in1 (op : Op) (variant : Variant) (s : State) : (endJob op variant s).in1 = s.in1 := by
  unfold endJob; split <;> rfl
@[simp] theorem endJob_in2 (op : Op) (variant : Variant) (s : State) : (endJob op variant s).in2 = s.in2 := by
  unfold endJob; split <;> rfl
@[simp] theorem endJob_out0 (op : Op) (variant : Variant) (s : State) : (endJob op variant s).out0 = s.out0 := by
  unfold endJob; split <;> rfl
@[simp] theorem endJob_out1 (op : Op) (variant : Variant) (s : State) : (endJob op variant s).out1 = s.out1 := by
  unfold endJob; split <;> rfl
@[simp] theorem endJob_out2 (op : Op) (variant : Variant) (s : State) : (endJob op variant s).out2 = s.out2 := by
  unfold endJob; split <;> rfl
@[simp] theorem endJob_coef (op : Op) (variant : Variant) (s : State) : (endJob op variant s).coef = s.coef := by
  unfold endJob; split <;> rfl
@[simp] theorem endJob_cursor (op : Op) (variant : Variant) (s : State) : (endJob op variant s).cursor = ⟨s.ch - 1, s.cw - 1⟩ := by
  unfold endJob; split <;> rfl
@[simp] theorem endJob_mem (op : Op) (variant : Variant) (s : State) : (endJob op variant s).mem = if unpredictable op s then s.mem.writeAll (freeCells op s) else s.mem := by
  unfold endJob; split <;> rfl
@[simp] theorem endJob_host (op : Op) (variant : Variant) (s : State) : (endJob op variant s).host = s.host := by
  unfold endJob; split <;> rfl
@[simp] theorem endJob_readData (op : Op) (variant : Variant) (s : State) : (endJob op variant s).readData = s.readData := by
  unfold endJob; split <;> rfl
@[simp] theorem endJob_draws (op : Op) (variant : Variant) (s : State) : (endJob op variant s).draws = if unpredictable op s then s.draws + 1 else s.draws := by
  unfold endJob; split <;> rfl
@[simp] theorem endJob_touched (op : Op) (variant : Variant) (s : State) : (endJob op variant s).touched = [] := by
  unfold endJob; split <;> rfl
@[simp] theorem endJob_memAtRun (op : Op) (variant : Variant) (s : State) : (endJob op variant s).memAtRun = [] := by
  unfold endJob; split <;> rfl

@[simp] theorem setSlot_phase (s : State) (id : SlotId) (p : Slot) : (s.setSlot id p).phase = s.phase := by cases id <;> rfl
@[simp] theorem setSlot_done (s : State) (id : SlotId) (p : Slot) : (s.setSlot id p).done = s.done := by cases id <;> rfl
@[simp] theorem setSlot_err (s : State) (id : SlotId) (p : Slot) : (s.setSlot id p).err = s.err := by cases id <;> rfl
@[simp] theorem setSlot_errCode (s : State) (id : SlotId) (p : Slot) : (s.setSlot id p).errCode = s.errCode := by cases id <;> rfl
@[simp] theorem setSlot_path (s : State) (id : SlotId) (p : Slot) : (s.setSlot id p).path = s.path := by cases id <;> rfl
@[simp] theorem setSlot_cmd (s : State) (id : SlotId) (p : Slot) : (s.setSlot id p).cmd = s.cmd := by cases id <;> rfl
@[simp] theorem setSlot_width (s : State) (id : SlotId) (p : Slot) : (s.setSlot id p).width = s.width := by cases id <;> rfl
@[simp] theorem setSlot_height (s : State) (id : SlotId) (p : Slot) : (s.setSlot id p).height = s.height := by cases id <;> rfl
@[simp] theorem setSlot_coef (s : State) (id : SlotId) (p : Slot) : (s.setSlot id p).coef = s.coef := by cases id <;> rfl
@[simp] theorem setSlot_cursor (s : State) (id : SlotId) (p : Slot) : (s.setSlot id p).cursor = s.cursor := by cases id <;> rfl
@[simp] theorem setSlot_mem (s : State) (id : SlotId) (p : Slot) : (s.setSlot id p).mem = s.mem := by cases id <;> rfl
@[simp] theorem setSlot_host (s : State) (id : SlotId) (p : Slot) : (s.setSlot id p).host = s.host := by cases id <;> rfl
@[simp] theorem setSlot_readData (s : State) (id : SlotId) (p : Slot) : (s.setSlot id p).readData = s.readData := by cases id <;> rfl
@[simp] theorem setSlot_draws (s : State) (id : SlotId) (p : Slot) : (s.setSlot id p).draws = s.draws := by cases id <;> rfl
@[simp] theorem setSlot_touched (s : State) (id : SlotId) (p : Slot) : (s.setSlot id p).touched = s.touched := by cases id <;> rfl
@[simp] theorem setSlot_memAtRun (s : State) (id : SlotId) (p : Slot) : (s.setSlot id p).memAtRun = s.memAtRun := by cases id <;> rfl

@[simp] theorem acceptStart_w (s : State) : State.w (State.acceptStart s) = s.w := rfl
@[simp] theorem acceptStart_h (s : State) : State.h (State.acceptStart s) = s.h := rfl
@[simp] theorem acceptStart_cw (s : State) : State.cw (State.acceptStart s) = s.cw := rfl
@[simp] theorem acceptStart_ch (s : State) : State.ch (State.acceptStart s) = s.ch := rfl
@[simp] theorem acceptStart_slot (s : State) (id : SlotId) : State.slot (State.acceptStart s) id = s.slot id := by cases id <;> rfl
@[simp] theorem raise_w (e : JobError) (s : State) : State.w (State.raise e s) = s.w := rfl
@[simp] theorem raise_h (e : JobError) (s : State) : State.h (State.raise e s) = s.h := rfl
@[simp] theorem raise_cw (e : JobError) (s : State) : State.cw (State.raise e s) = s.cw := rfl
@[simp] theorem raise_ch (e : JobError) (s : State) : State.ch (State.raise e s) = s.ch := rfl
@[simp] theorem raise_slot (e : JobError) (s : State) (id : SlotId) : State.slot (State.raise e s) id = s.slot id := by cases id <;> rfl
@[simp] theorem succeed_w (p : Path) (s : State) : State.w (State.succeed p s) = s.w := rfl
@[simp] theorem succeed_h (p : Path) (s : State) : State.h (State.succeed p s) = s.h := rfl
@[simp] theorem succeed_cw (p : Path) (s : State) : State.cw (State.succeed p s) = s.cw := rfl
@[simp] theorem succeed_ch (p : Path) (s : State) : State.ch (State.succeed p s) = s.ch := rfl
@[simp] theorem succeed_slot (p : Path) (s : State) (id : SlotId) : State.slot (State.succeed p s) id = s.slot id := by cases id <;> rfl
@[simp] theorem enterRun_w (op : Op) (st : Standard) (s : State) : State.w (enterRun op st s) = s.w := rfl
@[simp] theorem enterRun_h (op : Op) (st : Standard) (s : State) : State.h (enterRun op st s) = s.h := rfl
@[simp] theorem enterRun_cw (op : Op) (st : Standard) (s : State) : State.cw (enterRun op st s) = s.cw := rfl
@[simp] theorem enterRun_ch (op : Op) (st : Standard) (s : State) : State.ch (enterRun op st s) = s.ch := rfl
@[simp] theorem enterRun_slot (op : Op) (st : Standard) (s : State) (id : SlotId) : State.slot (enterRun op st s) id = s.slot id := by cases id <;> rfl
@[simp] theorem endJob_slot (op : Op) (variant : Variant) (s : State) (id : SlotId) :
    State.slot (endJob op variant s) id = s.slot id := by
  cases id <;> simp [State.slot]

/-- A slot register update reads back, and leaves the other slots as they were. -/
@[simp] theorem slot_setSlot (s : State) (id id' : SlotId) (p : Slot) :
    (s.setSlot id p).slot id' = if id' = id then p else s.slot id' := by
  cases id <;> cases id' <;> rfl

/-- One register of a slot reads back after an update. -/
@[simp] theorem get_set (p : Slot) (f f' : SlotField) (v : Word) :
    (p.set f v).get f' = if f' = f then v else p.get f' := by
  cases f <;> cases f' <;> rfl

/-- BUSY is (PHASE ≠ IDLE). -/
theorem busy_iff (s : State) : s.busy = true ↔ s.phase ≠ .idle := by simp [State.busy]

end Sys2Proof.Laws
end

