-- ==== Sys2Proof/Laws/Operands.lean ====
section
/-! SUPPORT. The tables of the operand functions written out, one lemma per row (spec 10 R27, 20 R62). -/

namespace Sys2Proof.Laws
open Sys2Proof Sys2Proof.Machine

@[simp] theorem inputs_i420Rgb24 : Op.inputs .i420Rgb24 = [SlotId.in0, SlotId.in1, SlotId.in2] := rfl
@[simp] theorem outputs_i420Rgb24 : Op.outputs .i420Rgb24 = [SlotId.out0] := rfl
@[simp] theorem used_i420Rgb24 : Op.used .i420Rgb24 = [SlotId.in0, SlotId.in1, SlotId.in2, SlotId.out0] := rfl
@[simp] theorem bpp_i420Rgb24_in0 : Op.bpp .i420Rgb24 .in0 = 1 := rfl
@[simp] theorem bpp_i420Rgb24_in1 : Op.bpp .i420Rgb24 .in1 = 1 := rfl
@[simp] theorem bpp_i420Rgb24_in2 : Op.bpp .i420Rgb24 .in2 = 1 := rfl
@[simp] theorem bpp_i420Rgb24_out0 : Op.bpp .i420Rgb24 .out0 = 3 := rfl
@[simp] theorem chromaSlots_i420Rgb24 : Op.chromaSlots .i420Rgb24 = [SlotId.in1, SlotId.in2] := rfl
@[simp] theorem lumaSlot_i420Rgb24 : Op.lumaSlot .i420Rgb24 = .in0 := rfl
@[simp] theorem forward_i420Rgb24 : Op.forward .i420Rgb24 = true := rfl

@[simp] theorem inputs_rgb24I420 : Op.inputs .rgb24I420 = [SlotId.in0] := rfl
@[simp] theorem outputs_rgb24I420 : Op.outputs .rgb24I420 = [SlotId.out0, SlotId.out1, SlotId.out2] := rfl
@[simp] theorem used_rgb24I420 : Op.used .rgb24I420 = [SlotId.in0, SlotId.out0, SlotId.out1, SlotId.out2] := rfl
@[simp] theorem bpp_rgb24I420_in0 : Op.bpp .rgb24I420 .in0 = 3 := rfl
@[simp] theorem bpp_rgb24I420_out0 : Op.bpp .rgb24I420 .out0 = 1 := rfl
@[simp] theorem bpp_rgb24I420_out1 : Op.bpp .rgb24I420 .out1 = 1 := rfl
@[simp] theorem bpp_rgb24I420_out2 : Op.bpp .rgb24I420 .out2 = 1 := rfl
@[simp] theorem chromaSlots_rgb24I420 : Op.chromaSlots .rgb24I420 = [SlotId.out1, SlotId.out2] := rfl
@[simp] theorem lumaSlot_rgb24I420 : Op.lumaSlot .rgb24I420 = .out0 := rfl
@[simp] theorem forward_rgb24I420 : Op.forward .rgb24I420 = false := rfl

@[simp] theorem inputs_nv12Rgb24 : Op.inputs .nv12Rgb24 = [SlotId.in0, SlotId.in1] := rfl
@[simp] theorem outputs_nv12Rgb24 : Op.outputs .nv12Rgb24 = [SlotId.out0] := rfl
@[simp] theorem used_nv12Rgb24 : Op.used .nv12Rgb24 = [SlotId.in0, SlotId.in1, SlotId.out0] := rfl
@[simp] theorem bpp_nv12Rgb24_in0 : Op.bpp .nv12Rgb24 .in0 = 1 := rfl
@[simp] theorem bpp_nv12Rgb24_in1 : Op.bpp .nv12Rgb24 .in1 = 2 := rfl
@[simp] theorem bpp_nv12Rgb24_out0 : Op.bpp .nv12Rgb24 .out0 = 3 := rfl
@[simp] theorem chromaSlots_nv12Rgb24 : Op.chromaSlots .nv12Rgb24 = [SlotId.in1] := rfl
@[simp] theorem lumaSlot_nv12Rgb24 : Op.lumaSlot .nv12Rgb24 = .in0 := rfl
@[simp] theorem forward_nv12Rgb24 : Op.forward .nv12Rgb24 = true := rfl

@[simp] theorem inputs_nv21Rgb24 : Op.inputs .nv21Rgb24 = [SlotId.in0, SlotId.in1] := rfl
@[simp] theorem outputs_nv21Rgb24 : Op.outputs .nv21Rgb24 = [SlotId.out0] := rfl
@[simp] theorem used_nv21Rgb24 : Op.used .nv21Rgb24 = [SlotId.in0, SlotId.in1, SlotId.out0] := rfl
@[simp] theorem bpp_nv21Rgb24_in0 : Op.bpp .nv21Rgb24 .in0 = 1 := rfl
@[simp] theorem bpp_nv21Rgb24_in1 : Op.bpp .nv21Rgb24 .in1 = 2 := rfl
@[simp] theorem bpp_nv21Rgb24_out0 : Op.bpp .nv21Rgb24 .out0 = 3 := rfl
@[simp] theorem chromaSlots_nv21Rgb24 : Op.chromaSlots .nv21Rgb24 = [SlotId.in1] := rfl
@[simp] theorem lumaSlot_nv21Rgb24 : Op.lumaSlot .nv21Rgb24 = .in0 := rfl
@[simp] theorem forward_nv21Rgb24 : Op.forward .nv21Rgb24 = true := rfl

@[simp] theorem inputs_rgba32I420 : Op.inputs .rgba32I420 = [SlotId.in0] := rfl
@[simp] theorem outputs_rgba32I420 : Op.outputs .rgba32I420 = [SlotId.out0, SlotId.out1, SlotId.out2] := rfl
@[simp] theorem used_rgba32I420 : Op.used .rgba32I420 = [SlotId.in0, SlotId.out0, SlotId.out1, SlotId.out2] := rfl
@[simp] theorem bpp_rgba32I420_in0 : Op.bpp .rgba32I420 .in0 = 4 := rfl
@[simp] theorem bpp_rgba32I420_out0 : Op.bpp .rgba32I420 .out0 = 1 := rfl
@[simp] theorem bpp_rgba32I420_out1 : Op.bpp .rgba32I420 .out1 = 1 := rfl
@[simp] theorem bpp_rgba32I420_out2 : Op.bpp .rgba32I420 .out2 = 1 := rfl
@[simp] theorem chromaSlots_rgba32I420 : Op.chromaSlots .rgba32I420 = [SlotId.out1, SlotId.out2] := rfl
@[simp] theorem lumaSlot_rgba32I420 : Op.lumaSlot .rgba32I420 = .out0 := rfl
@[simp] theorem forward_rgba32I420 : Op.forward .rgba32I420 = false := rfl

@[simp] theorem slot_in0 (s : State) : s.slot .in0 = s.in0 := rfl
@[simp] theorem slot_in1 (s : State) : s.slot .in1 = s.in1 := rfl
@[simp] theorem slot_in2 (s : State) : s.slot .in2 = s.in2 := rfl
@[simp] theorem slot_out0 (s : State) : s.slot .out0 = s.out0 := rfl
@[simp] theorem slot_out1 (s : State) : s.slot .out1 = s.out1 := rfl
@[simp] theorem slot_out2 (s : State) : s.slot .out2 = s.out2 := rfl

end Sys2Proof.Laws
end

