-- ==== Sys2Proof/Laws/Geometry.lean ====
section
/-! SUPPORT. What the operand functions say: footprints as sets of addresses, the overlap test, and the checks of a job as
the conditions of spec 43 R203 to R205. -/

namespace Sys2Proof.Laws
open Sys2Proof Sys2Proof.Machine

/-- An address is in a footprint iff it is byte k of some row r (20 R64). -/
theorem covers_iff (p : Slot) (bpp a : Nat) :
    Slot.covers p bpp a = true ↔
      ∃ r < p.ph.toNat, ∃ k < p.pw.toNat * bpp, a = p.base.toNat + r * p.stride.toNat + k := by
  simp only [Slot.covers, Slot.rows, List.any_map, List.any_eq_true, List.mem_range, Function.comp, Bool.and_eq_true,
    decide_eq_true_eq, Slot.rowStart, Slot.rowBytes]
  constructor
  · rintro ⟨r, hr, h1, h2⟩
    exact ⟨r, hr, a - (p.base.toNat + r * p.stride.toNat), by omega, by omega⟩
  · rintro ⟨r, hr, k, hk, rfl⟩
    exact ⟨r, hr, by omega, by omega⟩

/-- The footprint list names exactly the covered addresses. -/
theorem mem_footprint_iff (p : Slot) (bpp a : Nat) : a ∈ Slot.footprint p bpp ↔ Slot.covers p bpp a = true := by
  rw [covers_iff]
  simp only [Slot.footprint, Slot.rows, List.mem_flatMap, List.mem_map, List.mem_range, Slot.rowStart, Slot.rowBytes]
  constructor
  · rintro ⟨_, ⟨r, hr, rfl⟩, k, hk, rfl⟩
    exact ⟨r, hr, k, hk, rfl⟩
  · rintro ⟨r, hr, k, hk, rfl⟩
    exact ⟨_, ⟨r, hr, rfl⟩, k, hk, rfl⟩

/-- The write-set list names exactly the write set (20 R71). -/
theorem mem_writeSet_iff (s : State) (op : Op) (a : Nat) : a ∈ s.writeSet op ↔ s.inWriteSet op a = true := by
  simp only [State.writeSet, State.inWriteSet, List.mem_flatMap, List.any_eq_true, mem_footprint_iff]

theorem inWriteSet_iff (s : State) (op : Op) (a : Nat) :
    s.inWriteSet op a = true ↔ ∃ id ∈ Op.outputs op, Slot.covers (s.slot id) (Op.bpp op id) a = true := by
  simp only [State.inWriteSet, List.any_eq_true]

theorem inReadSet_iff (s : State) (op : Op) (a : Nat) :
    s.inReadSet op a = true ↔ ∃ id ∈ Op.inputs op, Slot.covers (s.slot id) (Op.bpp op id) a = true := by
  simp only [State.inReadSet, List.any_eq_true]

/-- The test of two planes for a shared byte is exact (20 R80). -/
theorem sharesByte_iff (p q : Slot) (bp bq : Nat) :
    Slot.sharesByte p bp q bq = true ↔ ∃ a, Slot.covers p bp a = true ∧ Slot.covers q bq a = true := by
  simp only [covers_iff]
  simp only [Slot.sharesByte, Slot.rows, List.any_map, List.any_eq_true, List.mem_range, Function.comp, decide_eq_true_eq,
    Slot.rowStart, Slot.rowBytes]
  constructor
  · rintro ⟨r, hr, r', hr', h⟩
    exact ⟨max (p.base.toNat + r * p.stride.toNat) (q.base.toNat + r' * q.stride.toNat),
      ⟨r, hr, max (p.base.toNat + r * p.stride.toNat) (q.base.toNat + r' * q.stride.toNat) -
        (p.base.toNat + r * p.stride.toNat), by omega, by omega⟩,
      ⟨r', hr', max (p.base.toNat + r * p.stride.toNat) (q.base.toNat + r' * q.stride.toNat) -
        (q.base.toNat + r' * q.stride.toNat), by omega, by omega⟩⟩
  · rintro ⟨a, ⟨r, hr, k, hk, h1⟩, ⟨r', hr', k', hk', h2⟩⟩
    exact ⟨r, hr, r', hr', by omega⟩

/-- The overlap test is the disjointness of 20 R80. -/
theorem overlaps_iff (s : State) (op : Op) : s.overlaps op = true ↔ ¬DisjointPlanes op s := by
  simp only [State.overlaps, List.any_eq_true, Bool.and_eq_true, decide_eq_true_eq, sharesByte_iff, DisjointPlanes]
  push Not
  constructor
  · rintro ⟨o, ho, t, ht, hne, a, h⟩
    exact ⟨o, ho, t, ht, hne, a, h⟩
  · rintro ⟨o, ho, t, ht, hne, a, h⟩
    exact ⟨o, ho, t, ht, hne, a, h⟩

theorem disjoint_iff (s : State) (op : Op) : DisjointPlanes op s ↔ s.overlaps op = false := by
  rw [← not_iff_not, ← overlaps_iff, Bool.not_eq_false]

/-- Check 3 answers exactly the causes G1 to G6 (43 R203). -/
theorem badGeometry_iff (s : State) (op : Op) : s.badGeometry op = true ↔ GeometryFault op s := by
  simp only [State.badGeometry, State.zeroSize, State.zeroPlane, State.chromaMisfit, State.shortStride, State.inputMisfit,
    State.planeOutside, Bool.or_eq_true, decide_eq_true_eq, List.any_eq_true]
  simp only [GeometryFault, State.w, State.h, chromaSize, Slot.rowBytes, Slot.top, Slot.rowStart, Config.addressSpace,
    ne_eq, Prod.mk.injEq, not_and_or, or_assoc]
  norm_num

theorem sizesDiffer_iff (s : State) : s.sizesDiffer = true ↔ SizeFault s := by
  simp only [State.sizesDiffer, SizeFault, Bool.or_eq_true, decide_eq_true_eq, ne_eq, Prod.mk.injEq, not_and_or]

theorem aligned_iff (s : State) (op : Op) : s.aligned op = true ↔ AlignedJob op s := by
  simp only [State.aligned, List.all_eq_true, Bool.and_eq_true, decide_eq_true_eq]
  rfl

/-- What the checks answer, once (43 R202): the first failing check, or the standard of an accepted job. -/
theorem validate_cases (op : Op) (variant : Variant) (std : Nat) (s : State) :
    (Standard.ofField std = none ∧ validate op variant std s = .error .unsupportedStandard) ∨
    ∃ st, Standard.ofField std = some st ∧
      ((GeometryFault op s ∧ validate op variant std s = .error .invalidGeometry) ∨
       (¬GeometryFault op s ∧ SizeFault s ∧ validate op variant std s = .error .dimensionMismatch) ∨
       (¬GeometryFault op s ∧ ¬SizeFault s ∧ variant = .vectorAligned ∧ ¬AlignedJob op s ∧
          validate op variant std s = .error .alignmentViolation) ∨
       (¬GeometryFault op s ∧ ¬SizeFault s ∧ (variant = .vectorAligned → AlignedJob op s) ∧
          validate op variant std s = .ok st)) := by
  cases hst : Standard.ofField std with
  | none => exact .inl ⟨rfl, by simp [validate, hst]⟩
  | some st =>
    refine .inr ⟨st, rfl, ?_⟩
    simp only [← badGeometry_iff, ← sizesDiffer_iff, ← aligned_iff, validate, hst]
    cases s.badGeometry op <;> cases s.sizesDiffer <;> cases s.aligned op <;> cases variant <;> simp

/-- A job without a geometry or size fault has every used plane at its expected size with room for its rows, below 2^32
(43 R204: "After checks 3 and 4 every used plane has exactly its expected size"), and conversely. -/
theorem accepted_iff (op : Op) (variant : Variant) (s : State) :
    Accepted op variant s ↔
      ¬GeometryFault op s ∧ ¬SizeFault s ∧ (variant = .vectorAligned → AlignedJob op s) := by
  have key : (0 < s.w ∧ 0 < s.h ∧ ∀ id ∈ Op.used op,
      (s.slot id).pw.toNat = expectedCols op s id ∧ (s.slot id).ph.toNat = expectedRows op s id ∧
      (s.slot id).pw.toNat * Op.bpp op id ≤ (s.slot id).stride.toNat ∧
      (s.slot id).base.toNat + ((s.slot id).ph.toNat - 1) * (s.slot id).stride.toNat +
        (s.slot id).pw.toNat * Op.bpp op id ≤ 2 ^ 32) ↔ ¬GeometryFault op s ∧ ¬SizeFault s := by
    simp only [GeometryFault, SizeFault, not_or, not_exists, not_and, ne_eq, Prod.mk.injEq, expectedCols,
      expectedRows, State.w, State.h]
    cases op <;>
    simp only [used_i420Rgb24, used_rgb24I420, used_nv12Rgb24, used_nv21Rgb24, used_rgba32I420, chromaSlots_i420Rgb24,
      chromaSlots_rgb24I420, chromaSlots_nv12Rgb24, chromaSlots_nv21Rgb24, chromaSlots_rgba32I420, List.forall_mem_cons,
      lumaSlot_i420Rgb24, lumaSlot_rgb24I420, lumaSlot_nv12Rgb24,
      lumaSlot_nv21Rgb24, lumaSlot_rgba32I420, Op.bpp, Op.role, Role.bpp] <;>
    simp only [List.mem_cons, List.not_mem_nil, reduceCtorEq, or_false, or_true, or_self, if_true, if_false, slot_in0, slot_in1,
      slot_in2, slot_out0, slot_out1, slot_out2, false_imp_iff, implies_true, and_true] <;>
    omega
  unfold Accepted
  rw [← and_assoc (a := ¬GeometryFault op s), ← key]
  tauto

end Sys2Proof.Laws
end

