-- ==== Sys2Proof/Laws/Blocks.lean ====
section
/-! SUPPORT. The blocks of an image and their order: which pixels a block has (spec 41 R157), which blocks the reference order
takes from a cursor on (10 R34), and what the orders of the kernels have in common (42 R180, R182). -/

namespace Sys2Proof.Laws
open Sys2Proof Sys2Proof.Machine

/-- A block has exactly the image's pixels whose chroma position it is (41 R157, 20 R66). -/
theorem mem_blockPixels (w h row col x y : Nat) :
    (x, y) ∈ blockPixels w h row col ↔ x < w ∧ y < h ∧ x / 2 = col ∧ y / 2 = row := by
  simp only [blockPixels, List.mem_filter, List.mem_cons, Prod.mk.injEq, List.not_mem_nil, or_false, Bool.and_eq_true,
    decide_eq_true_eq]
  omega

theorem mem_rowBlocks (cw row col : Nat) (b : Cursor) :
    b ∈ rowBlocks cw row col ↔ b.row = row ∧ col ≤ b.col ∧ b.col < cw := by
  obtain ⟨br, bc⟩ := b
  simp only [rowBlocks, List.mem_map, List.mem_range'_1, Cursor.mk.injEq]
  constructor
  · rintro ⟨c, hc, rfl, rfl⟩
    omega
  · rintro ⟨rfl, h1, h2⟩
    exact ⟨bc, by omega, rfl, rfl⟩

/-- The blocks from a cursor on: the rest of its block row and all later block rows (10 R34). -/
theorem mem_blocksFrom (cw ch : Nat) (k b : Cursor) :
    b ∈ blocksFrom cw ch k ↔
      b.row < ch ∧ b.col < cw ∧ ((b.row = k.row ∧ k.col ≤ b.col) ∨ k.row < b.row) := by
  unfold blocksFrom
  split
  · simp only [List.mem_append, List.mem_flatMap, List.mem_range'_1, mem_rowBlocks]
    constructor
    · rintro (h | ⟨r, hr, h⟩) <;> omega
    · intro h
      rcases h.2.2 with h' | h'
      · exact .inl ⟨h'.1, h'.2, h.2.1⟩
      · exact .inr ⟨b.row, by omega, rfl, by omega, h.2.1⟩
  · simp only [List.not_mem_nil, false_iff]
    omega

/-- All the blocks of the image (41 R157). -/
theorem mem_blocksFrom_zero (cw ch : Nat) (b : Cursor) :
    b ∈ blocksFrom cw ch ⟨0, 0⟩ ↔ b.row < ch ∧ b.col < cw := by
  rw [mem_blocksFrom]
  dsimp only
  omega

theorem rowBlocks_step {cw row col : Nat} (h : col < cw) :
    rowBlocks cw row col = ⟨row, col⟩ :: rowBlocks cw row (col + 1) := by
  obtain ⟨n, hn⟩ : ∃ n, cw - col = n + 1 := ⟨cw - col - 1, by omega⟩
  have hn' : cw - (col + 1) = n := by omega
  simp [rowBlocks, hn, hn', List.range'_succ]

theorem rowBlocks_end {cw row col : Nat} (h : cw ≤ col) : rowBlocks cw row col = [] := by
  have : cw - col = 0 := by omega
  simp [rowBlocks, this]

/-- The reference order steps with the cursor (10 R34). -/
theorem blocksFrom_step {cw ch : Nat} {k : Cursor} (hr : k.row < ch) (hc : k.col < cw) :
    blocksFrom cw ch k =
      k :: (match nextCursor cw ch k with
            | some k' => blocksFrom cw ch k'
            | none => []) := by
  obtain ⟨r, c⟩ := k
  simp only at hr hc
  unfold nextCursor
  by_cases h1 : c + 1 < cw
  · rw [if_pos h1]
    simp only [blocksFrom, if_pos hr]
    rw [rowBlocks_step hc, List.cons_append]
  · rw [if_neg h1]
    by_cases h2 : r + 1 < ch
    · rw [if_pos h2]
      simp only [blocksFrom, if_pos hr, if_pos h2]
      rw [rowBlocks_step hc, rowBlocks_end (by omega)]
      obtain ⟨n, hn⟩ : ∃ n, ch - (r + 1) = n + 1 := ⟨ch - (r + 1) - 1, by omega⟩
      have hn' : ch - (r + 1 + 1) = n := by omega
      simp [hn, hn', List.range'_succ]
    · rw [if_neg h2]
      simp only [blocksFrom, if_pos hr]
      rw [rowBlocks_step hc, rowBlocks_end (by omega)]
      have : ch - (r + 1) = 0 := by omega
      simp [this]

theorem nextCursor_inRange {cw ch : Nat} {k k' : Cursor} (hr : k.row < ch) (h : nextCursor cw ch k = some k') :
    k'.row < ch ∧ k'.col < cw ∨ k'.row < ch ∧ k'.col = 0 := by
  unfold nextCursor at h
  split at h
  · cases h
    exact .inl ⟨hr, by assumption⟩
  · split at h
    · cases h
      exact .inr ⟨by assumption, rfl⟩
    · cases h

/-- The body of a vector kernel in closed form (42 R180). -/
theorem inBody_iff (w h : Nat) (b : Cursor) : inBody w h b = true ↔ b.col < 8 * (w / 16) ∧ b.row < h / 2 := by
  simp only [inBody, Bool.and_eq_true, decide_eq_true_eq]
  simp only [Config.vectorRows, Config.vectorColumns]
  omega

/-- Every block of the image is in the vector kernel's list, and it has no other (42 R180). -/
theorem mem_vectorBlocks (w h : Nat) (b : Cursor) :
    b ∈ vectorBlocks w h ↔ b.row < chromaSize h ∧ b.col < chromaSize w := by
  obtain ⟨r, c⟩ := b
  simp only [vectorBlocks, chunkBlocks, List.mem_append, List.mem_flatMap, List.mem_range, List.mem_map, List.mem_filter,
    mem_blocksFrom_zero, Cursor.mk.injEq, Bool.not_eq_true', ← Bool.not_eq_true, inBody_iff]
  simp only [Config.vectorRows, Config.vectorColumns, chromaSize]
  constructor
  · rintro (⟨row, hrow, k, hk, j, hj, rfl, rfl⟩ | h)
    · omega
    · exact h.1
  · intro hb
    by_cases hbody : c < 8 * (w / 16) ∧ r < h / 2
    · exact .inl ⟨r, by omega, c / 8, by omega, c % 8, by omega, rfl, by omega⟩
    · exact .inr ⟨hb, hbody⟩

/-- Whichever kernel a path names, it converts every block of the image and no other. -/
theorem mem_kernelBlocks (w h : Nat) (p : Path) (b : Cursor) :
    b ∈ kernelBlocks w h p ↔ b.row < chromaSize h ∧ b.col < chromaSize w := by
  cases p <;> simp only [kernelBlocks, mem_vectorBlocks, mem_blocksFrom_zero]

end Sys2Proof.Laws
end

