-- ==== Sys2Proof/Laws/Convert.lean ====
section
/-! SUPPORT. What a conversion writes: the output bytes as a relation between addresses and values (`IsOutput`), which does not
mention the order of the blocks, and the data memory after a list of blocks (spec 20 R72, R75, 41 R152 to R156). -/

namespace Sys2Proof.Laws
open Sys2Proof Sys2Proof.Machine

/-- Component k of an RGB pixel. -/
def component (px : Byte × Byte × Byte) (k : Nat) : Byte :=
  if k = 0 then px.1 else if k = 1 then px.2.1 else px.2.2

/-- The forward result of pixel (x, y) from the input bytes of `m` (41 R152 to R154). -/
def forwardResult (layout : ChromaLayout) (c : Coef) (s : State) (m : Memory) (x y : Nat) : Byte × Byte × Byte :=
  fwdPx c (m.read (s.yIn x y)) (m.read (s.uIn layout (x / 2) (y / 2))) (m.read (s.vIn layout (x / 2) (y / 2)))

/-- The inverse result of pixel (x, y), by one of INV_Y, INV_U, INV_V (41 R155, R156). -/
def inverseResult (f : Coef → Byte → Byte → Byte → Byte) (role : Role) (c : Coef) (s : State) (m : Memory)
    (x y : Nat) : Byte :=
  f c (m.read (s.rgbIn role x y 0)) (m.read (s.rgbIn role x y 1)) (m.read (s.rgbIn role x y 2))

/-- A forward kernel leaves `v` at address `a`. -/
def ForwardOutput (layout : ChromaLayout) (c : Coef) (s : State) (m : Memory) (a : Nat) (v : Byte) : Prop :=
  ∃ x < s.w, ∃ y < s.h, ∃ k < 3, a = s.rgbOut x y k ∧ v = component (forwardResult layout c s m x y) k

/-- An inverse kernel leaves `v` at address `a`. -/
def InverseOutput (role : Role) (c : Coef) (s : State) (m : Memory) (a : Nat) (v : Byte) : Prop :=
  (∃ x < s.w, ∃ y < s.h, a = s.yOut x y ∧ v = inverseResult invY role c s m x y) ∨
  (∃ cx < s.cw, ∃ cy < s.ch, a = s.uOut cx cy ∧ v = inverseResult invU role c s m (2 * cx) (2 * cy)) ∨
  (∃ cx < s.cw, ∃ cy < s.ch, a = s.vOut cx cy ∧ v = inverseResult invV role c s m (2 * cx) (2 * cy))

/-- The kernel of a conversion leaves `v` at address `a`. -/
def IsOutput (op : Op) (c : Coef) (s : State) (m : Memory) (a : Nat) (v : Byte) : Prop :=
  match op with
  | .i420Rgb24 => ForwardOutput .planar c s m a v
  | .rgb24I420 => InverseOutput .rgb24 c s m a v
  | .nv12Rgb24 => ForwardOutput .nv12 c s m a v
  | .nv21Rgb24 => ForwardOutput .nv21 c s m a v
  | .rgba32I420 => InverseOutput .rgba32 c s m a v

/-- The cells of a forward block. -/
theorem mem_forwardBlock (layout : ChromaLayout) (c : Coef) (s : State) (m : Memory) (row col a : Nat) (v : Byte) :
    (a, v) ∈ forwardBlock layout c s m row col ↔
      ∃ x < s.w, ∃ y < s.h, x / 2 = col ∧ y / 2 = row ∧ ∃ k < 3, a = s.rgbOut x y k ∧
        v = component (forwardResult layout c s m x y) k := by
  simp only [forwardBlock, List.mem_flatMap, Prod.exists, mem_blockPixels]
  constructor
  · rintro ⟨x, y, ⟨hx, hy, rfl, rfl⟩, hc⟩
    refine ⟨x, hx, y, hy, rfl, rfl, ?_⟩
    simp only [forwardPixel, List.mem_cons, Prod.mk.injEq, List.not_mem_nil, or_false] at hc
    rcases hc with h | h | h
    · exact ⟨0, by omega, h.1, h.2⟩
    · exact ⟨1, by omega, h.1, h.2⟩
    · exact ⟨2, by omega, h.1, h.2⟩
  · rintro ⟨x, hx, y, hy, rfl, rfl, k, hk, rfl, rfl⟩
    refine ⟨x, y, ⟨hx, hy, rfl, rfl⟩, ?_⟩
    have : k = 0 ∨ k = 1 ∨ k = 2 := by omega
    rcases this with rfl | rfl | rfl <;> simp [forwardPixel, component, forwardResult]

/-- The cells of an inverse block. -/
theorem mem_inverseBlock (role : Role) (c : Coef) (s : State) (m : Memory) (row col a : Nat) (v : Byte) :
    (a, v) ∈ inverseBlock role c s m row col ↔
      (∃ x < s.w, ∃ y < s.h, x / 2 = col ∧ y / 2 = row ∧ a = s.yOut x y ∧ v = inverseResult invY role c s m x y) ∨
      (2 * col < s.w ∧ 2 * row < s.h ∧
        ((a = s.uOut col row ∧ v = inverseResult invU role c s m (2 * col) (2 * row)) ∨
         (a = s.vOut col row ∧ v = inverseResult invV role c s m (2 * col) (2 * row)))) := by
  simp only [inverseBlock, List.mem_flatMap, Prod.exists, mem_blockPixels, inversePixel, List.mem_cons, Prod.mk.injEq]
  constructor
  · rintro ⟨x, y, ⟨hx, hy, rfl, rfl⟩, hc | hc⟩
    · exact .inl ⟨x, hx, y, hy, rfl, rfl, hc.1, hc.2⟩
    · split at hc
      · rename_i h
        obtain ⟨h1, h2⟩ := h
        simp only [List.mem_cons, Prod.mk.injEq, List.not_mem_nil, or_false] at hc
        refine .inr ⟨by omega, by omega, ?_⟩
        rw [← h1, ← h2]
        exact hc
      · simp at hc
  · rintro (⟨x, hx, y, hy, rfl, rfl, h⟩ | ⟨hc, hr, h⟩)
    · exact ⟨x, y, ⟨hx, hy, rfl, rfl⟩, .inl h⟩
    · refine ⟨2 * col, 2 * row, ⟨hc, hr, by omega, by omega⟩, .inr ?_⟩
      simp only [and_self, if_true, List.mem_cons, Prod.mk.injEq, List.not_mem_nil, or_false]
      exact h

/-- What a block writes is output of the conversion. -/
theorem isOutput_of_mem {op : Op} {c : Coef} {s : State} {m : Memory} {b : Cursor} {a : Nat} {v : Byte}
    (h : (a, v) ∈ scalarBlock op c s m b) : IsOutput op c s m a v := by
  have fwd : ∀ l, (a, v) ∈ forwardBlock l c s m b.row b.col → ForwardOutput l c s m a v := by
    intro l h
    obtain ⟨x, hx, y, hy, -, -, k, hk, h⟩ := (mem_forwardBlock ..).1 h
    exact ⟨x, hx, y, hy, k, hk, h⟩
  have inv : ∀ r, (a, v) ∈ inverseBlock r c s m b.row b.col → InverseOutput r c s m a v := by
    intro r h
    rcases (mem_inverseBlock ..).1 h with ⟨x, hx, y, hy, -, -, h⟩ | ⟨hc, hr, h | h⟩
    · exact .inl ⟨x, hx, y, hy, h⟩
    · exact .inr (.inl ⟨b.col, by simp only [State.cw, chromaSize]; omega, b.row,
        by simp only [State.ch, chromaSize]; omega, h⟩)
    · exact .inr (.inr ⟨b.col, by simp only [State.cw, chromaSize]; omega, b.row,
        by simp only [State.ch, chromaSize]; omega, h⟩)
  cases op
  · exact fwd _ h
  · exact inv _ h
  · exact fwd _ h
  · exact fwd _ h
  · exact inv _ h

/-- Every output of the conversion is written by a block of the image. -/
theorem mem_of_isOutput {op : Op} {c : Coef} {s : State} {m : Memory} {a : Nat} {v : Byte}
    (h : IsOutput op c s m a v) : ∃ b : Cursor, b.row < s.ch ∧ b.col < s.cw ∧ (a, v) ∈ scalarBlock op c s m b := by
  have fwd : ∀ l, ForwardOutput l c s m a v →
      ∃ b : Cursor, b.row < s.ch ∧ b.col < s.cw ∧ (a, v) ∈ forwardBlock l c s m b.row b.col := by
    rintro l ⟨x, hx, y, hy, k, hk, h⟩
    refine ⟨⟨y / 2, x / 2⟩, ?_, ?_, (mem_forwardBlock ..).2 ⟨x, hx, y, hy, rfl, rfl, k, hk, h⟩⟩ <;>
      simp only [State.ch, State.cw, chromaSize] <;> omega
  have inv : ∀ r, InverseOutput r c s m a v →
      ∃ b : Cursor, b.row < s.ch ∧ b.col < s.cw ∧ (a, v) ∈ inverseBlock r c s m b.row b.col := by
    rintro r (⟨x, hx, y, hy, h⟩ | ⟨x, hx, y, hy, h⟩ | ⟨x, hx, y, hy, h⟩)
    · refine ⟨⟨y / 2, x / 2⟩, ?_, ?_, (mem_inverseBlock ..).2 (.inl ⟨x, hx, y, hy, rfl, rfl, h⟩)⟩ <;>
        simp only [State.ch, State.cw, chromaSize] <;> omega
    · refine ⟨⟨y, x⟩, hy, hx, (mem_inverseBlock ..).2 (.inr ⟨?_, ?_, .inl h⟩)⟩ <;>
        dsimp only <;> simp only [State.ch, State.cw, chromaSize] at hx hy <;> omega
    · refine ⟨⟨y, x⟩, hy, hx, (mem_inverseBlock ..).2 (.inr ⟨?_, ?_, .inr h⟩)⟩ <;>
        dsimp only <;> simp only [State.ch, State.cw, chromaSize] at hx hy <;> omega
  cases op
  · exact fwd _ h
  · exact inv _ h
  · exact fwd _ h
  · exact fwd _ h
  · exact inv _ h

/-- The address of an element's byte lies in its plane's footprint (20 R64, R65). -/
theorem covers_addr {p : Slot} {bpp r c k : Nat} (hr : r < p.ph.toNat) (hc : c < p.pw.toNat) (hk : k < bpp) :
    Slot.covers p bpp (Slot.addr p bpp r c k) = true := by
  rw [covers_iff]
  refine ⟨r, hr, c * bpp + k, ?_, by simp only [Slot.addr, Slot.rowStart]; omega⟩
  calc c * bpp + k < c * bpp + bpp := by omega
    _ = (c + 1) * bpp := by ring
    _ ≤ p.pw.toNat * bpp := Nat.mul_le_mul_right _ hc

/-- A byte of a plane that fits below 2^32 has a 32-bit address (20 R64, 43 R203 G6). -/
theorem lt_addressSpace_of_covers {p : Slot} {bpp a : Nat} (h : Slot.covers p bpp a = true)
    (ht : p.base.toNat + (p.ph.toNat - 1) * p.stride.toNat + p.pw.toNat * bpp ≤ 2 ^ 32) : a < Config.addressSpace := by
  obtain ⟨r, hr, k, hk, rfl⟩ := (covers_iff ..).1 h
  have : r * p.stride.toNat ≤ (p.ph.toNat - 1) * p.stride.toNat := Nat.mul_le_mul_right _ (by omega)
  simp only [Config.addressSpace]
  omega

/-- Rows of a plane do not overlap when the stride has room for them (20 R64). -/
theorem row_inj {S L r r' i i' : Nat} (hL : L ≤ S) (hi : i < L) (hi' : i' < L) (h : r * S + i = r' * S + i') :
    r = r' ∧ i = i' := by
  have hS : 0 < S := by omega
  have h1 : (r * S + i) / S = r := by
    rw [Nat.mul_comm, Nat.mul_add_div hS, Nat.div_eq_of_lt (by omega)]
    rfl
  have h2 : (r' * S + i') / S = r' := by
    rw [Nat.mul_comm, Nat.mul_add_div hS, Nat.div_eq_of_lt (by omega)]
    rfl
  have : r = r' := by rw [← h1, ← h2, h]
  subst this
  exact ⟨rfl, by omega⟩

/-- Different elements and bytes of a plane have different addresses (20 R65). -/
theorem addr_inj {p : Slot} {bpp r c k r' c' k' : Nat} (hs : p.pw.toNat * bpp ≤ p.stride.toNat)
    (hc : c < p.pw.toNat) (hc' : c' < p.pw.toNat) (hk : k < bpp) (hk' : k' < bpp)
    (h : Slot.addr p bpp r c k = Slot.addr p bpp r' c' k') : r = r' ∧ c = c' ∧ k = k' := by
  have hb : ∀ d, d < p.pw.toNat → ∀ j, j < bpp → d * bpp + j < p.pw.toNat * bpp := by
    intro d hd j hj
    calc d * bpp + j < d * bpp + bpp := by omega
      _ = (d + 1) * bpp := by ring
      _ ≤ p.pw.toNat * bpp := Nat.mul_le_mul_right _ hd
  simp only [Slot.addr, Slot.rowStart] at h
  have h' : r * p.stride.toNat + (c * bpp + k) = r' * p.stride.toNat + (c' * bpp + k') := by omega
  obtain ⟨hr, hi⟩ := row_inj hs (hb c hc k hk) (hb c' hc' k' hk') h'
  obtain ⟨h1, h2⟩ := row_inj (Nat.le_refl bpp) hk hk' hi
  exact ⟨hr, h1, h2⟩

end Sys2Proof.Laws
end

