-- ==== Sys2Proof/Laws/Result.lean ====
section
/-! SUPPORT. The data memory after an accepted job's blocks (spec 20 R64, R71, R72, R75; 42 R182): outputs lie in the write set
and below 2^32, each output byte has one value, blocks read inputs only, and the order of the blocks does not matter. -/

namespace Sys2Proof.Laws
open Sys2Proof Sys2Proof.Machine

section
variable {op : Op} {variant : Variant} {s : State}

/-- A used plane that is not chroma is W × H, with room for its rows (43 R204). -/
theorem plane_size (h : Accepted op variant s) {id : SlotId} (hu : id ∈ Op.used op) (hc : id ∉ Op.chromaSlots op) :
    (s.slot id).pw.toNat = s.w ∧ (s.slot id).ph.toNat = s.h := by
  obtain ⟨h1, h2, -⟩ := h.2.2.1 id hu
  rw [expectedCols, if_neg hc] at h1
  rw [expectedRows, if_neg hc] at h2
  exact ⟨h1, h2⟩

/-- A chroma plane is cw × ch (43 R204). -/
theorem chroma_size (h : Accepted op variant s) {id : SlotId} (hu : id ∈ Op.used op) (hc : id ∈ Op.chromaSlots op) :
    (s.slot id).pw.toNat = s.cw ∧ (s.slot id).ph.toNat = s.ch := by
  obtain ⟨h1, h2, -⟩ := h.2.2.1 id hu
  rw [expectedCols, if_pos hc] at h1
  rw [expectedRows, if_pos hc] at h2
  exact ⟨h1, h2⟩

/-- A used plane's stride has room for its row (43 R203 G4). -/
theorem plane_room (h : Accepted op variant s) {id : SlotId} (hu : id ∈ Op.used op) :
    (s.slot id).pw.toNat * Op.bpp op id ≤ (s.slot id).stride.toNat := (h.2.2.1 id hu).2.2.1

/-- Every footprint byte of a used plane has a 32-bit address (20 R64). -/
theorem plane_inSpace (h : Accepted op variant s) {id : SlotId} (hu : id ∈ Op.used op) {a : Nat}
    (ha : Slot.covers (s.slot id) (Op.bpp op id) a = true) : a < Config.addressSpace :=
  lt_addressSpace_of_covers ha (h.2.2.1 id hu).2.2.2

theorem writeSet_inSpace (h : Accepted op variant s) {a : Nat} (ha : s.inWriteSet op a = true) :
    a < Config.addressSpace := by
  obtain ⟨id, hid, hc⟩ := (inWriteSet_iff ..).1 ha
  exact plane_inSpace h (List.mem_append_right _ hid) hc

/-- No byte is in both the read set and the write set of a job with disjoint planes (20 R80). -/
theorem readSet_not_writeSet (hd : DisjointPlanes op s) {a : Nat} (hr : s.inReadSet op a = true) :
    s.inWriteSet op a = false := by
  rw [← Bool.not_eq_true]
  intro hw
  obtain ⟨i, hi, hci⟩ := (inReadSet_iff ..).1 hr
  obtain ⟨o, ho, hco⟩ := (inWriteSet_iff ..).1 hw
  refine hd o ho i (List.mem_append_left _ hi) ?_ a ⟨hco, hci⟩
  rintro rfl
  simp only [Op.inputs, Op.outputs, List.mem_filter, List.mem_cons, List.not_mem_nil, or_false] at hi ho
  rcases hi.1 with rfl | rfl | rfl <;> simp at ho

theorem covers_rgbOut (h : Accepted op variant s) (hf : Op.forward op = true) {x y k : Nat} (hx : x < s.w) (hy : y < s.h)
    (hk : k < 3) : Slot.covers s.out0 (Op.bpp op .out0) (s.rgbOut x y k) = true := by
  have hb : Op.bpp op .out0 = 3 := by cases op <;> first | rfl | simp at hf
  obtain ⟨h1, h2⟩ := plane_size (id := .out0) h (by cases op <;> simp) (by cases op <;> simp)
  rw [slot_out0] at h1 h2
  rw [hb]
  exact covers_addr (by rw [h2]; exact hy) (by rw [h1]; exact hx) hk

theorem covers_yOut (h : Accepted op variant s) (hf : Op.forward op = false) {x y : Nat} (hx : x < s.w) (hy : y < s.h) :
    Slot.covers s.out0 (Op.bpp op .out0) (s.yOut x y) = true := by
  have hb : Op.bpp op .out0 = 1 := by cases op <;> first | rfl | simp at hf
  obtain ⟨h1, h2⟩ := plane_size (id := .out0) h (by cases op <;> simp) (by cases op <;> simp)
  rw [slot_out0] at h1 h2
  rw [hb]
  exact covers_addr (by rw [h2]; exact hy) (by rw [h1]; exact hx) (by decide)

theorem covers_uOut (h : Accepted op variant s) (hf : Op.forward op = false) {x y : Nat} (hx : x < s.cw) (hy : y < s.ch) :
    Slot.covers s.out1 (Op.bpp op .out1) (s.uOut x y) = true := by
  have hb : Op.bpp op .out1 = 1 := by cases op <;> first | rfl | simp at hf
  obtain ⟨h1, h2⟩ := chroma_size (id := .out1) h (by cases op <;> first | (simp; done) | simp at hf)
    (by cases op <;> first | (simp; done) | simp at hf)
  rw [slot_out1] at h1 h2
  rw [hb]
  exact covers_addr (by rw [h2]; exact hy) (by rw [h1]; exact hx) (by decide)

theorem covers_vOut (h : Accepted op variant s) (hf : Op.forward op = false) {x y : Nat} (hx : x < s.cw) (hy : y < s.ch) :
    Slot.covers s.out2 (Op.bpp op .out2) (s.vOut x y) = true := by
  have hb : Op.bpp op .out2 = 1 := by cases op <;> first | rfl | simp at hf
  obtain ⟨h1, h2⟩ := chroma_size (id := .out2) h (by cases op <;> first | (simp; done) | simp at hf)
    (by cases op <;> first | (simp; done) | simp at hf)
  rw [slot_out2] at h1 h2
  rw [hb]
  exact covers_addr (by rw [h2]; exact hy) (by rw [h1]; exact hx) (by decide)

/-- What the kernel writes lies in the write set (20 R71). -/
theorem isOutput_inWriteSet (h : Accepted op variant s) {c : Coef} {m : Memory} {a : Nat} {v : Byte}
    (ho : IsOutput op c s m a v) : s.inWriteSet op a = true := by
  rw [inWriteSet_iff]
  have fwd : ∀ l, Op.forward op = true → ForwardOutput l c s m a v →
      ∃ id ∈ Op.outputs op, Slot.covers (s.slot id) (Op.bpp op id) a = true := by
    rintro l hf ⟨x, hx, y, hy, k, hk, rfl, -⟩
    exact ⟨.out0, by cases op <;> simp, covers_rgbOut h hf hx hy hk⟩
  have inv : ∀ r, Op.forward op = false → InverseOutput r c s m a v →
      ∃ id ∈ Op.outputs op, Slot.covers (s.slot id) (Op.bpp op id) a = true := by
    rintro r hf (⟨x, hx, y, hy, rfl, -⟩ | ⟨x, hx, y, hy, rfl, -⟩ | ⟨x, hx, y, hy, rfl, -⟩)
    · exact ⟨.out0, by cases op <;> simp, covers_yOut h hf hx hy⟩
    · exact ⟨.out1, by cases op <;> first | (simp; done) | simp at hf, covers_uOut h hf hx hy⟩
    · exact ⟨.out2, by cases op <;> first | (simp; done) | simp at hf, covers_vOut h hf hx hy⟩
  cases op
  · exact fwd _ rfl ho
  · exact inv _ rfl ho
  · exact fwd _ rfl ho
  · exact fwd _ rfl ho
  · exact inv _ rfl ho

/-- A footprint byte of a plane of one-byte elements, as the address of an element. -/
theorem covers_elem {p : Slot} {bpp a : Nat} (h : Slot.covers p bpp a = true) :
    ∃ r < p.ph.toNat, ∃ c < p.pw.toNat, ∃ k < bpp, a = Slot.addr p bpp r c k := by
  obtain ⟨r, hr, i, hi, rfl⟩ := (covers_iff ..).1 h
  have hb : 0 < bpp := by
    rcases Nat.eq_zero_or_pos bpp with rfl | hb
    · simp at hi
    · exact hb
  have hdm := Nat.div_add_mod i bpp
  rw [Nat.mul_comm] at hdm
  refine ⟨r, hr, i / bpp, Nat.div_lt_of_lt_mul (by rwa [Nat.mul_comm] at hi), i % bpp, Nat.mod_lt _ hb, ?_⟩
  simp only [Slot.addr, Slot.rowStart]
  omega

/-- Every byte of the write set is output of the kernel (20 R72: "Every byte of the write set is written"). -/
theorem exists_isOutput (h : Accepted op variant s) (c : Coef) (m : Memory) {a : Nat} (ha : s.inWriteSet op a = true) :
    ∃ v, IsOutput op c s m a v := by
  obtain ⟨id, hid, hc⟩ := (inWriteSet_iff ..).1 ha
  obtain ⟨r, hr, x, hx, k, hk, rfl⟩ := covers_elem hc
  have fwd : ∀ l, Op.forward op = true →
      ∃ v, ForwardOutput l c s m (Slot.addr (s.slot id) (Op.bpp op id) r x k) v := by
    intro l hf
    have hid' : id = .out0 := by cases op <;> first | simpa using hid | simp at hf
    subst hid'
    have hb : Op.bpp op .out0 = 3 := by cases op <;> first | rfl | simp at hf
    obtain ⟨h1, h2⟩ := plane_size (id := .out0) h (List.mem_append_right _ hid)
      (by cases op <;> simp)
    rw [h2] at hr
    rw [h1] at hx
    rw [hb] at hk ⊢
    exact ⟨_, x, hx, r, hr, k, hk, rfl, rfl⟩
  have inv : ∀ ro, Op.forward op = false →
      ∃ v, InverseOutput ro c s m (Slot.addr (s.slot id) (Op.bpp op id) r x k) v := by
    intro ro hf
    have hb : Op.bpp op id = 1 := by
      cases op <;> first | (simp at hid; rcases hid with rfl | rfl | rfl <;> rfl) | simp at hf
    have hk0 : k = 0 := by omega
    subst hk0
    rw [hb]
    have hid' : id = .out0 ∨ id = .out1 ∨ id = .out2 := by
      cases op <;> first | simpa using hid | simp at hf
    rcases hid' with rfl | rfl | rfl
    · obtain ⟨h1, h2⟩ := plane_size (id := .out0) h (List.mem_append_right _ hid)
        (by cases op <;> simp)
      rw [h2] at hr
      rw [h1] at hx
      exact ⟨_, .inl ⟨x, hx, r, hr, rfl, rfl⟩⟩
    · obtain ⟨h1, h2⟩ := chroma_size (id := .out1) h (List.mem_append_right _ hid)
        (by cases op <;> first | (simp; done) | simp at hf)
      rw [h2] at hr
      rw [h1] at hx
      exact ⟨_, .inr (.inl ⟨x, hx, r, hr, rfl, rfl⟩)⟩
    · obtain ⟨h1, h2⟩ := chroma_size (id := .out2) h (List.mem_append_right _ hid)
        (by cases op <;> first | (simp; done) | simp at hf)
      rw [h2] at hr
      rw [h1] at hx
      exact ⟨_, .inr (.inr ⟨x, hx, r, hr, rfl, rfl⟩)⟩
  cases op
  · exact fwd _ rfl
  · exact inv _ rfl
  · exact fwd _ rfl
  · exact fwd _ rfl
  · exact inv _ rfl

/-- An output byte has one value (20 R72: "written exactly once per job, with its final value"). -/
theorem isOutput_unique (h : Accepted op variant s) (hd : DisjointPlanes op s) {c : Coef} {m : Memory} {a : Nat}
    {v v' : Byte} (ho : IsOutput op c s m a v) (ho' : IsOutput op c s m a v') : v = v' := by
  have fwd : ∀ l, Op.forward op = true → ForwardOutput l c s m a v → ForwardOutput l c s m a v' → v = v' := by
    rintro l hf ⟨x, hx, y, hy, k, hk, rfl, rfl⟩ ⟨x', hx', y', hy', k', hk', he, rfl⟩
    have hb : Op.bpp op .out0 = 3 := by cases op <;> first | rfl | simp at hf
    have hu : SlotId.out0 ∈ Op.used op := by cases op <;> simp
    obtain ⟨h1, -⟩ := plane_size (id := .out0) h hu (by cases op <;> simp)
    have hr := plane_room (id := .out0) h hu
    rw [hb] at hr
    rw [slot_out0] at h1 hr
    obtain ⟨rfl, rfl, rfl⟩ := addr_inj hr (by rw [h1]; exact hx) (by rw [h1]; exact hx') hk hk' he
    rfl
  have inv : ∀ r, Op.forward op = false → InverseOutput r c s m a v → InverseOutput r c s m a v' → v = v' := by
    intro r hf o o'
    have m0 : SlotId.out0 ∈ Op.outputs op := by cases op <;> simp
    have m1 : SlotId.out1 ∈ Op.outputs op := by cases op <;> first | (simp; done) | simp at hf
    have m2 : SlotId.out2 ∈ Op.outputs op := by cases op <;> first | (simp; done) | simp at hf
    have u0 := List.mem_append_right (Op.inputs op) m0
    have u1 := List.mem_append_right (Op.inputs op) m1
    have u2 := List.mem_append_right (Op.inputs op) m2
    have b0 : Op.bpp op .out0 = 1 := by cases op <;> first | rfl | simp at hf
    have b1 : Op.bpp op .out1 = 1 := by cases op <;> first | rfl | simp at hf
    have b2 : Op.bpp op .out2 = 1 := by cases op <;> first | rfl | simp at hf
    have s0 := (plane_size (id := .out0) h u0 (by cases op <;> simp)).1
    have s1 := (chroma_size (id := .out1) h u1 (by cases op <;> first | (simp; done) | simp at hf)).1
    have s2 := (chroma_size (id := .out2) h u2 (by cases op <;> first | (simp; done) | simp at hf)).1
    have r0 := plane_room h u0
    have r1 := plane_room h u1
    have r2 := plane_room h u2
    rw [b0] at r0
    rw [b1] at r1
    rw [b2] at r2
    rcases o with ⟨x, hx, y, hy, e, rfl⟩ | ⟨x, hx, y, hy, e, rfl⟩ | ⟨x, hx, y, hy, e, rfl⟩ <;>
    rcases o' with ⟨x', hx', y', hy', e', rfl⟩ | ⟨x', hx', y', hy', e', rfl⟩ | ⟨x', hx', y', hy', e', rfl⟩
    · obtain ⟨rfl, rfl, -⟩ := addr_inj (k := 0) (k' := 0) r0 (by rw [s0]; exact hx) (by rw [s0]; exact hx') (by decide)
        (by decide) (e.symm.trans e')
      rfl
    · exact absurd ⟨e' ▸ covers_uOut h hf hx' hy', e ▸ covers_yOut h hf hx hy⟩ (hd .out1 m1 .out0 u0 (by decide) a)
    · exact absurd ⟨e' ▸ covers_vOut h hf hx' hy', e ▸ covers_yOut h hf hx hy⟩ (hd .out2 m2 .out0 u0 (by decide) a)
    · exact absurd ⟨e ▸ covers_uOut h hf hx hy, e' ▸ covers_yOut h hf hx' hy'⟩ (hd .out1 m1 .out0 u0 (by decide) a)
    · obtain ⟨rfl, rfl, -⟩ := addr_inj (k := 0) (k' := 0) r1 (by rw [s1]; exact hx) (by rw [s1]; exact hx') (by decide)
        (by decide) (e.symm.trans e')
      rfl
    · exact absurd ⟨e ▸ covers_uOut h hf hx hy, e' ▸ covers_vOut h hf hx' hy'⟩ (hd .out1 m1 .out2 u2 (by decide) a)
    · exact absurd ⟨e ▸ covers_vOut h hf hx hy, e' ▸ covers_yOut h hf hx' hy'⟩ (hd .out2 m2 .out0 u0 (by decide) a)
    · exact absurd ⟨e' ▸ covers_uOut h hf hx' hy', e ▸ covers_vOut h hf hx hy⟩ (hd .out1 m1 .out2 u2 (by decide) a)
    · obtain ⟨rfl, rfl, -⟩ := addr_inj (k := 0) (k' := 0) r2 (by rw [s2]; exact hx) (by rw [s2]; exact hx') (by decide)
        (by decide) (e.symm.trans e')
      rfl
  cases op
  · exact fwd _ rfl ho ho'
  · exact inv _ rfl ho ho'
  · exact fwd _ rfl ho ho'
  · exact fwd _ rfl ho ho'
  · exact inv _ rfl ho ho'

end

end Sys2Proof.Laws
end

