-- ==== Sys2Proof/Laws/Job.lean ====
section
/-! SUPPORT. The data memory that a list of blocks leaves (spec 20 R72, R75), and what a command, a job and a sequencer
transition answer, once each (43 R201). -/

namespace Sys2Proof.Laws
open Sys2Proof Sys2Proof.Machine

section
variable {op : Op} {variant : Variant} {s : State}

/-- Two memories that agree on the read set give a block of the image the same bytes (20 R72). -/
theorem scalarBlock_congr (h : Accepted op variant s) (c : Coef) {m m' : Memory} {b : Cursor} (hr : b.row < s.ch)
    (hc : b.col < s.cw) (he : ∀ a, s.inReadSet op a = true → m.read a = m'.read a) :
    scalarBlock op c s m b = scalarBlock op c s m' b := by
  have read : ∀ id ∈ Op.inputs op, ∀ a, Slot.covers (s.slot id) (Op.bpp op id) a = true → m.read a = m'.read a :=
    fun id hid a ha => he a ((inReadSet_iff ..).2 ⟨id, hid, ha⟩)
  have px : ∀ f : Nat × Nat → List Host.Cell, ∀ g : Nat × Nat → List Host.Cell,
      (∀ x y, x < s.w → y < s.h → x / 2 = b.col → y / 2 = b.row → f (x, y) = g (x, y)) →
      (blockPixels s.w s.h b.row b.col).flatMap f = (blockPixels s.w s.h b.row b.col).flatMap g := by
    intro f g hfg
    refine List.flatMap_congr ?_
    rintro ⟨x, y⟩ hp
    obtain ⟨h1, h2, h3, h4⟩ := (mem_blockPixels ..).1 hp
    exact hfg x y h1 h2 h3 h4
  have fwd : ∀ l, Op.forward op = true →
      m.read (s.uIn l b.col b.row) = m'.read (s.uIn l b.col b.row) →
      m.read (s.vIn l b.col b.row) = m'.read (s.vIn l b.col b.row) →
      forwardBlock l c s m b.row b.col = forwardBlock l c s m' b.row b.col := by
    intro l hf hu hv
    refine px _ _ fun x y hx hy _ _ => ?_
    have hb : Op.bpp op .in0 = 1 := by cases op <;> first | rfl | simp at hf
    have m0 : SlotId.in0 ∈ Op.inputs op := by cases op <;> simp
    obtain ⟨h1, h2⟩ := plane_size (id := .in0) h (List.mem_append_left _ m0)
      (by cases op <;> simp)
    rw [slot_in0] at h1 h2
    have hy : m.read (s.yIn x y) = m'.read (s.yIn x y) := by
      refine read .in0 m0 _ ?_
      rw [hb]
      exact covers_addr (by rw [slot_in0, h2]; exact hy) (by rw [slot_in0, h1]; exact hx) (by decide)
    simp only [forwardPixel, hy, hu, hv]
  have inv : ∀ r : Role, Op.forward op = false → Op.bpp op .in0 = r.bpp → 3 ≤ r.bpp →
      inverseBlock r c s m b.row b.col = inverseBlock r c s m' b.row b.col := by
    intro r hf hb h3
    refine px _ _ fun x y hx hy _ _ => ?_
    have m0 : SlotId.in0 ∈ Op.inputs op := by cases op <;> simp
    obtain ⟨h1, h2⟩ := plane_size (id := .in0) h (List.mem_append_left _ m0)
      (by cases op <;> simp)
    rw [slot_in0] at h1 h2
    have hk : ∀ k < 3, m.read (s.rgbIn r x y k) = m'.read (s.rgbIn r x y k) := by
      intro k hk
      refine read .in0 m0 _ ?_
      rw [hb]
      exact covers_addr (by rw [slot_in0, h2]; exact hy) (by rw [slot_in0, h1]; exact hx) (by omega)
    simp only [inversePixel, hk 0 (by decide), hk 1 (by decide), hk 2 (by decide)]
  cases op
  · obtain ⟨u1, u2⟩ := chroma_size (id := .in1) h (by simp) (by simp)
    obtain ⟨v1, v2⟩ := chroma_size (id := .in2) h (by simp) (by simp)
    rw [slot_in1] at u1 u2
    rw [slot_in2] at v1 v2
    exact fwd .planar rfl
      (read .in1 (by simp) _ (covers_addr (by rw [slot_in1, u2]; exact hr) (by rw [slot_in1, u1]; exact hc) (by decide)))
      (read .in2 (by simp) _ (covers_addr (by rw [slot_in2, v2]; exact hr) (by rw [slot_in2, v1]; exact hc) (by decide)))
  · exact inv .rgb24 rfl rfl (by decide)
  · obtain ⟨u1, u2⟩ := chroma_size (id := .in1) h (by simp) (by simp)
    rw [slot_in1] at u1 u2
    exact fwd .nv12 rfl
      (read .in1 (by simp) _ (covers_addr (by rw [slot_in1, u2]; exact hr) (by rw [slot_in1, u1]; exact hc) (by decide)))
      (read .in1 (by simp) _ (covers_addr (by rw [slot_in1, u2]; exact hr) (by rw [slot_in1, u1]; exact hc) (by decide)))
  · obtain ⟨u1, u2⟩ := chroma_size (id := .in1) h (by simp) (by simp)
    rw [slot_in1] at u1 u2
    exact fwd .nv21 rfl
      (read .in1 (by simp) _ (covers_addr (by rw [slot_in1, u2]; exact hr) (by rw [slot_in1, u1]; exact hc) (by decide)))
      (read .in1 (by simp) _ (covers_addr (by rw [slot_in1, u2]; exact hr) (by rw [slot_in1, u1]; exact hc) (by decide)))
  · exact inv .rgba32 rfl rfl (by decide)

/-- The cells of every block lie in the write set and below 2^32. -/
theorem scalarBlock_inWriteSet (h : Accepted op variant s) {c : Coef} {m : Memory} {b : Cursor} {d : Host.Cell}
    (hd : d ∈ scalarBlock op c s m b) : s.inWriteSet op d.1 = true :=
  isOutput_inWriteSet h (isOutput_of_mem (v := d.2) hd)

theorem scalarBlock_inSpace (h : Accepted op variant s) {c : Coef} {m : Memory} {b : Cursor} {d : Host.Cell}
    (hd : d ∈ scalarBlock op c s m b) : d.1 < Config.addressSpace :=
  writeSet_inSpace h (scalarBlock_inWriteSet h hd)

@[simp] theorem convert_nil (op : Op) (c : Coef) (s : State) (m : Memory) : convert op c s m [] = m := rfl

@[simp] theorem convert_cons (op : Op) (c : Coef) (s : State) (m : Memory) (b : Cursor) (bs : List Cursor) :
    convert op c s m (b :: bs) = convert op c s (m.writeAll (scalarBlock op c s m b)) bs := rfl

/-- A conversion leaves every byte outside the write set as it was (20 R67, R72). -/
theorem convert_other (h : Accepted op variant s) (c : Coef) (m : Memory) (bs : List Cursor) {a : Nat}
    (ha : s.inWriteSet op a = false) : (convert op c s m bs).read a = m.read a := by
  induction bs generalizing m with
  | nil => rfl
  | cons b bs ih =>
    rw [convert_cons, ih, read_writeAll_other]
    rintro d hd rfl
    rw [scalarBlock_inWriteSet h hd] at ha
    cases ha

/-- A conversion keeps the canonical form. -/
theorem convert_wf (h : Accepted op variant s) (c : Coef) {m : Memory} (hm : m.wf) (bs : List Cursor) :
    (convert op c s m bs).wf := by
  induction bs generalizing m with
  | nil => exact hm
  | cons b bs ih =>
    rw [convert_cons]
    exact ih (writeAll_wf hm fun d hd => scalarBlock_inSpace h hd)

/-- A conversion of blocks of the image, from the bytes its inputs hold before it (20 R75). -/
theorem convert_eq (h : Accepted op variant s) (hd : DisjointPlanes op s) (c : Coef) (m : Memory) {bs : List Cursor}
    (hb : ∀ b ∈ bs, b.row < s.ch ∧ b.col < s.cw) :
    convert op c s m bs = m.writeAll (bs.flatMap (scalarBlock op c s m)) := by
  induction bs generalizing m with
  | nil => rfl
  | cons b bs ih =>
    rw [convert_cons, ih _ fun b hb' => hb b (by simp [hb']), List.flatMap_cons, writeAll_append]
    congr 1
    refine List.flatMap_congr fun b' hb' => ?_
    obtain ⟨hr, hc⟩ := hb b' (by simp [hb'])
    refine scalarBlock_congr h c hr hc fun a ha => read_writeAll_other _ ?_
    rintro d hd' rfl
    have := readSet_not_writeSet hd ha
    rw [scalarBlock_inWriteSet h hd'] at this
    cases this

/-- A byte that a block of the list writes holds its output value at the end. -/
theorem convert_output (h : Accepted op variant s) (hd : DisjointPlanes op s) {c : Coef} {m : Memory} (hm : m.wf)
    {bs : List Cursor} (hb : ∀ b ∈ bs, b.row < s.ch ∧ b.col < s.cw) {b : Cursor} (hbs : b ∈ bs) {a : Nat} {v : Byte}
    (hv : (a, v) ∈ scalarBlock op c s m b) : (convert op c s m bs).read a = v := by
  rw [convert_eq h hd c m hb]
  refine read_writeAll_of_mem hm ?_ (List.mem_flatMap.2 ⟨b, hbs, hv⟩) ?_
  · intro d hd'
    obtain ⟨b', -, hd'⟩ := List.mem_flatMap.1 hd'
    exact scalarBlock_inSpace h hd'
  · rintro ⟨a', v'⟩ hd' rfl
    obtain ⟨b', -, hd'⟩ := List.mem_flatMap.1 hd'
    exact isOutput_unique h hd (isOutput_of_mem hd') (isOutput_of_mem hv)

/-- After all the blocks of the image every output byte holds its value, whatever the order of the blocks (20 R75). -/
theorem convert_isOutput (h : Accepted op variant s) (hd : DisjointPlanes op s) {c : Coef} {m : Memory} (hm : m.wf)
    {bs : List Cursor} (hb : ∀ b : Cursor, b ∈ bs ↔ b.row < s.ch ∧ b.col < s.cw) {a : Nat} {v : Byte}
    (hv : IsOutput op c s m a v) : (convert op c s m bs).read a = v := by
  obtain ⟨b, hr, hc, hmem⟩ := mem_of_isOutput hv
  exact convert_output h hd hm (fun b hb' => (hb b).1 hb') ((hb b).2 ⟨hr, hc⟩) hmem

/-- The order of the blocks does not show in the data memory (20 R75, 42 R182). -/
theorem convert_order (h : Accepted op variant s) (hd : DisjointPlanes op s) (c : Coef) {m : Memory} (hm : m.wf)
    {bs bs' : List Cursor} (hb : ∀ b : Cursor, b ∈ bs ↔ b.row < s.ch ∧ b.col < s.cw)
    (hb' : ∀ b : Cursor, b ∈ bs' ↔ b.row < s.ch ∧ b.col < s.cw) : convert op c s m bs = convert op c s m bs' := by
  refine memory_ext (convert_wf h c hm bs) (convert_wf h c hm bs') fun a => ?_
  cases ha : s.inWriteSet op a with
  | false => rw [convert_other h c m bs ha, convert_other h c m bs' ha]
  | true =>
    obtain ⟨v, hv⟩ := exists_isOutput h c m ha
    rw [convert_isOutput h hd hm hb hv, convert_isOutput h hd hm hb' hv]

/-- The free cells of a job: its uncertain addresses in the write set, each with its free byte (93 U2, U3). -/
theorem mem_freeCells_iff {d : Host.Cell} :
    d ∈ freeCells op s ↔ s.inWriteSet op d.1 = true ∧ uncertain op s d.1 = true ∧ d.2 = Config.freeByte s.draws d.1 := by
  obtain ⟨a, v⟩ := d
  simp only [freeCells, List.mem_map, List.mem_filter, mem_writeSet_iff, Prod.mk.injEq]
  constructor
  · rintro ⟨a', ⟨hw, hu⟩, rfl, rfl⟩
    exact ⟨hw, hu, rfl⟩
  · rintro ⟨hw, hu, rfl⟩
    exact ⟨a, ⟨hw, hu⟩, rfl, rfl⟩

/-- The free cells lie below 2^32. -/
theorem freeCells_inSpace (h : Accepted op variant s) {d : Host.Cell} (hd : d ∈ freeCells op s) :
    d.1 < Config.addressSpace :=
  writeSet_inSpace h (mem_freeCells_iff.1 hd).1

/-- An uncertain byte of the write set becomes free (93 U2, U3). -/
theorem read_freeCells (h : Accepted op variant s) {m : Memory} (hm : m.wf) {a : Nat} (ha : s.inWriteSet op a = true)
    (hu : uncertain op s a = true) : (m.writeAll (freeCells op s)).read a = Config.freeByte s.draws a := by
  refine read_writeAll_of_mem hm (fun d hd => freeCells_inSpace h hd) (mem_freeCells_iff.2 ⟨ha, hu, rfl⟩) ?_
  rintro ⟨a', v⟩ hd rfl
  exact (mem_freeCells_iff.1 hd).2.2

/-- Every other byte keeps its value. -/
theorem read_freeCells_other (m : Memory) {a : Nat} (ha : s.inWriteSet op a = false ∨ uncertain op s a = false) :
    (m.writeAll (freeCells op s)).read a = m.read a := by
  refine read_writeAll_other m ?_
  rintro d hd rfl
  obtain ⟨hw, hu, -⟩ := mem_freeCells_iff.1 hd
  rcases ha with ha | ha
  · rw [hw] at ha
    cases ha
  · rw [hu] at ha
    cases ha

end

/-- Every command is its job: the conversion, the variant and the standard of the command. -/
theorem exec_eq (i : Instr) (s : State) : exec i s = runJob i.op i.variant i.std s := by
  cases i <;> rfl

/-- What a whole job answers, once (43 R201). -/
theorem runJob_cases (op : Op) (variant : Variant) (std : Nat) (s : State) :
    (∃ e, validate op variant std s = .error e ∧ s.phase = .run ∧
      runJob op variant std s = .fault .runWithoutValidation) ∨
    (∃ e, validate op variant std s = .error e ∧ s.phase ≠ .run ∧ runJob op variant std s = .next (State.raise e s)) ∨
    (∃ st, validate op variant std s = .ok st ∧ s.phase = .run ∧
      runJob op variant std s = .next (convertRest op variant st s)) ∨
    (∃ st, validate op variant std s = .ok st ∧ s.phase ≠ .run ∧
      runJob op variant std s = .next (convertAll op variant st s)) := by
  unfold runJob
  cases hv : validate op variant std s with
  | error e =>
    by_cases hp : s.phase = .run
    · exact .inl ⟨e, rfl, hp, by simp [hp]⟩
    · exact .inr (.inl ⟨e, rfl, hp, by simp [hp]⟩)
  | ok st =>
    by_cases hp : s.phase = .run
    · exact .inr (.inr (.inl ⟨st, rfl, hp, by simp [hp]⟩))
    · exact .inr (.inr (.inr ⟨st, rfl, hp, by simp [hp]⟩))

/-- What a sequencer transition answers, once (10 R33). -/
theorem advanceJob_cases (op : Op) (variant : Variant) (std : Nat) (s : State) :
    (∃ e, validate op variant std s = .error e ∧ s.phase = .run ∧
      advanceJob op variant std s = .fault .runWithoutValidation) ∨
    (∃ e, validate op variant std s = .error e ∧ s.phase ≠ .run ∧
      advanceJob op variant std s = .next (State.raise e s)) ∨
    (∃ st, validate op variant std s = .ok st ∧ s.phase = .run ∧
      advanceJob op variant std s = .next (convertOne op variant st s)) ∨
    (∃ st, validate op variant std s = .ok st ∧ s.phase ≠ .run ∧
      advanceJob op variant std s = .next (enterRun op st s)) := by
  unfold advanceJob
  cases hv : validate op variant std s with
  | error e =>
    by_cases hp : s.phase = .run
    · exact .inl ⟨e, rfl, hp, by simp [hp]⟩
    · exact .inr (.inl ⟨e, rfl, hp, by simp [hp]⟩)
  | ok st =>
    by_cases hp : s.phase = .run
    · exact .inr (.inr (.inl ⟨st, rfl, hp, by simp [hp]⟩))
    · exact .inr (.inr (.inr ⟨st, rfl, hp, by simp [hp]⟩))

/-- A job passes its checks exactly when its standard is supported and it is accepted (43 R202 to R205). -/
theorem validate_ok_iff (op : Op) (variant : Variant) (std : Nat) (s : State) (st : Standard) :
    validate op variant std s = .ok st ↔ Standard.ofField std = some st ∧ Accepted op variant s := by
  rw [accepted_iff]
  rcases validate_cases op variant std s with ⟨h, hv⟩ | ⟨st', h, hv⟩
  · simp [h, hv]
  · rw [h]
    rcases hv with ⟨hg, hv⟩ | ⟨hg, hs, hv⟩ | ⟨hg, hs, hva, hal, hv⟩ | ⟨hg, hs, hal, hv⟩
    · simp [hv, hg]
    · simp [hv, hs]
    · rw [hv]
      simp [hva, hal]
    · simp only [hv, hg, hs, Except.ok.injEq, Option.some.injEq, not_false_eq_true, true_and]
      exact ⟨fun e => ⟨e, hal⟩, fun e => e.1⟩

/-- The command that CMD holds, as the decoder's answer (30 R110). -/
theorem fetch_eq_some_iff {s : State} {i : Instr} : s.fetch = some i ↔ decode s.cmd = .ok i := by
  unfold State.fetch
  cases h : decode s.cmd <;> simp

/-- The checks read the registers of the job alone (60 R237). -/
theorem validate_regs {op : Op} {v : Variant} {std : Nat} {s t : State} (hw : t.width = s.width) (hh : t.height = s.height)
    (hs : ∀ id, t.slot id = s.slot id) : validate op v std t = validate op v std s := by
  have h0 : t.in0 = s.in0 := hs .in0
  have h3 : t.out0 = s.out0 := hs .out0
  unfold validate State.badGeometry State.zeroSize State.zeroPlane State.chromaMisfit State.shortStride State.inputMisfit
    State.planeOutside State.sizesDiffer State.aligned
  simp only [State.w, State.h, hw, hh, hs, h0, h3]
  rfl

/-- The job in progress (20 R77): CMD decodes and the checks pass. -/
theorem activeJob_iff {s : State} {op : Op} {v : Variant} {st : Standard} :
    activeJob s = some (op, v, st) ↔
      s.phase ≠ .idle ∧ ∃ i, decode s.cmd = .ok i ∧ i.op = op ∧ i.variant = v ∧ validate i.op i.variant i.std s = .ok st := by
  unfold activeJob
  by_cases hp : s.phase = .idle
  · simp [hp]
  · simp only [hp, if_false, ne_eq, not_false_eq_true, true_and]
    cases hf : s.fetch with
    | none =>
      simp only [reduceCtorEq, false_iff]
      rintro ⟨i, hi, -⟩
      rw [fetch_eq_some_iff.2 hi] at hf
      cases hf
    | some i =>
      have hi := fetch_eq_some_iff.1 hf
      cases hv : validate i.op i.variant i.std s with
      | error e =>
        simp only [hv, reduceCtorEq, false_iff]
        rintro ⟨j, hj, -, -, h⟩
        rw [hi] at hj
        cases hj
        rw [hv] at h
        cases h
      | ok st' =>
        simp only [hv, Option.some.injEq, Prod.mk.injEq]
        constructor
        · rintro ⟨rfl, rfl, rfl⟩
          exact ⟨i, hi, rfl, rfl, hv⟩
        · rintro ⟨j, hj, rfl, rfl, h⟩
          rw [hi] at hj
          cases hj
          rw [hv] at h
          cases h
          exact ⟨rfl, rfl, rfl⟩

/-- What the sequencer's invariant gives in RUN (10 R33): CMD decodes, the checks pass, COEF is the job's set, and the cursor is
in the image. -/
theorem run_validated {s : State} (hs : SequencerLegal s) (hp : s.phase = .run) :
    ∃ i st, decode s.cmd = .ok i ∧ validate i.op i.variant i.std s = .ok st ∧
      s.coef = coefficients st i.op ∧ s.cursor.row < s.ch ∧ s.cursor.col < s.cw := by
  obtain ⟨op, v, st, ha, hc, hr, hcc⟩ := hs.1 hp
  obtain ⟨-, i, hi, rfl, rfl, hv⟩ := activeJob_iff.1 ha
  exact ⟨i, st, hi, hv, hc, hr, hcc⟩

/-- A conversion reads the registers of the job and the memory alone (30 R106). -/
theorem convert_regs {op : Op} {c : Coef} {s t : State} (hw : t.width = s.width) (hh : t.height = s.height)
    (hs : ∀ id, t.slot id = s.slot id) (m : Memory) (bs : List Cursor) :
    convert op c t m bs = convert op c s m bs := by
  have h0 : t.in0 = s.in0 := hs .in0
  have h1 : t.in1 = s.in1 := hs .in1
  have h2 : t.in2 = s.in2 := hs .in2
  have h3 : t.out0 = s.out0 := hs .out0
  have h4 : t.out1 = s.out1 := hs .out1
  have h5 : t.out2 = s.out2 := hs .out2
  have : scalarBlock op c t = scalarBlock op c s := by
    funext m b
    have hi : ∀ r m a b, inverseBlock r c t m a b = inverseBlock r c s m a b := by
      intro r m a b
      simp only [inverseBlock, inversePixel, State.w, State.h, hw, hh, State.rgbIn, State.yOut, State.uOut,
        State.vOut, h0, h3, h4, h5]
    have hf : ∀ l m a b, forwardBlock l c t m a b = forwardBlock l c s m a b := by
      intro l m a b
      have hu : t.uIn l = s.uIn l := by cases l <;> (funext x y; simp only [State.uIn, h1])
      have hv : t.vIn l = s.vIn l := by cases l <;> (funext x y; simp only [State.vIn, h1, h2])
      simp only [forwardBlock, forwardPixel, State.w, State.h, hw, hh, State.yIn, State.rgbOut, h0, h3, hu, hv]
    cases op <;> simp only [scalarBlock, hi, hf]
  simp only [convert, this]

/-- The read and write sets of the job in progress (20 R71, R77). -/
theorem inActiveSets_iff {s : State} {a : Nat} :
    inActiveSets s a = true ↔
      s.phase ≠ .idle ∧ ∃ i st, decode s.cmd = .ok i ∧ validate i.op i.variant i.std s = .ok st ∧
        (s.inReadSet i.op a = true ∨ s.inWriteSet i.op a = true) := by
  unfold inActiveSets
  cases h : activeJob s with
  | none =>
    simp only [Bool.false_eq_true, false_iff]
    rintro ⟨hp, i, st, hi, hv, -⟩
    rw [activeJob_iff.2 ⟨hp, i, hi, rfl, rfl, hv⟩] at h
    cases h
  | some j =>
    obtain ⟨op, v, st⟩ := j
    obtain ⟨hp, i, hi, rfl, rfl, hv⟩ := activeJob_iff.1 h
    simp only [Bool.or_eq_true]
    constructor
    · exact fun ha => ⟨hp, i, st, hi, hv, ha⟩
    · rintro ⟨-, i', st', hi', -, ha⟩
      rw [hi] at hi'
      cases hi'
      exact ha

/-- The sets of the job in progress are those of its registers: what keeps these and the job keeps them. -/
theorem inActiveSets_regs {s t : State} (hp : s.phase ≠ .idle → t.phase ≠ .idle) (hc : t.cmd = s.cmd)
    (hw : t.width = s.width) (hh : t.height = s.height) (hs : ∀ id, t.slot id = s.slot id) {a : Nat}
    (h : inActiveSets s a = true) : inActiveSets t a = true := by
  obtain ⟨hb, i, st, hi, hv, ha⟩ := inActiveSets_iff.1 h
  refine inActiveSets_iff.2 ⟨hp hb, i, st, hc ▸ hi, (validate_regs hw hh hs).trans hv, ?_⟩
  simpa only [State.inReadSet, State.inWriteSet, hs] using ha

/-- What a host read of data memory answers while a job is in RUN (93 U3). -/
theorem hostReadMem_run {s : State} {op : Op} {v : Variant} {st : Standard} (a : Word) (hp : s.phase = .run)
    (h : activeJob s = some (op, v, st)) :
    hostReadMem a s = if s.inWriteSet op a.toNat = true
      then .next { s with readData := (midByte op st s a.toNat).setWidth 32, draws := s.draws + 1 }
      else .next { s with readData := (s.mem.read a.toNat).setWidth 32 } := by
  unfold hostReadMem
  rw [h]
  split
  · rename_i heq
    cases heq
    rfl
  · rename_i hn
    exact absurd rfl (hn _ _ _ hp)

/-- What a host read of data memory answers outside RUN (10 R36). -/
theorem hostReadMem_other {s : State} (a : Word) (hp : s.phase ≠ .run) :
    hostReadMem a s = .next { s with readData := (s.mem.read a.toNat).setWidth 32 } := by
  unfold hostReadMem
  split
  · rename_i h _
    exact absurd h hp
  · rfl

end Sys2Proof.Laws
end

