-- ==== Sys2Proof/Laws/PerInstr.lean ====
section
/-! SUPPORT. Per-instruction statements. `EncodesLegal`: a well-formed command's word has no reserved bit and its three fields
are the command's own (spec 30 R101, R105, R107). -/

namespace Sys2Proof.Laws.EncodesLegal
open Sys2Proof

/-- The word of a well-formed command has its reserved bits 0 and OP, VAR, STD in their places (30 R101). -/
def Statement (i : Instr) : Prop :=
  i.wellFormed = true →
    encode i &&& 0xFFFFFCC8#32 = 0#32 ∧ ((encode i).extractLsb' 0 3).toNat = i.op.field ∧
    ((encode i).extractLsb' 4 2).toNat = i.variant.field ∧ ((encode i).extractLsb' 8 2).toNat = i.std

theorem stdFits_cases {std : Nat} (h : stdFits std = true) : std = 0 ∨ std = 1 ∨ std = 2 ∨ std = 3 := by
  simp only [stdFits, decide_eq_true_eq] at h
  omega

theorem i420Rgb24S (std : Nat) : Statement (.i420Rgb24S std) := by
  intro h
  rcases stdFits_cases h with rfl | rfl | rfl | rfl <;> decide

theorem rgb24I420S (std : Nat) : Statement (.rgb24I420S std) := by
  intro h
  rcases stdFits_cases h with rfl | rfl | rfl | rfl <;> decide

theorem nv12Rgb24S (std : Nat) : Statement (.nv12Rgb24S std) := by
  intro h
  rcases stdFits_cases h with rfl | rfl | rfl | rfl <;> decide

theorem nv21Rgb24S (std : Nat) : Statement (.nv21Rgb24S std) := by
  intro h
  rcases stdFits_cases h with rfl | rfl | rfl | rfl <;> decide

theorem rgba32I420S (std : Nat) : Statement (.rgba32I420S std) := by
  intro h
  rcases stdFits_cases h with rfl | rfl | rfl | rfl <;> decide

theorem i420Rgb24Va (std : Nat) : Statement (.i420Rgb24Va std) := by
  intro h
  rcases stdFits_cases h with rfl | rfl | rfl | rfl <;> decide

theorem rgb24I420Va (std : Nat) : Statement (.rgb24I420Va std) := by
  intro h
  rcases stdFits_cases h with rfl | rfl | rfl | rfl <;> decide

theorem nv12Rgb24Va (std : Nat) : Statement (.nv12Rgb24Va std) := by
  intro h
  rcases stdFits_cases h with rfl | rfl | rfl | rfl <;> decide

theorem nv21Rgb24Va (std : Nat) : Statement (.nv21Rgb24Va std) := by
  intro h
  rcases stdFits_cases h with rfl | rfl | rfl | rfl <;> decide

theorem rgba32I420Va (std : Nat) : Statement (.rgba32I420Va std) := by
  intro h
  rcases stdFits_cases h with rfl | rfl | rfl | rfl <;> decide

theorem i420Rgb24Vu (std : Nat) : Statement (.i420Rgb24Vu std) := by
  intro h
  rcases stdFits_cases h with rfl | rfl | rfl | rfl <;> decide

theorem rgb24I420Vu (std : Nat) : Statement (.rgb24I420Vu std) := by
  intro h
  rcases stdFits_cases h with rfl | rfl | rfl | rfl <;> decide

theorem nv12Rgb24Vu (std : Nat) : Statement (.nv12Rgb24Vu std) := by
  intro h
  rcases stdFits_cases h with rfl | rfl | rfl | rfl <;> decide

theorem nv21Rgb24Vu (std : Nat) : Statement (.nv21Rgb24Vu std) := by
  intro h
  rcases stdFits_cases h with rfl | rfl | rfl | rfl <;> decide

theorem rgba32I420Vu (std : Nat) : Statement (.rgba32I420Vu std) := by
  intro h
  rcases stdFits_cases h with rfl | rfl | rfl | rfl <;> decide

theorem i420Rgb24Auto (std : Nat) : Statement (.i420Rgb24Auto std) := by
  intro h
  rcases stdFits_cases h with rfl | rfl | rfl | rfl <;> decide

theorem rgb24I420Auto (std : Nat) : Statement (.rgb24I420Auto std) := by
  intro h
  rcases stdFits_cases h with rfl | rfl | rfl | rfl <;> decide

theorem nv12Rgb24Auto (std : Nat) : Statement (.nv12Rgb24Auto std) := by
  intro h
  rcases stdFits_cases h with rfl | rfl | rfl | rfl <;> decide

theorem nv21Rgb24Auto (std : Nat) : Statement (.nv21Rgb24Auto std) := by
  intro h
  rcases stdFits_cases h with rfl | rfl | rfl | rfl <;> decide

theorem rgba32I420Auto (std : Nat) : Statement (.rgba32I420Auto std) := by
  intro h
  rcases stdFits_cases h with rfl | rfl | rfl | rfl <;> decide

end Sys2Proof.Laws.EncodesLegal
end

