-- ==== Sys2Proof/Laws/Touched.lean ====
section
/-! SUPPORT. The bytes that the host touched while BUSY (spec 20 R77, 93 U3): the list of their addresses, and that the model's
test for a disturbed output byte is the dependence that claims name. -/

namespace Sys2Proof.Laws
open Sys2Proof Sys2Proof.Machine

@[simp] theorem mem_noteAddress {l : List Nat} {a b : Nat} : b ∈ noteAddress l a ↔ b = a ∨ b ∈ l := by
  induction l with
  | nil => simp [noteAddress]
  | cons c l ih =>
    simp only [noteAddress]
    split
    · simp
    · split
      · rename_i h
        subst h
        simp
      · simp only [List.mem_cons, ih]
        tauto

/-- Noting an address keeps the list strictly rising. -/
theorem noteAddress_pairwise {l : List Nat} (a : Nat) (h : l.Pairwise (· < ·)) : (noteAddress l a).Pairwise (· < ·) := by
  induction l with
  | nil => exact List.pairwise_singleton _ _
  | cons c l ih =>
    obtain ⟨hc, hl⟩ := List.pairwise_cons.1 h
    simp only [noteAddress]
    split
    · rename_i hac
      refine List.pairwise_cons.2 ⟨fun b hb => ?_, h⟩
      rcases List.mem_cons.1 hb with rfl | hb
      · exact hac
      · exact hac.trans (hc b hb)
    · split
      · exact h
      · refine List.pairwise_cons.2 ⟨fun b hb => ?_, ih hl⟩
        rcases mem_noteAddress.1 hb with rfl | hb
        · omega
        · exact hc b hb

/-- The sources of a forward pixel are its dependences (41 R150). -/
theorem mem_forwardSources (layout : ChromaLayout) (s : State) (a b : Nat) :
    (∃ y < s.h, ∃ x < s.w, ∃ d ∈ forwardSources layout s x y, d.1 = a ∧ b ∈ d.2) ↔
      ForwardDepends s (s.uIn layout) (s.vIn layout) a b := by
  have luma : ∀ x y, s.yIn x y = s.in0.base.toNat + y * s.in0.stride.toNat + x := fun x y => by
    simp [State.yIn, Slot.addr, Slot.rowStart, Role.bpp]
  have out : ∀ x y k, s.rgbOut x y k = s.out0.base.toNat + y * s.out0.stride.toNat + 3 * x + k := fun x y k => by
    simp [State.rgbOut, Slot.addr, Slot.rowStart, Role.bpp, Nat.mul_comm 3]
  simp only [ForwardDepends, forwardSources, luma, out, chromaOf, List.mem_cons, List.not_mem_nil, or_false]
  constructor
  · rintro ⟨y, hy, x, hx, d, rfl | rfl | rfl, rfl, hb⟩ <;> exact ⟨x, hx, y, hy, by simpa using hb⟩
  · rintro ⟨x, hx, y, hy, ⟨rfl, h⟩ | ⟨rfl, h⟩ | ⟨rfl, h⟩⟩
    · exact ⟨y, hy, x, hx, _, .inl rfl, rfl, by simpa using h⟩
    · exact ⟨y, hy, x, hx, _, .inr (.inl rfl), rfl, by simpa using h⟩
    · exact ⟨y, hy, x, hx, _, .inr (.inr rfl), rfl, by simpa using h⟩

/-- The sources of an inverse pixel are its dependences (41 R151, R161). -/
theorem mem_inverseSources (role : Role) (s : State) (a b : Nat) :
    (∃ y < s.h, ∃ x < s.w, ∃ d ∈ inverseSources role s x y, d.1 = a ∧ b ∈ d.2) ↔ InverseDepends s role.bpp a b := by
  have src : ∀ x y, b ∈ [s.rgbIn role x y 0, s.rgbIn role x y 1, s.rgbIn role x y 2] ↔
      ∃ k < 3, b = s.in0.base.toNat + y * s.in0.stride.toNat + role.bpp * x + k := fun x y => by
    simp only [State.rgbIn, Slot.addr, Slot.rowStart, Nat.mul_comm x, List.mem_cons, List.not_mem_nil, or_false]
    constructor
    · rintro (h | h | h)
      · exact ⟨0, by decide, h⟩
      · exact ⟨1, by decide, h⟩
      · exact ⟨2, by decide, h⟩
    · rintro ⟨k, hk, h⟩
      interval_cases k
      · exact .inl h
      · exact .inr (.inl h)
      · exact .inr (.inr h)
  have y0 : ∀ x y, s.yOut x y = s.out0.base.toNat + y * s.out0.stride.toNat + x := fun x y => by
    simp [State.yOut, Slot.addr, Slot.rowStart, Role.bpp]
  have u0 : ∀ x y, s.uOut x y = s.out1.base.toNat + y * s.out1.stride.toNat + x := fun x y => by
    simp [State.uOut, Slot.addr, Slot.rowStart, Role.bpp]
  have v0 : ∀ x y, s.vOut x y = s.out2.base.toNat + y * s.out2.stride.toNat + x := fun x y => by
    simp [State.vOut, Slot.addr, Slot.rowStart, Role.bpp]
  simp only [InverseDepends, inverseSources, List.mem_cons]
  constructor
  · rintro ⟨y, hy, x, hx, d, rfl | hd, rfl, hb⟩
    · exact .inl ⟨x, hx, y, hy, y0 x y, (src x y).1 hb⟩
    · split at hd
      · rename_i he
        obtain ⟨hx2, hy2⟩ := he
        have ex : 2 * (x / 2) = x := by omega
        have ey : 2 * (y / 2) = y := by omega
        refine .inr ⟨x / 2, by omega, y / 2, by omega, ?_⟩
        rw [ex, ey]
        rcases List.mem_cons.1 hd with rfl | hd
        · exact ⟨.inl (u0 ..), (src x y).1 hb⟩
        · rw [List.mem_singleton] at hd
          subst hd
          exact ⟨.inr (v0 ..), (src x y).1 hb⟩
      · cases hd
  · rintro (⟨x, hx, y, hy, rfl, hb⟩ | ⟨cx, hx, cy, hy, ha, hb⟩)
    · exact ⟨y, hy, x, hx, _, .inl rfl, y0 x y, (src x y).2 hb⟩
    · have ex : 2 * cx / 2 = cx := by omega
      have ey : 2 * cy / 2 = cy := by omega
      have hb' := (src (2 * cx) (2 * cy)).2 hb
      refine ⟨2 * cy, by omega, 2 * cx, by omega, ?_⟩
      rw [if_pos ⟨by omega, by omega⟩]
      rcases ha with rfl | rfl
      · exact ⟨_, .inr (List.mem_cons_self ..), by simp only [chromaOf, ex, ey, u0], hb'⟩
      · exact ⟨_, .inr (List.mem_cons_of_mem _ (List.mem_cons_self ..)), by simp only [chromaOf, ex, ey, v0], hb'⟩

/-- The sources the model lists for an output byte are its dependences (41 R159). -/
theorem mem_imageSources (op : Op) (s : State) (a b : Nat) :
    (∃ d ∈ imageSources op s, d.1 = a ∧ b ∈ d.2) ↔ OutputDependsOn op s a b := by
  have flat : (∃ d ∈ imageSources op s, d.1 = a ∧ b ∈ d.2) ↔
      ∃ y < s.h, ∃ x < s.w, ∃ d ∈ pixelSources op s x y, d.1 = a ∧ b ∈ d.2 := by
    simp only [imageSources, List.mem_flatMap, List.mem_range]
    constructor
    · rintro ⟨d, ⟨y, hy, x, hx, hd⟩, h⟩
      exact ⟨y, hy, x, hx, d, hd, h⟩
    · rintro ⟨y, hy, x, hx, d, hd, h⟩
      exact ⟨d, ⟨y, hy, x, hx, hd⟩, h⟩
  have fwd : ∀ l (u v : Nat → Nat → Nat), s.uIn l = u → s.vIn l = v →
      ((∃ y < s.h, ∃ x < s.w, ∃ d ∈ forwardSources l s x y, d.1 = a ∧ b ∈ d.2) ↔ ForwardDepends s u v a b) := by
    rintro l u v rfl rfl
    exact mem_forwardSources l s a b
  rw [flat]
  cases op <;> simp only [OutputDependsOn, pixelSources]
  · refine fwd .planar _ _ ?_ ?_ <;> funext x y <;> simp [State.uIn, State.vIn, Slot.addr, Slot.rowStart, Role.bpp]
  · exact mem_inverseSources .rgb24 s a b
  · refine fwd .nv12 _ _ ?_ ?_ <;> funext x y <;>
      simp [State.uIn, State.vIn, Slot.addr, Slot.rowStart, Role.bpp, Nat.mul_comm 2]
  · refine fwd .nv21 _ _ ?_ ?_ <;> funext x y <;>
      simp [State.uIn, State.vIn, Slot.addr, Slot.rowStart, Role.bpp, Nat.mul_comm 2]
  · exact mem_inverseSources .rgba32 s a b

/-- A byte is disturbed exactly when the host's writes reach it (20 R77, 93 U3). -/
theorem disturbed_iff (op : Op) (s : State) (a : Nat) : disturbed op s a = true ↔ Reached op s a := by
  simp only [disturbed, Reached, Bool.or_eq_true, List.contains_iff_mem, List.any_eq_true, Bool.and_eq_true,
    decide_eq_true_eq, ← mem_imageSources]
  constructor
  · rintro (h | ⟨d, hd, rfl, b, hb, ht⟩)
    · exact .inl h
    · exact .inr ⟨b, ht, d, hd, rfl, hb⟩
  · rintro (h | ⟨b, ht, d, hd, rfl, hb⟩)
    · exact .inl h
    · exact .inr ⟨d, hd, rfl, b, hb, ht⟩

end Sys2Proof.Laws
end

