-- ==== Sys2Proof/Tests/Slice0.lean ====
section
/-! SUPPORT. The model's own tests: ill-formed commands refused, command words written out from spec 30 R101 and R107, one
step on small jobs with the expected bytes of spec 95, and for every statement with hypotheses a witness that meets them. -/

namespace Sys2Proof.Tests
open Sys2Proof Sys2Proof.Machine Sys2Proof.Laws Host

set_option Elab.async false

/-! ### WellFormed: STD does not fit its two bits (30 R101) -/

/-- Every constructor refuses the first STD value that has no encoding, 4. -/
theorem test_wellFormed_refuses : ∀ i ∈ [
    Instr.i420Rgb24S 4, Instr.rgb24I420S 4, Instr.nv12Rgb24S 4, Instr.nv21Rgb24S 4, Instr.rgba32I420S 4,
    Instr.i420Rgb24Va 4, Instr.rgb24I420Va 4, Instr.nv12Rgb24Va 4, Instr.nv21Rgb24Va 4, Instr.rgba32I420Va 4,
    Instr.i420Rgb24Vu 4, Instr.rgb24I420Vu 4, Instr.nv12Rgb24Vu 4, Instr.nv21Rgb24Vu 4, Instr.rgba32I420Vu 4,
    Instr.i420Rgb24Auto 4, Instr.rgb24I420Auto 4, Instr.nv12Rgb24Auto 4, Instr.nv21Rgb24Auto 4, Instr.rgba32I420Auto 4], i.wellFormed = false := by decide

/-- STD = 3 is well formed: it names no standard, but has an encoding (30 R104). -/
theorem test_wellFormed_accepts : (Instr.i420Rgb24S 3).wellFormed = true ∧ (Instr.rgba32I420Auto 0).wellFormed = true := by decide

/-! ### Decoding: CMD[2:0] = OP, CMD[5:4] = VAR, CMD[9:8] = STD, the rest 0 (30 R101 to R104) -/

theorem test_decode_i420Rgb24S : decode 0b0000_0000_0000_0000_0000_0000_0000_0000#32 = .ok (.i420Rgb24S 0) := by decide

theorem test_decode_rgb24I420S : decode 0b0000_0000_0000_0000_0000_0001_0000_0001#32 = .ok (.rgb24I420S 1) := by decide

theorem test_decode_nv12Rgb24S : decode 0b0000_0000_0000_0000_0000_0010_0000_0010#32 = .ok (.nv12Rgb24S 2) := by decide

theorem test_decode_nv21Rgb24S : decode 0b0000_0000_0000_0000_0000_0011_0000_0011#32 = .ok (.nv21Rgb24S 3) := by decide

theorem test_decode_rgba32I420S : decode 0b0000_0000_0000_0000_0000_0000_0000_0100#32 = .ok (.rgba32I420S 0) := by decide

theorem test_decode_i420Rgb24Va : decode 0b0000_0000_0000_0000_0000_0001_0001_0000#32 = .ok (.i420Rgb24Va 1) := by decide

theorem test_decode_rgb24I420Va : decode 0b0000_0000_0000_0000_0000_0010_0001_0001#32 = .ok (.rgb24I420Va 2) := by decide

theorem test_decode_nv12Rgb24Va : decode 0b0000_0000_0000_0000_0000_0011_0001_0010#32 = .ok (.nv12Rgb24Va 3) := by decide

theorem test_decode_nv21Rgb24Va : decode 0b0000_0000_0000_0000_0000_0000_0001_0011#32 = .ok (.nv21Rgb24Va 0) := by decide

theorem test_decode_rgba32I420Va : decode 0b0000_0000_0000_0000_0000_0001_0001_0100#32 = .ok (.rgba32I420Va 1) := by decide

theorem test_decode_i420Rgb24Vu : decode 0b0000_0000_0000_0000_0000_0010_0010_0000#32 = .ok (.i420Rgb24Vu 2) := by decide

theorem test_decode_rgb24I420Vu : decode 0b0000_0000_0000_0000_0000_0011_0010_0001#32 = .ok (.rgb24I420Vu 3) := by decide

theorem test_decode_nv12Rgb24Vu : decode 0b0000_0000_0000_0000_0000_0000_0010_0010#32 = .ok (.nv12Rgb24Vu 0) := by decide

theorem test_decode_nv21Rgb24Vu : decode 0b0000_0000_0000_0000_0000_0001_0010_0011#32 = .ok (.nv21Rgb24Vu 1) := by decide

theorem test_decode_rgba32I420Vu : decode 0b0000_0000_0000_0000_0000_0010_0010_0100#32 = .ok (.rgba32I420Vu 2) := by decide

theorem test_decode_i420Rgb24Auto : decode 0b0000_0000_0000_0000_0000_0011_0011_0000#32 = .ok (.i420Rgb24Auto 3) := by decide

theorem test_decode_rgb24I420Auto : decode 0b0000_0000_0000_0000_0000_0000_0011_0001#32 = .ok (.rgb24I420Auto 0) := by decide

theorem test_decode_nv12Rgb24Auto : decode 0b0000_0000_0000_0000_0000_0001_0011_0010#32 = .ok (.nv12Rgb24Auto 1) := by decide

theorem test_decode_nv21Rgb24Auto : decode 0b0000_0000_0000_0000_0000_0010_0011_0011#32 = .ok (.nv21Rgb24Auto 2) := by decide

theorem test_decode_rgba32I420Auto : decode 0b0000_0000_0000_0000_0000_0011_0011_0100#32 = .ok (.rgba32I420Auto 3) := by decide

/-- 30 R105: the lowest and the highest reserved bit, the reserved bits between the fields, and OP = 5, 6, 7 are rejected. -/
theorem test_decode_rejects :
    decode 0x00000008#32 = .error .reservedBit ∧ decode 0x00000040#32 = .error .reservedBit ∧
    decode 0x00000080#32 = .error .reservedBit ∧ decode 0x00000400#32 = .error .reservedBit ∧
    decode 0x80000000#32 = .error .reservedBit ∧ decode 0x00000005#32 = .error .reservedOp ∧
    decode 0x00000306#32 = .error .reservedOp ∧ decode 0x00000037#32 = .error .reservedOp := by decide

/-! ### Arithmetic, from the vectors of spec 95 -/

/-- 95 V3: the rounding shift on both sides of zero. -/
theorem test_rounding_shift :
    asr (-1025) 10 = -2 ∧ asr (-1024) 10 = -1 ∧ asr (-1) 10 = -1 ∧ asr 0 10 = 0 ∧ asr 1023 10 = 0 ∧ asr 1024 10 = 1 ∧
    asr 2047 10 = 1 ∧ asr 2048 10 = 2 ∧ asr 261632 10 = 255 := by decide

/-- 95 V2: the corner cases of the quantizer, ties away from zero. -/
theorem test_quantizer :
    quantize 0 = 0 ∧ quantize 1 = 1024 ∧ quantize (1 / 2) = 512 ∧ quantize (-1 / 2) = -512 ∧ quantize (1 / 2048) = 1 ∧
    quantize (-1 / 2048) = -1 ∧ quantize (1 / 2049) = 0 := by decide +kernel

/-- 95 V5: both clamps, and an interior value under each standard. -/
theorem test_forward_pixel :
    fwdPx Standard.bt601.forwardSet 145#8 54#8 34#8 = (0#8, 255#8, 1#8) ∧
    fwdPx Standard.bt601.forwardSet 255#8 255#8 255#8 = (255#8, 125#8, 255#8) ∧
    fwdPx Standard.bt601.forwardSet 120#8 90#8 200#8 = (236#8, 77#8, 44#8) ∧
    fwdPx Standard.bt709.forwardSet 120#8 90#8 200#8 = (250#8, 91#8, 41#8) ∧
    fwdPx Standard.jpegFullRange.forwardSet 120#8 90#8 200#8 = (221#8, 82#8, 53#8) := by decide +kernel

/-- 95 V6: the clamp of the inverse direction, and an interior value under each standard. -/
theorem test_inverse_pixel :
    invU Standard.jpegFullRange.inverseSet 0#8 0#8 255#8 = 255#8 ∧ invV Standard.bt601.inverseSet 1#8 2#8 3#8 = 127#8 ∧
    invY Standard.bt601.inverseSet 200#8 100#8 50#8 = 123#8 ∧ invU Standard.bt709.inverseSet 200#8 100#8 50#8 = 96#8 ∧
    invV Standard.jpegFullRange.inverseSet 200#8 100#8 50#8 = 182#8 := by decide +kernel

/-! ### Small jobs -/

/-- A plane of a small job: 16-aligned base, stride 80, sized as 10 R27 wants it. -/
def plane (op : Op) (w h : Nat) (id : SlotId) (base : Word) : Slot :=
  if id ∈ Op.chromaSlots op then ⟨base, 80#32, BitVec.ofNat 32 ((w + 1) / 2), BitVec.ofNat 32 ((h + 1) / 2)⟩
  else ⟨base, 80#32, BitVec.ofNat 32 w, BitVec.ofNat 32 h⟩

/-- A job about to be checked, with disjoint aligned planes at 0x1000 to 0x6000 and the given bytes in data memory. -/
def smallJob (op : Op) (w h : Nat) (cells : List Cell) : State :=
  { State.reset with
    phase := .check
    width := BitVec.ofNat 32 w
    height := BitVec.ofNat 32 h
    in0 := plane op w h .in0 0x1000#32
    in1 := plane op w h .in1 0x2000#32
    in2 := plane op w h .in2 0x3000#32
    out0 := plane op w h .out0 0x4000#32
    out1 := plane op w h .out1 0x5000#32
    out2 := plane op w h .out2 0x6000#32
    mem := Memory.writeAll [] cells }

/-- STATUS and some bytes after a step that answers a next state. -/
def seen (o : Outcome State Fault Refusal) (addresses : List Nat) : Option (Nat × List Nat) :=
  match o with
  | .next t => some (t.statusWord.toNat, addresses.map (fun a => (t.mem.read a).toNat))
  | .fault _ => none
  | .refused _ => none

/-! One job of every command: on a 3 × 3 image for the scalar commands, looking at the lone pixel (2, 2) of the last block, and
for the others on one chunk, 16 × 2 (looking at a pixel of its last block) or, with a tail block to the right, 17 × 2 (looking
at the tail: 42 R180). The input bytes there are a row of 95 V5 or V6, so the output bytes are that row's; STATUS is
0x002 + 0x100 * PATH (95). -/

theorem test_exec_i420Rgb24S :
    seen (exec (.i420Rgb24S 0) (smallJob .i420Rgb24 3 3 [(0x10A2, 145#8), (0x2051, 54#8), (0x3051, 34#8)]))
        [0x40A6, 0x40A7, 0x40A8] = some (0x002, [0, 255, 1]) := by decide +kernel

theorem test_exec_rgb24I420S :
    seen (exec (.rgb24I420S 1) (smallJob .rgb24I420 3 3 [(0x10A6, 200#8), (0x10A7, 100#8), (0x10A8, 50#8)]))
        [0x40A2, 0x5051, 0x6051] = some (0x002, [117, 96, 174]) := by decide +kernel

theorem test_exec_nv12Rgb24S :
    seen (exec (.nv12Rgb24S 2) (smallJob .nv12Rgb24 3 3 [(0x10A2, 120#8), (0x2052, 90#8), (0x2053, 200#8)]))
        [0x40A6, 0x40A7, 0x40A8] = some (0x002, [221, 82, 53]) := by decide +kernel

theorem test_exec_nv21Rgb24S :
    seen (exec (.nv21Rgb24S 0) (smallJob .nv21Rgb24 3 3 [(0x10A2, 120#8), (0x2052, 200#8), (0x2053, 90#8)]))
        [0x40A6, 0x40A7, 0x40A8] = some (0x002, [236, 77, 44]) := by decide +kernel

theorem test_exec_rgba32I420S :
    seen (exec (.rgba32I420S 1) (smallJob .rgba32I420 3 3 [(0x10A8, 0#8), (0x10A9, 255#8), (0x10AA, 255#8), (0x10AB, 77#8)]))
        [0x40A2, 0x5051, 0x6051] = some (0x002, [188, 154, 16]) := by decide +kernel

theorem test_exec_i420Rgb24Va :
    seen (exec (.i420Rgb24Va 2) (smallJob .i420Rgb24 16 2 [(0x105F, 81#8), (0x2007, 240#8), (0x3007, 90#8)]))
        [0x407D, 0x407E, 0x407F] = some (0x102, [28, 70, 255]) := by decide +kernel

theorem test_exec_rgb24I420Va :
    seen (exec (.rgb24I420Va 0) (smallJob .rgb24I420 17 2 [(0x1030, 200#8), (0x1031, 100#8), (0x1032, 50#8)]))
        [0x4010, 0x5008, 0x6008] = some (0x102, [123, 91, 176]) := by decide +kernel

theorem test_exec_nv12Rgb24Va :
    seen (exec (.nv12Rgb24Va 1) (smallJob .nv12Rgb24 16 2 [(0x105F, 120#8), (0x200E, 90#8), (0x200F, 200#8)]))
        [0x407D, 0x407E, 0x407F] = some (0x102, [250, 91, 41]) := by decide +kernel

theorem test_exec_nv21Rgb24Va :
    seen (exec (.nv21Rgb24Va 2) (smallJob .nv21Rgb24 16 2 [(0x105F, 120#8), (0x200E, 200#8), (0x200F, 90#8)]))
        [0x407D, 0x407E, 0x407F] = some (0x102, [221, 82, 53]) := by decide +kernel

theorem test_exec_rgba32I420Va :
    seen (exec (.rgba32I420Va 0) (smallJob .rgba32I420 16 2 [(0x1038, 255#8), (0x1039, 0#8), (0x103A, 255#8), (0x103B, 77#8)]))
        [0x400E, 0x5007, 0x6007] = some (0x102, [106, 202, 222]) := by decide +kernel

theorem test_exec_i420Rgb24Vu :
    seen (exec (.i420Rgb24Vu 1) (smallJob .i420Rgb24 16 2 [(0x105F, 173#8), (0x2007, 42#8), (0x3007, 26#8)]))
        [0x407D, 0x407E, 0x407F] = some (0x202, [0, 255, 1]) := by decide +kernel

theorem test_exec_rgb24I420Vu :
    seen (exec (.rgb24I420Vu 2) (smallJob .rgb24I420 16 2 [(0x102A, 0#8), (0x102B, 0#8), (0x102C, 255#8)]))
        [0x400E, 0x5007, 0x6007] = some (0x202, [29, 255, 107]) := by decide +kernel

theorem test_exec_nv12Rgb24Vu :
    seen (exec (.nv12Rgb24Vu 0) (smallJob .nv12Rgb24 16 2 [(0x105F, 145#8), (0x200E, 54#8), (0x200F, 34#8)]))
        [0x407D, 0x407E, 0x407F] = some (0x202, [0, 255, 1]) := by decide +kernel

theorem test_exec_nv21Rgb24Vu :
    seen (exec (.nv21Rgb24Vu 1) (smallJob .nv21Rgb24 17 2 [(0x1060, 120#8), (0x2010, 200#8), (0x2011, 90#8)]))
        [0x4080, 0x4081, 0x4082] = some (0x202, [250, 91, 41]) := by decide +kernel

theorem test_exec_rgba32I420Vu :
    seen (exec (.rgba32I420Vu 2) (smallJob .rgba32I420 16 2 [(0x1038, 200#8), (0x1039, 100#8), (0x103A, 50#8), (0x103B, 77#8)]))
        [0x400E, 0x5007, 0x6007] = some (0x202, [124, 86, 182]) := by decide +kernel

theorem test_exec_i420Rgb24Auto :
    seen (exec (.i420Rgb24Auto 0) (smallJob .i420Rgb24 16 2 [(0x105F, 120#8), (0x2007, 90#8), (0x3007, 200#8)]))
        [0x407D, 0x407E, 0x407F] = some (0x102, [236, 77, 44]) := by decide +kernel

theorem test_exec_rgb24I420Auto :
    seen (exec (.rgb24I420Auto 1) (smallJob .rgb24I420 16 2 [(0x102A, 0#8), (0x102B, 255#8), (0x102C, 255#8)]))
        [0x400E, 0x5007, 0x6007] = some (0x102, [188, 154, 16]) := by decide +kernel

theorem test_exec_nv12Rgb24Auto :
    seen (exec (.nv12Rgb24Auto 2) (smallJob .nv12Rgb24 16 2 [(0x105F, 81#8), (0x200E, 240#8), (0x200F, 90#8)]))
        [0x407D, 0x407E, 0x407F] = some (0x102, [28, 70, 255]) := by decide +kernel

theorem test_exec_nv21Rgb24Auto :
    seen (exec (.nv21Rgb24Auto 0) (smallJob .nv21Rgb24 16 2 [(0x105F, 145#8), (0x200E, 34#8), (0x200F, 54#8)]))
        [0x407D, 0x407E, 0x407F] = some (0x102, [0, 255, 1]) := by decide +kernel

theorem test_exec_rgba32I420Auto :
    seen (exec (.rgba32I420Auto 1) (smallJob .rgba32I420 17 2 [(0x1040, 200#8), (0x1041, 100#8), (0x1042, 50#8), (0x1043, 77#8)]))
        [0x4010, 0x5008, 0x6008] = some (0x102, [117, 96, 174]) := by decide +kernel

/-! ### Checks and errors (95 V12: a failing job beside the nearest accepted one), STATUS 0x06 + 0x10 * ERRCODE -/

/-- STATUS after a command on a job. -/
def statusOf (i : Instr) (s : State) : Option (Nat × List Nat) := seen (exec i s) []

theorem test_unsupportedStandard :
    statusOf (.i420Rgb24S 3) (smallJob .i420Rgb24 7 5 []) = some (0x16, []) ∧
    statusOf (.i420Rgb24S 3) (smallJob .i420Rgb24 0 5 []) = some (0x16, []) := by decide +kernel

/-- 95 V12: G1 to G6, G6 at its boundary 2^32 + 1 and 2^32. -/
theorem test_invalidGeometry :
    let s := smallJob .i420Rgb24 7 5 []
    statusOf (.i420Rgb24S 0) { s with height := 0#32 } = some (0x26, []) ∧
    statusOf (.i420Rgb24S 0) { s with out0 := { s.out0 with ph := 0#32 } } = some (0x26, []) ∧
    statusOf (.i420Rgb24S 0) { s with in1 := { s.in1 with pw := 3#32 } } = some (0x26, []) ∧
    statusOf (.i420Rgb24S 0) { s with out0 := { s.out0 with stride := 20#32 } } = some (0x26, []) ∧
    statusOf (.i420Rgb24S 0) { s with out0 := { s.out0 with stride := 21#32 } } = some (0x02, []) ∧
    statusOf (.i420Rgb24S 0) { s with in0 := { s.in0 with pw := 8#32 } } = some (0x26, []) ∧
    statusOf (.i420Rgb24S 0) { s with out0 := { s.out0 with base := 0xFFFFFF98#32, stride := 21#32 } } = some (0x26, []) ∧
    statusOf (.i420Rgb24S 0) { s with out0 := { s.out0 with base := 0xFFFFFF97#32, stride := 21#32 } } = some (0x02, []) := by
  decide +kernel

theorem test_dimensionMismatch :
    let s := smallJob .i420Rgb24 7 5 []
    statusOf (.i420Rgb24S 0) { s with out0 := { s.out0 with pw := 8#32 } } = some (0x36, []) ∧
    statusOf (.i420Rgb24Va 0) { s with out0 := { s.out0 with ph := 4#32, stride := 81#32 } } = some (0x36, []) := by
  decide +kernel

/-- 95 V15: a misaligned base stops VA alone; AUTO then takes the unaligned kernel. -/
theorem test_alignment :
    let s := smallJob .i420Rgb24 16 2 []
    let s' := { s with in2 := { s.in2 with base := 0x3008#32 } }
    statusOf (.i420Rgb24Va 0) s = some (0x102, []) ∧ statusOf (.i420Rgb24Va 0) s' = some (0x46, []) ∧
    statusOf (.i420Rgb24Vu 0) s' = some (0x202, []) ∧ statusOf (.i420Rgb24Auto 0) s' = some (0x202, []) ∧
    statusOf (.i420Rgb24Auto 0) s = some (0x102, []) ∧
    statusOf (.i420Rgb24Auto 0) (smallJob .i420Rgb24 15 2 []) = some (0x002, []) ∧
    statusOf (.i420Rgb24Auto 0) (smallJob .i420Rgb24 16 1 []) = some (0x002, []) := by
  decide +kernel

/-- The first instruction after reset: WIDTH = 0, so it is InvalidGeometry (60 R232, 95 P6); an illegal word is
IllegalCommand. -/
theorem test_first_instruction :
    seen (step (State.reset.withFetchWord 32 0x000)) [] = some (0x26, []) ∧
    seen (step (State.reset.withFetchWord 32 0x300)) [] = some (0x16, []) ∧
    seen (step (State.reset.withFetchWord 32 0x305)) [] = some (0x56, []) ∧
    decodeTableWord 32 0x023 = some (.nv21Rgb24Vu 0) := by
  decide +kernel

/-- 95 V8 and 30 R109: SPLIT420 0x1000, 7, 5 programs IN0 to IN2 so; 20 R83: 59 bytes. -/
theorem test_split420 :
    scriptSplit420 0x1000 7 5 =
      [.writeReg 0x20 0x1000#32, .writeReg 0x24 7#32, .writeReg 0x28 7#32, .writeReg 0x2C 5#32,
       .writeReg 0x30 0x1023#32, .writeReg 0x34 4#32, .writeReg 0x38 4#32, .writeReg 0x3C 3#32,
       .writeReg 0x40 0x102F#32, .writeReg 0x44 4#32, .writeReg 0x48 4#32, .writeReg 0x4C 3#32] ∧
    contiguousSize 7 5 = 59 ∧ splitPairs 0x1000 7 5 = ⟨0x1023#32, 8#32, 4#32, 3#32⟩ := by decide

/-- 30 R108: the order of START and the bytes of a command's word. -/
theorem test_script :
    scriptCommand (.rgba32I420Vu 2) ++ scriptRun =
      [.writeReg 0x08 0x224#32, .writeReg 0x00 1#32, .engineRun, .readReg 0x04] ∧
    scriptTight .out0 0x2000 .rgb24 7 5 ++ scriptSize 7 5 =
      [.writeReg 0x50 0x2000#32, .writeReg 0x54 21#32, .writeReg 0x58 7#32, .writeReg 0x5C 5#32, .writeReg 0x0C 7#32,
       .writeReg 0x10 5#32] := by decide

/-! ### Witnesses: for each statement with hypotheses, a state and operands that meet all of them -/

theorem accepted_of_checks {op : Op} {variant : Variant} {s : State} (hg : s.badGeometry op = false)
    (hs : s.sizesDiffer = false) (ha : s.aligned op = true) : Accepted op variant s :=
  (accepted_iff op variant s).2
    ⟨fun h => by simp [(badGeometry_iff s op).2 h] at hg, fun h => by simp [(sizesDiffer_iff s).2 h] at hs,
      fun _ => (aligned_iff s op).1 ha⟩

/-- A small job is clean for every conversion and variant: the hypotheses of the command statements. -/
theorem smallJob_clean (op : Op) (variant : Variant) : CleanJob op variant (smallJob op 16 2 []) := by
  refine ⟨rfl, accepted_of_checks ?_ ?_ ?_, (disjoint_iff ..).2 ?_, rfl,
    (by decide : Memory.wf [])⟩ <;> cases op <;> decide +kernel

/-- The smallest image, 1 × 1, is clean too (95 S5). -/
theorem smallJob_clean_one (op : Op) (variant : Variant) : CleanJob op variant (smallJob op 1 1 []) := by
  refine ⟨rfl, accepted_of_checks ?_ ?_ ?_, (disjoint_iff ..).2 ?_, rfl,
    (by decide : Memory.wf [])⟩ <;> cases op <;> decide +kernel

/-- A command on an accepted job not in RUN answers a next state. -/
theorem exec_accepted {i : Instr} {s : State} {st : Standard} (hp : s.phase ≠ .run) (hs : Standard.ofField i.std = some st)
    (ha : Accepted i.op i.variant s) : exec i s = .next (convertAll i.op i.variant st s) := by
  rw [exec_eq, runJob, (validate_ok_iff ..).2 ⟨hs, ha⟩]
  simp [hp]

theorem witness_DecodeOfEncodeIsTheCommand :
    (Instr.i420Rgb24S 0).wellFormed = true ∧ (Instr.rgba32I420Auto 3).wellFormed = true := by decide

theorem witness_EncodeOfDecodeIsTheWord : decode 0x334#32 = .ok (.rgba32I420Auto 3) ∧ decode 0#32 = .ok (.i420Rgb24S 0) := by
  decide

theorem witness_IllegalCommandWordsExactly :
    0x034#32 &&& 0xFFFFFCFF#32 = 0x334#32 &&& 0xFFFFFCFF#32 ∧ decode 0x034#32 = .ok (.rgba32I420Auto 0) := by decide

theorem witness_StepRunsTheDecodedCommand :
    (∃ (s : State) (i : Instr), s.phase ≠ .idle ∧ decode s.cmd = .ok i ∧ s.host = []) ∧
    (∃ (s : State) (i : Instr), s.phase ≠ .idle ∧ decode s.cmd = .ok i ∧ s.host = [.engineRun]) :=
  ⟨⟨smallJob .i420Rgb24 1 1 [], .i420Rgb24S 0, by decide, by decide, rfl⟩,
   ⟨{ smallJob .i420Rgb24 1 1 [] with host := [.engineRun] }, .i420Rgb24S 0, by decide, by decide, rfl⟩⟩

theorem witness_IdleEngineDoesNothing :
    State.reset.phase = .idle ∧ State.reset.host = [] ∧
    ({ State.reset with host := [.engineRun] } : State).phase = .idle ∧
    ({ State.reset with host := [.engineTick] } : State).phase = .idle := by decide

theorem witness_CtrlStartsAJob :
    (∃ (s : State) (v : Word), s.host = [.writeReg 0x00 v] ∧ s.phase = .idle ∧ v.getLsbD 0 = true) ∧
    (∃ (s : State) (v : Word), s.host = [.writeReg 0x00 v] ∧ s.phase ≠ .idle ∧ v.getLsbD 0 = true) ∧
    (∃ (s : State) (v : Word), s.host = [.writeReg 0x00 v] ∧ s.phase = .idle ∧ v.getLsbD 0 = false) ∧
    (∃ s : State, s.host = [.readReg 0x00]) :=
  ⟨⟨{ State.reset with host := [.writeReg 0x00 1#32] }, 1#32, rfl, rfl, by decide⟩,
   ⟨{ State.reset with host := [.writeReg 0x00 1#32], phase := .run }, 1#32, rfl, by decide, by decide⟩,
   ⟨{ State.reset with host := [.writeReg 0x00 0xFFFFFFFE#32] }, 0xFFFFFFFE#32, rfl, rfl, by decide⟩,
   ⟨{ State.reset with host := [.readReg 0x00] }, rfl⟩⟩

/-- Each register of the clause, at the ends of the slot range. -/
theorem witness_JobRegisterWritesReadBack : ∀ off ∈ [0x08, 0x0C, 0x10, 0x20, 0x7C],
    (off = 0x08 ∨ off = 0x0C ∨ off = 0x10 ∨ (0x20 ≤ off ∧ off < 0x80 ∧ off % 4 = 0)) ∧
    ∃ s : State, s.phase = .idle ∧ s.host = [.writeReg off 0xFFFFFFFF#32, .readReg off] := by
  intro off h
  refine ⟨?_, { State.reset with host := [.writeReg off 0xFFFFFFFF#32, .readReg off] }, rfl, rfl⟩
  revert off
  decide

theorem witness_OtherWritesAreIgnored :
    (∀ off ∈ [0x04, 0x14, 0x1C, 0x80, 0xB0, 0xB4, 0xFC],
      off % 4 = 0 ∧ off ≤ 0xFC ∧ (off = 0x04 ∨ (0x14 ≤ off ∧ off < 0x20) ∨ 0x80 ≤ off)) ∧
    (∃ s : State, s.phase ≠ .idle ∧ s.host = [.writeReg 0x00 1#32]) ∧
    (∃ s : State, s.phase = .idle ∧ s.host = [.writeReg 0x04 1#32]) :=
  ⟨by decide, ⟨{ State.reset with phase := .check, host := [.writeReg 0x00 1#32] }, by decide, rfl⟩,
   ⟨{ State.reset with host := [.writeReg 0x04 1#32] }, rfl, rfl⟩⟩

/-- A listed register, and each end of the two reserved ranges. -/
theorem witness_WindowReadsAnswer : ∀ off ∈ [0x04, 0xB0, 0x14, 0x1C, 0xB4, 0xFC],
    off % 4 = 0 ∧ ∃ s : State, s.host = [.readReg off] :=
  fun off h => ⟨by revert off; decide, { State.reset with host := [.readReg off] }, rfl⟩

theorem witness_UndefinedWindowAccessIsRefused : ∀ off ∈ [0x01, 0xFD, 0x100],
    (off % 4 ≠ 0 ∨ 0xFC < off) ∧ (∃ s : State, s.host = [.writeReg off 0#32]) ∧ ∃ s : State, s.host = [.readReg off] :=
  fun off h => ⟨by revert off; decide, ⟨{ State.reset with host := [.writeReg off 0#32] }, rfl⟩,
    { State.reset with host := [.readReg off] }, rfl⟩

theorem witness_UnsupportedStandardRaised : 3 ≤ (Instr.nv12Rgb24Va 3).std ∧ (smallJob .nv12Rgb24 1 1 []).phase = .check := by
  decide

/-- Each of G1 to G6 alone, and none. -/
theorem witness_InvalidGeometryRaisedExactly :
    let s := smallJob .i420Rgb24 7 5 []
    s.phase = .check ∧ (Instr.i420Rgb24S 2).std < 3 ∧
    GeometryFault .i420Rgb24 { s with width := 0#32 } ∧
    GeometryFault .i420Rgb24 { s with out0 := { s.out0 with pw := 0#32 } } ∧
    GeometryFault .i420Rgb24 { s with in2 := { s.in2 with ph := 2#32 } } ∧
    GeometryFault .i420Rgb24 { s with in1 := { s.in1 with stride := 3#32 } } ∧
    GeometryFault .i420Rgb24 { s with width := 8#32 } ∧
    GeometryFault .i420Rgb24 { s with in0 := { s.in0 with stride := 0x40000000#32 } } ∧ ¬GeometryFault .i420Rgb24 s := by
  simp only [← badGeometry_iff]
  decide +kernel

theorem witness_DimensionMismatchRaisedExactly :
    let s := smallJob .rgb24I420 7 5 []
    let s' := { s with out0 := { s.out0 with pw := 8#32 } }
    (Instr.rgb24I420S 0).std < 3 ∧ s.phase = .check ∧ ¬GeometryFault .rgb24I420 s ∧ ¬GeometryFault .rgb24I420 s' ∧
    (s.out0.pw.toNat, s.out0.ph.toNat) = (s.in0.pw.toNat, s.in0.ph.toNat) ∧
    (s'.out0.pw.toNat, s'.out0.ph.toNat) ≠ (s'.in0.pw.toNat, s'.in0.ph.toNat) := by
  simp only [← badGeometry_iff]
  decide +kernel

/-- An aligned job with its last chroma plane moved by 8 bytes. -/
def misaligned : State :=
  { smallJob .i420Rgb24 16 2 [] with in2 := { (smallJob .i420Rgb24 16 2 []).in2 with base := 0x3008#32 } }

theorem misaligned_meets :
    misaligned.phase = .check ∧ ¬GeometryFault .i420Rgb24 misaligned ∧ ¬SizeFault misaligned ∧
    ∃ id ∈ Op.used .i420Rgb24, (misaligned.slot id).base.toNat % 16 ≠ 0 ∨ (misaligned.slot id).stride.toNat % 16 ≠ 0 := by
  simp only [← badGeometry_iff, ← sizesDiffer_iff]
  decide +kernel

theorem witness_AlignmentViolationRaised :
    (Instr.i420Rgb24Va 0).std < 3 ∧ (Instr.i420Rgb24Va 0).variant = .vectorAligned ∧ misaligned.phase = .check ∧
    ¬GeometryFault .i420Rgb24 misaligned ∧ ¬SizeFault misaligned ∧
    ∃ id ∈ Op.used .i420Rgb24, (misaligned.slot id).base.toNat % 16 ≠ 0 ∨ (misaligned.slot id).stride.toNat % 16 ≠ 0 :=
  ⟨by decide, rfl, misaligned_meets⟩

/-- A VA command does raise AlignmentViolation somewhere. -/
theorem witness_OnlyMisalignedVaRaisesAlignmentViolation :
    ∃ (i : Instr) (s t : State), s.phase = .check ∧ exec i s = .next t ∧ t.errCode = 4#3 := by
  refine ⟨.i420Rgb24Va 0, misaligned, State.raise .alignmentViolation misaligned, rfl, ?_, rfl⟩
  rw [exec_eq, runJob, show validate (Instr.i420Rgb24Va 0).op (Instr.i420Rgb24Va 0).variant (Instr.i420Rgb24Va 0).std misaligned =
    .error .alignmentViolation by decide +kernel]
  rfl

/-- Both causes, a reserved bit and OP = 5, with each of the three forms of the host's list. -/
theorem witness_IllegalCommandRaised : ∀ host ∈ [[], [HostEvent.engineRun], [.engineTick]],
    (∃ s : State, s.host = host ∧ s.phase = .check ∧ s.cmd &&& 0xFFFFFCC8#32 ≠ 0#32) ∧
    (∃ s : State, s.host = host ∧ s.phase = .check ∧ 4 < (s.cmd.extractLsb' 0 3).toNat) :=
  fun host _ => ⟨⟨{ State.reset with phase := .check, cmd := 0x80000000#32, host := host }, rfl, rfl,
    (by decide : 0x80000000#32 &&& 0xFFFFFCC8#32 ≠ 0#32)⟩,
   ⟨{ State.reset with phase := .check, cmd := 0x005#32, host := host }, rfl, rfl,
    (by decide : 4 < ((0x005#32).extractLsb' 0 3).toNat)⟩⟩

theorem witness_FailedJobChangesOnlyStatus : ∃ (i : Instr) (s t : State), s.phase = .check ∧ exec i s = .next t ∧ t.err = true := by
  refine ⟨.rgb24I420S 3, smallJob .rgb24I420 1 1 [], State.raise .unsupportedStandard (smallJob .rgb24I420 1 1 []), rfl, ?_, rfl⟩
  rw [exec_eq, runJob, show validate (Instr.rgb24I420S 3).op (Instr.rgb24I420S 3).variant (Instr.rgb24I420S 3).std
    (smallJob .rgb24I420 1 1 []) = .error .unsupportedStandard from rfl]
  rfl

/-- The five conversions' statements: every command with every standard, on the largest and the smallest small job. -/
theorem witness_I420ToRgb24Converts : ∀ std < 3, ∀ i ∈ [Instr.i420Rgb24S std, .i420Rgb24Va std, .i420Rgb24Vu std,
    .i420Rgb24Auto std], (∃ st, Standard.ofField std = some st) ∧ CleanJob .i420Rgb24 i.variant (smallJob .i420Rgb24 16 2 []) ∧
    CleanJob .i420Rgb24 i.variant (smallJob .i420Rgb24 1 1 []) :=
  fun std h i _ => ⟨by interval_cases std <;> exact ⟨_, rfl⟩, smallJob_clean .., smallJob_clean_one ..⟩

theorem witness_Nv12ToRgb24Converts : ∀ std < 3, ∀ i ∈ [Instr.nv12Rgb24S std, .nv12Rgb24Va std, .nv12Rgb24Vu std,
    .nv12Rgb24Auto std], (∃ st, Standard.ofField std = some st) ∧ CleanJob .nv12Rgb24 i.variant (smallJob .nv12Rgb24 16 2 []) ∧
    CleanJob .nv12Rgb24 i.variant (smallJob .nv12Rgb24 1 1 []) :=
  fun std h i _ => ⟨by interval_cases std <;> exact ⟨_, rfl⟩, smallJob_clean .., smallJob_clean_one ..⟩

theorem witness_Nv21ToRgb24Converts : ∀ std < 3, ∀ i ∈ [Instr.nv21Rgb24S std, .nv21Rgb24Va std, .nv21Rgb24Vu std,
    .nv21Rgb24Auto std], (∃ st, Standard.ofField std = some st) ∧ CleanJob .nv21Rgb24 i.variant (smallJob .nv21Rgb24 16 2 []) ∧
    CleanJob .nv21Rgb24 i.variant (smallJob .nv21Rgb24 1 1 []) :=
  fun std h i _ => ⟨by interval_cases std <;> exact ⟨_, rfl⟩, smallJob_clean .., smallJob_clean_one ..⟩

theorem witness_Rgb24ToI420Converts : ∀ std < 3, ∀ i ∈ [Instr.rgb24I420S std, .rgb24I420Va std, .rgb24I420Vu std,
    .rgb24I420Auto std], (∃ st, Standard.ofField std = some st) ∧ CleanJob .rgb24I420 i.variant (smallJob .rgb24I420 16 2 []) ∧
    CleanJob .rgb24I420 i.variant (smallJob .rgb24I420 1 1 []) :=
  fun std h i _ => ⟨by interval_cases std <;> exact ⟨_, rfl⟩, smallJob_clean .., smallJob_clean_one ..⟩

theorem witness_Rgba32ToI420Converts : ∀ std < 3, ∀ i ∈ [Instr.rgba32I420S std, .rgba32I420Va std, .rgba32I420Vu std,
    .rgba32I420Auto std], (∃ st, Standard.ofField std = some st) ∧
    CleanJob .rgba32I420 i.variant (smallJob .rgba32I420 16 2 []) ∧
    CleanJob .rgba32I420 i.variant (smallJob .rgba32I420 1 1 []) :=
  fun std h i _ => ⟨by interval_cases std <;> exact ⟨_, rfl⟩, smallJob_clean .., smallJob_clean_one ..⟩

/-- The memories differ in the alpha byte of the one pixel. -/
theorem witness_AlphaBytesDoNotMatter :
    ∃ (i : Instr) (s t t' : State) (m : Memory), i.op = .rgba32I420 ∧ CleanJob .rgba32I420 i.variant s ∧ m.wf ∧ m ≠ s.mem ∧
      (∀ a : Nat, (∀ x y : Nat, x < s.w → y < s.h → a ≠ s.in0.base.toNat + y * s.in0.stride.toNat + 4 * x + 3) →
        m.read a = s.mem.read a) ∧
      exec i s = .next t ∧ exec i { s with mem := m } = .next t' := by
  refine ⟨.rgba32I420S 0, smallJob .rgba32I420 1 1 [], _, _, [(0x1003, 7#8)], rfl, smallJob_clean_one .., by decide, by decide,
    fun a h => ?_, exec_accepted (st := .bt601) (by decide) rfl (smallJob_clean_one .rgba32I420 .scalar).2.1,
    exec_accepted (st := .bt601) (by decide) rfl (smallJob_clean_one .rgba32I420 .scalar).2.1⟩
  have := h 0 0 (by decide) (by decide)
  have ha : a ≠ 0x1003 := this
  simp [Memory.read, ha, smallJob, Memory.writeAll]

/-- The memories differ in the pixel below the block's top-left one. -/
theorem witness_ChromaIsOfTheTopLeftPixel :
    ∃ (i : Instr) (s t t' : State) (m : Memory) (cx cy : Nat), (i.op = .rgb24I420 ∨ i.op = .rgba32I420) ∧ i.std < 3 ∧
      CleanJob i.op i.variant s ∧ m.wf ∧ m ≠ s.mem ∧ cx < (s.w + 1) / 2 ∧ cy < (s.h + 1) / 2 ∧
      (∀ k < 3, m.read (s.in0.base.toNat + 2 * cy * s.in0.stride.toNat + 2 * cx * Op.bpp i.op .in0 + k) =
        s.mem.read (s.in0.base.toNat + 2 * cy * s.in0.stride.toNat + 2 * cx * Op.bpp i.op .in0 + k)) ∧
      exec i s = .next t ∧ exec i { s with mem := m } = .next t' :=
  ⟨.rgb24I420S 2, smallJob .rgb24I420 16 2 [], _, _, [(0x1050, 7#8)], 7, 0, .inl rfl, by decide, smallJob_clean .., by decide,
    by decide, by decide, by decide, by decide +kernel,
    exec_accepted (st := .jpegFullRange) (by decide) rfl (smallJob_clean .rgb24I420 .scalar).2.1,
    exec_accepted (st := .jpegFullRange) (by decide) rfl (smallJob_clean .rgb24I420 .scalar).2.1⟩

theorem witness_VariantsLeaveTheSameBytes : (2 : Nat) < 3 ∧ CleanJob .nv21Rgb24 .scalar (smallJob .nv21Rgb24 16 2 []) ∧
    CleanJob .nv21Rgb24 .vectorAligned (smallJob .nv21Rgb24 16 2 []) :=
  ⟨by decide, smallJob_clean .., smallJob_clean ..⟩

/-- The clauses of AUTO at their boundaries: 16 × 2 aligned, 16 × 2 misaligned, 15 × 2 and 16 × 1; and a failed job. -/
theorem witness_PathReported :
    (∀ variant, Accepted .i420Rgb24 variant (smallJob .i420Rgb24 16 2 [])) ∧ AlignedJob .i420Rgb24 (smallJob .i420Rgb24 16 2 []) ∧
    Accepted .i420Rgb24 .auto misaligned ∧ ¬AlignedJob .i420Rgb24 misaligned ∧
    (smallJob .i420Rgb24 16 2 []).w = 16 ∧ (smallJob .i420Rgb24 16 2 []).h = 2 ∧ misaligned.w = 16 ∧ misaligned.h = 2 ∧
    (∃ s : State, s.phase = .check ∧ Accepted .i420Rgb24 .auto s ∧ s.w = 15 ∧ s.h = 2) ∧
    (∃ s : State, s.phase = .check ∧ Accepted .i420Rgb24 .auto s ∧ s.w = 16 ∧ s.h = 1) ∧
    (∃ (i : Instr) (s t : State), s.phase = .check ∧ exec i s = .next t ∧ t.err = true) := by
  refine ⟨fun v => (smallJob_clean _ v).2.1, (aligned_iff ..).1 (by decide +kernel),
    (accepted_iff ..).2 ⟨misaligned_meets.2.1, misaligned_meets.2.2.1, fun h => nomatch h⟩,
    fun h => absurd ((aligned_iff ..).2 h) (by decide +kernel), by decide, by decide, by decide, by decide,
    ⟨smallJob .i420Rgb24 15 2 [], rfl, accepted_of_checks ?_ ?_ ?_, by decide, by decide⟩,
    ⟨smallJob .i420Rgb24 16 1 [], rfl, accepted_of_checks ?_ ?_ ?_, by decide, by decide⟩,
    witness_FailedJobChangesOnlyStatus⟩ <;> decide +kernel

theorem witness_CoefHoldsTheQuantizedMatrix :
    Standard.ofField (Instr.nv12Rgb24Auto 1).std = some .bt709 ∧ (smallJob .nv12Rgb24 16 2 []).phase = .check ∧
    Accepted .nv12Rgb24 .auto (smallJob .nv12Rgb24 16 2 []) ∧ ¬Accepted .nv12Rgb24 .auto (smallJob .nv12Rgb24 0 2 []) :=
  ⟨rfl, rfl, (smallJob_clean ..).2.1, fun h => absurd h.1 (by decide)⟩

theorem witness_RerunLeavesTheSameMemory :
    ∃ (i : Instr) (s t : State), CleanJob i.op i.variant s ∧ i.std < 3 ∧ exec i s = .next t :=
  ⟨.rgba32I420Vu 1, smallJob .rgba32I420 16 2 [], _, smallJob_clean .., by decide,
    exec_accepted (st := .bt709) (by decide) rfl (smallJob_clean .rgba32I420 .vectorUnaligned).2.1⟩

/-- A clean small job into whose planes the host wrote: the luma byte of pixel (0, 0). -/
def touchedJob : State := { smallJob .i420Rgb24 16 2 [] with touched := [0x1000] }

/-- Both causes: the RGB plane over the luma plane, and a host write noted; the latter reaches pixel (0, 0), not pixel (1, 0). -/
theorem witness_UnpredictableJobKeepsToItsWriteSet :
    (∃ s : State, s.phase = .check ∧ Accepted .i420Rgb24 .scalar s ∧ s.mem.wf ∧ ¬DisjointPlanes .i420Rgb24 s ∧
      s.inWriteSet .i420Rgb24 0x1000 = true ∧ s.inWriteSet .i420Rgb24 0x1006 = false) ∧
    (touchedJob.phase = .check ∧ Accepted .i420Rgb24 .scalar touchedJob ∧ touchedJob.mem.wf ∧ touchedJob.touched ≠ [] ∧
      DisjointPlanes .i420Rgb24 touchedJob ∧
      touchedJob.inWriteSet .i420Rgb24 0x4000 = true ∧ Reached .i420Rgb24 touchedJob 0x4000 ∧
      touchedJob.inWriteSet .i420Rgb24 0x4003 = true ∧ ¬Reached .i420Rgb24 touchedJob 0x4003) := by
  refine ⟨⟨{ smallJob .i420Rgb24 2 2 [] with out0 := { (smallJob .i420Rgb24 2 2 []).out0 with base := 0x1000#32 } }, rfl,
      accepted_of_checks ?_ ?_ ?_, by decide, (overlaps_iff ..).1 ?_, ?_, ?_⟩,
    ⟨rfl, (smallJob_clean .i420Rgb24 .scalar).2.1, by decide, List.cons_ne_nil _ _,
      (smallJob_clean .i420Rgb24 .scalar).2.2.1, ?_, (disturbed_iff ..).1 ?_, ?_,
      fun h => absurd ((disturbed_iff ..).2 h) ?_⟩⟩ <;> decide +kernel

theorem witness_UnusedSlotsAreIgnored :
    Op.role (Instr.nv12Rgb24S 0).op .in2 = none ∧ Op.role (Instr.rgb24I420S 0).op .in1 = none ∧
    (smallJob .nv12Rgb24 1 1 []).phase = .check := by decide

/-! A job in RUN: 3 × 3, so that cw = ch = 2, with the cursor at one of its four blocks. -/

/-- A job put in RUN at a cursor, with the given pending events. -/
def inRun (op : Op) (st : Standard) (s : State) (k : Cursor) (host : List HostEvent) : State :=
  { enterRun op st s with cursor := k, host := host }

theorem inRun_active {op : Op} {variant : Variant} {std : Nat} {st : Standard} {s : State} (k : Cursor) (host : List HostEvent)
    (hi : decode s.cmd = .ok (Instr.make op variant std)) (hs : Standard.ofField std = some st) (ha : Accepted op variant s) :
    activeJob (inRun op st s k host) = some (op, variant, st) := by
  have ha' : Accepted op variant (inRun op st s k host) := ha
  have hi' : decode (inRun op st s k host).cmd = .ok (Instr.make op variant std) := hi
  have hp : (inRun op st s k host).phase = .run := rfl
  have hv := (validate_ok_iff op variant std _ st).2 ⟨hs, ha'⟩
  rw [activeJob, hp, if_neg (by decide), State.fetch, hi']
  cases op <;> cases variant <;> simp [Instr.make, Instr.op, Instr.variant, Instr.std, hv]

theorem inRun_legal {op : Op} {variant : Variant} {std : Nat} {st : Standard} {s : State} {k : Cursor} (host : List HostEvent)
    (hi : decode s.cmd = .ok (Instr.make op variant std)) (hs : Standard.ofField std = some st) (ha : Accepted op variant s)
    (hr : k.row < s.ch) (hc : k.col < s.cw)
    (ht : s.touched.Pairwise (· < ·) ∧ ∀ a ∈ s.touched, (s.inReadSet op a || s.inWriteSet op a) = true) :
    SequencerLegal (inRun op st s k host) :=
  ⟨fun _ => ⟨op, variant, st, inRun_active k host hi hs ha, rfl, hr, hc⟩, fun h => absurd rfl h, ht.1, fun a h => by
    rw [inActiveSets, inRun_active k host hi hs ha]
    exact ht.2 a h⟩

/-- The small job of CMD = 0 (I420_RGB24.S, BT601) in RUN with the cursor given and the given pending events. -/
def running (row col : Nat) (host : List HostEvent) : State :=
  inRun .i420Rgb24 .bt601 (smallJob .i420Rgb24 3 3 []) ⟨row, col⟩ host

theorem smallJob_three : Accepted .i420Rgb24 .scalar (smallJob .i420Rgb24 3 3 []) ∧
    (smallJob .i420Rgb24 3 3 []).ch = 2 ∧ (smallJob .i420Rgb24 3 3 []).cw = 2 := by
  refine ⟨accepted_of_checks ?_ ?_ ?_, ?_, ?_⟩ <;> decide +kernel

theorem running_decode (row col : Nat) (host : List HostEvent) : decode (running row col host).cmd = .ok (.i420Rgb24S 0) :=
  (by decide : decode 0#32 = .ok (.i420Rgb24S 0))

theorem running_busy (row col : Nat) (host : List HostEvent) : (running row col host).phase ≠ .idle :=
  (by decide : Phase.run ≠ .idle)

theorem running_legal {row col : Nat} (hr : row < 2) (hc : col < 2) (host : List HostEvent) :
    SequencerLegal (running row col host) :=
  inRun_legal (std := 0) host (by decide) rfl smallJob_three.1 (by rw [smallJob_three.2.1]; exact hr)
    (by rw [smallJob_three.2.2]; exact hc) ⟨List.Pairwise.nil, List.forall_mem_nil _⟩

theorem running_inv {row col : Nat} (hr : row < 2) (hc : col < 2) (host : List HostEvent) :
    MachineInv (running row col host) := by
  have hp : (running row col host).phase = .run := rfl
  refine ⟨(by decide : Memory.wf []), (by decide : Memory.wf []), ⟨fun _ => ⟨rfl, rfl, rfl, rfl⟩, fun h => ?_⟩,
    .inr ⟨.bt601, .i420Rgb24, rfl⟩, running_legal hr hc host⟩
  rw [hp] at h
  cases h

/-- The three clauses: a column left, a row left, the last block. -/
theorem witness_CursorAdvancesRowByRow :
    (∀ row < 2, ∀ col < 2, SequencerLegal (running row col [.engineTick]) ∧ (running row col [.engineTick]).phase = .run) ∧
    (running 0 0 []).cursor.col + 1 < (running 0 0 []).cw ∧
    (¬(running 0 1 []).cursor.col + 1 < (running 0 1 []).cw ∧ (running 0 1 []).cursor.row + 1 < (running 0 1 []).ch) ∧
    (¬(running 1 1 []).cursor.col + 1 < (running 1 1 []).cw ∧ ¬(running 1 1 []).cursor.row + 1 < (running 1 1 []).ch) :=
  ⟨fun _ hr _ hc => ⟨running_legal hr hc _, rfl⟩, by decide, by decide, by decide⟩

/-- A job that passes its checks, one that fails them, one of no standard, and an illegal CMD. -/
theorem witness_CheckEntersRunOrFails :
    (∃ (s : State) (i : Instr) (st : Standard), s.phase = .check ∧ s.host = [.engineTick] ∧ decode s.cmd = .ok i ∧
      Standard.ofField i.std = some st ∧ Accepted i.op i.variant s) ∧
    (∀ cmd ∈ [0x000, 0x300, 0x005], ∃ s : State, s.phase = .check ∧ s.host = [.engineTick] ∧ s.cmd = BitVec.ofNat 32 cmd ∧
      ¬∃ i, decode s.cmd = .ok i ∧ i.std < 3 ∧ Accepted i.op i.variant s) :=
  ⟨⟨{ smallJob .i420Rgb24 16 2 [] with host := [.engineTick] }, .i420Rgb24S 0, .bt601, rfl, rfl, by decide, rfl,
      (smallJob_clean .i420Rgb24 .scalar).2.1⟩,
   fun cmd _ => ⟨{ State.reset with phase := .check, host := [.engineTick], cmd := BitVec.ofNat 32 cmd }, rfl, rfl, rfl,
      fun ⟨_, _, _, h⟩ => absurd h.1 (by decide : ¬0 < (0#32).toNat)⟩⟩

/-- A block that leaves a next one, and the last block. -/
theorem witness_BlockwiseRunIsTheAtomicRun :
    (∃ t, (running 0 0 []).phase ≠ .idle ∧ (running 0 0 []).mem.wf ∧ SequencerLegal (running 0 0 []) ∧
      decode (running 0 0 []).cmd = .ok (.i420Rgb24S 0) ∧ engineTick (running 0 0 []) = .next t ∧ t.phase ≠ .idle) ∧
    (∃ t, (running 1 1 []).phase ≠ .idle ∧ (running 1 1 []).mem.wf ∧ SequencerLegal (running 1 1 []) ∧
      decode (running 1 1 []).cmd = .ok (.i420Rgb24S 0) ∧ engineTick (running 1 1 []) = .next t ∧ t.phase = .idle) := by
  refine ⟨⟨convertOne .i420Rgb24 .scalar .bt601 (running 0 0 []), by decide, by decide, running_legal (by decide) (by decide) _,
      by decide, ?_, by decide +kernel⟩,
    ⟨convertOne .i420Rgb24 .scalar .bt601 (running 1 1 []), by decide, by decide, running_legal (by decide) (by decide) _,
      by decide, ?_, by decide +kernel⟩⟩ <;> rfl

theorem witness_EveryStartEnds :
    (smallJob .i420Rgb24 1 1 []).host = [] ∧ (smallJob .i420Rgb24 1 1 []).phase ≠ .idle ∧
    SequencerLegal (smallJob .i420Rgb24 1 1 []) ∧ SequencerLegal (running 0 0 []) :=
  ⟨rfl, by decide, ⟨fun h => (nomatch h), fun _ => rfl, List.Pairwise.nil, List.forall_mem_nil _⟩,
    running_legal (by decide) (by decide) _⟩

/-- Host events in RUN, each with its step. -/
theorem witness_EveryStepKeepsTheInvariant :
    ∃ s t : State, MachineInv s ∧ s.phase = .run ∧ step s = .next t :=
  ⟨running 0 0 [.readReg 0x04], _, running_inv (by decide) (by decide) _, rfl, rfl⟩

theorem witness_NoStepFaults : SequencerLegal (running 1 0 []) ∧ (running 1 0 []).phase = .run :=
  ⟨running_legal (by decide) (by decide) _, rfl⟩

theorem witness_ResetEventZeroesTheRegisters :
    (running 0 0 [.reset]).host = [.reset] ∧ ({ State.reset with host := [.reset] } : State).phase ≠ .run :=
  ⟨rfl, by decide⟩

/-- The RUN that a reset cuts off or the host reads: its write set holds 0x4000 and not 0x4009. -/
theorem running_exec (host : List HostEvent) : ∃ f, exec (.i420Rgb24S 0) (running 0 1 host) = .next f := by
  have hp : (running 0 1 host).phase = .run := rfl
  have ha : Accepted (Instr.i420Rgb24S 0).op (Instr.i420Rgb24S 0).variant (running 0 1 host) := smallJob_three.1
  rw [exec_eq, runJob, (validate_ok_iff _ _ _ _ .bt601).2 ⟨rfl, ha⟩, hp]
  exact ⟨_, rfl⟩

theorem witness_ResetAbandonsTheRunningJob :
    ∃ (s f : State) (i : Instr), MachineInv s ∧ s.phase = .run ∧ decode s.cmd = .ok i ∧ exec i s = .next f ∧
      s.host = [.reset] ∧ s.inWriteSet i.op 0x4000 = true ∧ s.inWriteSet i.op 0x4009 = false := by
  obtain ⟨f, hf⟩ := running_exec [.reset]
  exact ⟨running 0 1 [.reset], f, .i420Rgb24S 0, running_inv (by decide) (by decide) _, rfl, by decide, hf, rfl, by decide +kernel,
    by decide +kernel⟩

/-- The first and the last byte of a row of the write set, and the bytes just outside it. -/
theorem witness_HostReadsOldOrFinalByte : ∀ a ∈ [(0x4000, true), (0x4008, true), (0x3FFF, false), (0x4009, false)],
    ∃ (s f : State) (i : Instr), MachineInv s ∧ s.phase = .run ∧ decode s.cmd = .ok i ∧ exec i s = .next f ∧
      s.host = [.readMem (BitVec.ofNat 32 a.1)] ∧ s.inWriteSet i.op (BitVec.ofNat 32 a.1).toNat = a.2 := by
  intro a ha
  obtain ⟨f, hf⟩ := running_exec [.readMem (BitVec.ofNat 32 a.1)]
  refine ⟨running 0 1 [.readMem (BitVec.ofNat 32 a.1)], f, .i420Rgb24S 0, running_inv (by decide) (by decide) _, rfl,
    running_decode .., hf, rfl, ?_⟩
  have all : ∀ a ∈ [(0x4000, true), (0x4008, true), (0x3FFF, false), (0x4009, false)],
      (smallJob .i420Rgb24 3 3 []).inWriteSet .i420Rgb24 (BitVec.ofNat 32 a.1).toNat = a.2 := by decide +kernel
  exact all a ha

/-- The last byte of the data space (20 R60). -/
theorem witness_HostMemoryIsPlain : ∃ s : State, s.phase = .idle ∧ s.mem.wf ∧
    s.host = [.writeMem 0xFFFFFFFF#32 1#8, .readMem 0xFFFFFFFF#32] :=
  ⟨{ State.reset with host := [.writeMem 0xFFFFFFFF#32 1#8, .readMem 0xFFFFFFFF#32] }, rfl, by decide, rfl⟩

/-- A write that hits the read set, one that hits the write set, and one that hits neither, in RUN and in CHECK. -/
theorem witness_HostWriteIntoARunningJobIsNoted : ∀ a ∈ [(0x1000, true), (0x4000, true), (0x4009, false)],
    ∀ phase ∈ [Phase.check, .run], ∃ s : State, s.phase ≠ .idle ∧ s.phase = phase ∧ s.mem.wf ∧
      s.host = [.writeMem (BitVec.ofNat 32 a.1) 1#8] ∧ decode s.cmd = .ok (.i420Rgb24S 0) ∧ Accepted .i420Rgb24 .scalar s ∧
      (s.inReadSet .i420Rgb24 a.1 || s.inWriteSet .i420Rgb24 a.1) = a.2 := by
  intro a ha phase hp
  have sets : ∀ a ∈ [(0x1000, true), (0x4000, true), (0x4009, false)],
      ((smallJob .i420Rgb24 3 3 []).inReadSet .i420Rgb24 a.1 || (smallJob .i420Rgb24 3 3 []).inWriteSet .i420Rgb24 a.1) = a.2 := by
    decide +kernel
  have busy : ∀ phase ∈ [Phase.check, .run], phase ≠ .idle := by decide
  exact ⟨{ smallJob .i420Rgb24 3 3 [] with phase := phase, host := [.writeMem (BitVec.ofNat 32 a.1) 1#8] }, busy phase hp, rfl,
    (by decide : Memory.wf []), rfl, (by decide : decode 0#32 = .ok (.i420Rgb24S 0)), smallJob_three.1, sets a ha⟩

/-- The first and the last byte of a plane. -/
theorem witness_ElementAddressesAreDistinct :
    Accepted .rgba32I420 .auto (smallJob .rgba32I420 16 2 []) ∧ SlotId.in0 ∈ Op.used .rgba32I420 ∧
    (smallJob .rgba32I420 16 2 []).in0.ph.toNat = 2 ∧ (smallJob .rgba32I420 16 2 []).in0.pw.toNat = 16 ∧
    Op.bpp .rgba32I420 .in0 = 4 :=
  ⟨(smallJob_clean ..).2.1, by decide, by decide, by decide, rfl⟩

/-- 95 S10: 7 × 5 and 1 × 1, the latter ending at the top of the data space. -/
theorem witness_SplitPlanesFillTheBuffer :
    0x1000 + (7 * 5 + 2 * ((7 + 1) / 2) * ((5 + 1) / 2)) ≤ 2 ^ 32 ∧ (2 ^ 32 - 3) + (1 * 1 + 2 * ((1 + 1) / 2) * ((1 + 1) / 2)) ≤ 2 ^ 32 := by
  decide

/-! ### What the host touches while BUSY (20 R77, 93 U3; the expected bytes from 41 R150, R151, R156, R161) -/

/-- The bytes of the write set that a 2 × 2 job leaves unspecified after host writes at these addresses. -/
def uncertainAfter (op : Op) (touched : List Nat) : List Nat :=
  let s := { smallJob op 2 2 [] with touched := touched }
  (s.writeSet op).filter (uncertain op s)

/-- Forward: a luma byte reaches its own pixel, U reaches G and B, V reaches R and G; an output byte reaches itself alone. -/
theorem test_touched_forward :
    uncertainAfter .i420Rgb24 [0x1001] = [0x4003, 0x4004, 0x4005] ∧
    uncertainAfter .i420Rgb24 [0x2000] = [0x4001, 0x4002, 0x4004, 0x4005, 0x4051, 0x4052, 0x4054, 0x4055] ∧
    uncertainAfter .nv12Rgb24 [0x2001] = [0x4000, 0x4001, 0x4003, 0x4004, 0x4050, 0x4051, 0x4053, 0x4054] ∧
    uncertainAfter .nv21Rgb24 [0x2001] = [0x4001, 0x4002, 0x4004, 0x4005, 0x4051, 0x4052, 0x4054, 0x4055] ∧
    uncertainAfter .i420Rgb24 [0x4054] = [0x4054] := by decide +kernel

/-- Inverse: a colour byte reaches the pixel's Y, and U and V if it is the block's top-left pixel; an alpha byte nothing. -/
theorem test_touched_inverse :
    uncertainAfter .rgba32I420 [0x1003] = [] ∧ uncertainAfter .rgba32I420 [0x1002] = [0x4000, 0x5000, 0x6000] ∧
    uncertainAfter .rgba32I420 [0x1004] = [0x4001] ∧ uncertainAfter .rgb24I420 [0x1003, 0x1050] = [0x4001, 0x4050] := by
  decide +kernel

theorem witness_HostReadOutsideRunReturnsTheByte : ∀ phase ∈ [Phase.idle, .check],
    ∃ s : State, s.phase = phase ∧ s.phase ≠ .run ∧ s.host = [.readMem 0xFFFFFFFF#32] := by
  intro phase hp
  refine ⟨{ State.reset with phase := phase, host := [.readMem 0xFFFFFFFF#32] }, rfl, ?_, rfl⟩
  revert hp
  revert phase
  decide

/-- The memories differ in the luma byte of pixel (1, 0), on which the byte R of pixel (0, 0) does not depend. -/
theorem witness_OutputByteDependsOnItsSourcesOnly :
    ∃ (i : Instr) (s t t' : State) (m : Memory) (a : Nat), i.std < 3 ∧ CleanJob i.op i.variant s ∧ m.wf ∧ m ≠ s.mem ∧
      s.inWriteSet i.op a = true ∧ (∀ b, OutputDependsOn i.op s a b → m.read b = s.mem.read b) ∧
      exec i s = .next t ∧ exec i { s with mem := m } = .next t' := by
  refine ⟨.i420Rgb24S 0, smallJob .i420Rgb24 16 2 [], _, _, [(0x1001, 7#8)], 0x4000, by decide, smallJob_clean .., by decide,
    by decide, by decide +kernel, fun b hb => ?_,
    exec_accepted (st := .bt601) (by decide) rfl (smallJob_clean .i420Rgb24 .scalar).2.1,
    exec_accepted (st := .bt601) (by decide) rfl (smallJob_clean .i420Rgb24 .scalar).2.1⟩
  have hne : b ≠ 0x1001 := by
    rintro rfl
    exact absurd ((mem_imageSources ..).2 hb) (by decide +kernel)
  simp [Memory.read, hne, smallJob, Memory.writeAll]

/-- A forward and an inverse dependence. -/
theorem witness_SourcesLieInTheReadSet :
    (∃ a b, Accepted .nv21Rgb24 .auto (smallJob .nv21Rgb24 16 2 []) ∧
      OutputDependsOn .nv21Rgb24 (smallJob .nv21Rgb24 16 2 []) a b) ∧
    (∃ a b, Accepted .rgba32I420 .auto (smallJob .rgba32I420 16 2 []) ∧
      OutputDependsOn .rgba32I420 (smallJob .rgba32I420 16 2 []) a b) :=
  ⟨⟨0x4000, 0x2000, (smallJob_clean ..).2.1, (mem_imageSources ..).1 (by decide +kernel)⟩,
   ⟨0x5007, 0x1038, (smallJob_clean ..).2.1, (mem_imageSources ..).1 (by decide +kernel)⟩⟩

theorem witness_StartBeginsWithNothingTouched :
    ∃ s : State, SequencerLegal s ∧ s.phase = .idle ∧ s.host = [.writeReg 0x00 1#32] ∧ (1#32).getLsbD 0 = true :=
  ⟨{ State.reset with host := [.writeReg 0x00 1#32] },
    ⟨fun h => (nomatch h), fun _ => rfl, List.Pairwise.nil, List.forall_mem_nil _⟩, rfl, rfl, by decide⟩

end Sys2Proof.Tests
end

section
/-! SUPPORT. Proofs about the register window and the slots (spec 10): what a write and a read of CTRL do (R22), and that a job
neither checks nor reads a slot its conversion does not use (R28). -/

namespace Sys2Proof.Proofs
open Sys2Proof Sys2Proof.Machine Sys2Proof.Laws

/-! ### CTRL (10 R22) -/

/-- A pending register write is the next step (70 R264). -/
theorem step_writeReg {s : State} {off : Nat} {v : Word} {rest : List HostEvent} (h : s.host = .writeReg off v :: rest) :
    step s = hostWriteReg off v { s with host := rest } := by
  rw [step, h]

/-- A pending register read is the next step (70 R264). -/
theorem step_readReg {s : State} {off : Nat} {rest : List HostEvent} (h : s.host = .readReg off :: rest) :
    step s = hostReadReg off { s with host := rest } := by
  rw [step, h]

theorem hostWriteReg_ctrl (v : Word) (s : State) : hostWriteReg 0x00 v s = .next (s.writeReg .ctrl v) := rfl

theorem hostReadReg_ctrl (s : State) : hostReadReg 0x00 s = .next { s with readData := 0#32 } := rfl

/-- While BUSY the window ignores every write (10 R29). -/
theorem writeReg_of_busy {s : State} (h : s.phase ≠ .idle) (r : Reg) (v : Word) : s.writeReg r v = s :=
  if_pos ((busy_iff s).2 h)

/-- While not BUSY a write of CTRL is a START or nothing, by its bit 0 (10 R22). -/
theorem writeReg_ctrl_of_idle {s : State} (h : s.phase = .idle) (v : Word) :
    s.writeReg .ctrl v = if v.getLsbD 0 then s.acceptStart else s :=
  if_neg fun hb => (busy_iff s).1 hb h

/-- Settles O7: the write and the read of CTRL, by whether the engine is BUSY and by bit 0 of the value. -/
theorem ctrlStartsAJob : Obligations.CtrlStartsAJob := by
  intro s v rest
  refine ⟨fun hhost hidle hbit => ?_, fun hhost hoff => ?_, fun hhost => ?_⟩
  · rw [step_writeReg hhost, hostWriteReg_ctrl, writeReg_ctrl_of_idle (s := { s with host := rest }) hidle, if_pos hbit]
    exact ⟨_, rfl, rfl⟩
  · rw [step_writeReg hhost, hostWriteReg_ctrl]
    by_cases hidle : s.phase = .idle
    · have hbit : v.getLsbD 0 = false := hoff.resolve_left (not_not_intro hidle)
      rw [writeReg_ctrl_of_idle (s := { s with host := rest }) hidle, if_neg (Bool.eq_false_iff.1 hbit)]
    · rw [writeReg_of_busy (s := { s with host := rest }) hidle]
  · rw [step_readReg hhost, hostReadReg_ctrl]

/-! ### Unused slots (10 R28) -/

@[simp] theorem setSlot_w (s : State) (id : SlotId) (p : Slot) : State.w (s.setSlot id p) = s.w := by
  rw [State.w, State.w, setSlot_width]

@[simp] theorem setSlot_h (s : State) (id : SlotId) (p : Slot) : State.h (s.setSlot id p) = s.h := by
  rw [State.h, State.h, setSlot_height]

theorem raise_setSlot (e : JobError) (s : State) (id : SlotId) (p : Slot) :
    State.raise e (s.setSlot id p) = (State.raise e s).setSlot id p := by
  cases id <;> rfl

theorem enterRun_setSlot (op : Op) (st : Standard) (s : State) (id : SlotId) (p : Slot) :
    enterRun op st (s.setSlot id p) = (enterRun op st s).setSlot id p := by
  cases id <;> rfl

theorem setSlot_withMem (s : State) (id : SlotId) (p : Slot) (m : Memory) :
    { s.setSlot id p with mem := m } = State.setSlot { s with mem := m } id p := by
  cases id <;> rfl

theorem any_congr_of_mem {α : Type} {l : List α} {f g : α → Bool} (h : ∀ a ∈ l, f a = g a) : l.any f = l.any g := by
  rw [Bool.eq_iff_iff, List.any_eq_true, List.any_eq_true]
  exact exists_congr fun a => and_congr_right fun ha => by rw [h a ha]

/-- The used slots are those with a role (10 R27). -/
theorem role_ne_none_of_mem_used {op : Op} {id : SlotId} (h : id ∈ Op.used op) : Op.role op id ≠ none := by
  rcases List.mem_append.1 h with h | h <;> exact Option.isSome_iff_ne_none.1 (List.mem_filter.1 h).2

theorem outputs_subset_used (op : Op) : Op.outputs op ⊆ Op.used op := List.subset_append_right _ _

theorem in0_mem_used (op : Op) : SlotId.in0 ∈ Op.used op := by cases op <;> simp

theorem out0_mem_used (op : Op) : SlotId.out0 ∈ Op.used op := by cases op <;> simp

theorem lumaSlot_mem_used (op : Op) : Op.lumaSlot op ∈ Op.used op := by cases op <;> simp

theorem chromaSlots_subset_used (op : Op) : Op.chromaSlots op ⊆ Op.used op := by cases op <;> simp

section
variable {op : Op} {id : SlotId} (h : Op.role op id = none) (s : State) (p : Slot)
include h

/-- Other contents of an unused slot show in no used slot. -/
theorem slot_setSlot_unused {j : SlotId} (hj : j ∈ Op.used op) : (s.setSlot id p).slot j = s.slot j := by
  rw [slot_setSlot, if_neg]
  rintro rfl
  exact role_ne_none_of_mem_used hj h

/-- The geometry checks look up used slots alone (43 R203). -/
theorem badGeometry_setSlot_unused : (s.setSlot id p).badGeometry op = s.badGeometry op := by
  have zeroSize : (s.setSlot id p).zeroSize = s.zeroSize := by
    rw [State.zeroSize, setSlot_w, setSlot_h, State.zeroSize]
  have zeroPlane : (s.setSlot id p).zeroPlane op = s.zeroPlane op :=
    any_congr_of_mem fun j hj => by rw [slot_setSlot_unused h s p hj]
  have chromaMisfit : (s.setSlot id p).chromaMisfit op = s.chromaMisfit op :=
    any_congr_of_mem fun j hj => by
      rw [slot_setSlot_unused h s p (chromaSlots_subset_used op hj), slot_setSlot_unused h s p (lumaSlot_mem_used op)]
  have shortStride : (s.setSlot id p).shortStride op = s.shortStride op :=
    any_congr_of_mem fun j hj => by rw [slot_setSlot_unused h s p hj]
  have inputMisfit : (s.setSlot id p).inputMisfit = s.inputMisfit := by
    rw [State.inputMisfit, setSlot_w, setSlot_h, ← slot_in0, slot_setSlot_unused h s p (in0_mem_used op), slot_in0,
      State.inputMisfit]
  have planeOutside : (s.setSlot id p).planeOutside op = s.planeOutside op :=
    any_congr_of_mem fun j hj => by rw [slot_setSlot_unused h s p hj]
  rw [State.badGeometry, zeroSize, zeroPlane, chromaMisfit, shortStride, inputMisfit, planeOutside, State.badGeometry]

theorem sizesDiffer_setSlot_unused : (s.setSlot id p).sizesDiffer = s.sizesDiffer := by
  rw [State.sizesDiffer, ← slot_in0, ← slot_out0, slot_setSlot_unused h s p (in0_mem_used op),
    slot_setSlot_unused h s p (out0_mem_used op), slot_in0, slot_out0, State.sizesDiffer]

theorem aligned_setSlot_unused : (s.setSlot id p).aligned op = s.aligned op := by
  rw [Bool.eq_iff_iff, aligned_iff, aligned_iff]
  exact forall₂_congr fun j hj => by rw [slot_setSlot_unused h s p hj]

/-- An unused slot is not checked (10 R28, 43 R202). -/
theorem validate_setSlot_unused (variant : Variant) (std : Nat) :
    validate op variant std (s.setSlot id p) = validate op variant std s := by
  rw [validate, badGeometry_setSlot_unused h, sizesDiffer_setSlot_unused h, aligned_setSlot_unused h, validate]

theorem jobPath_setSlot_unused (variant : Variant) : jobPath op variant (s.setSlot id p) = jobPath op variant s := by
  unfold jobPath autoPath
  rw [setSlot_w, setSlot_h, aligned_setSlot_unused h]

/-- An unused slot is not read: the kernel of a conversion names the other slots only, so each pair of a conversion and a slot
without a role leaves the same bytes by computation (41 R152 to R156). -/
theorem scalarBlock_setSlot_unused (c : Coef) (m : Memory) (b : Cursor) :
    scalarBlock op c (s.setSlot id p) m b = scalarBlock op c s m b := by
  cases op <;> cases id <;> cases h <;> rfl

theorem convert_setSlot_unused (c : Coef) (m : Memory) (bs : List Cursor) :
    convert op c (s.setSlot id p) m bs = convert op c s m bs := by
  simp only [convert, scalarBlock_setSlot_unused h]

/-- The sources of the output bytes lie in the slots that the kernel names (41 R159). -/
theorem imageSources_setSlot_unused : imageSources op (s.setSlot id p) = imageSources op s := by
  cases op <;> cases id <;> cases h <;> rfl

theorem overlaps_setSlot_unused : (s.setSlot id p).overlaps op = s.overlaps op :=
  any_congr_of_mem fun o ho => any_congr_of_mem fun t ht => by
    rw [slot_setSlot_unused h s p (outputs_subset_used op ho), slot_setSlot_unused h s p ht]

theorem writeSet_setSlot_unused : (s.setSlot id p).writeSet op = s.writeSet op :=
  List.flatMap_congr fun o ho => by rw [slot_setSlot_unused h s p (outputs_subset_used op ho)]

theorem freeCells_setSlot_unused : freeCells op (s.setSlot id p) = freeCells op s := by
  have uncertain_eq : uncertain op (s.setSlot id p) = uncertain op s := by
    funext a
    simp only [uncertain, disturbed, overlaps_setSlot_unused h, imageSources_setSlot_unused h, setSlot_touched]
  simp only [freeCells, writeSet_setSlot_unused h, uncertain_eq, setSlot_draws]

/-- The end of a job keeps an unused slot's contents and does the same on any (43 R201 step 6). -/
theorem endJob_setSlot_unused (variant : Variant) :
    endJob op variant (s.setSlot id p) = (endJob op variant s).setSlot id p := by
  have unpredictable_eq : unpredictable op (s.setSlot id p) = unpredictable op s := by
    rw [unpredictable, overlaps_setSlot_unused h, setSlot_touched, unpredictable]
  unfold endJob
  rw [unpredictable_eq, freeCells_setSlot_unused h, jobPath_setSlot_unused h]
  cases unpredictable op s <;> cases id <;> rfl

/-- The whole job keeps an unused slot's contents and does the same on any (43 R201 steps 4 to 6). -/
theorem convertAll_setSlot_unused (variant : Variant) (st : Standard) :
    convertAll op variant st (s.setSlot id p) = (convertAll op variant st s).setSlot id p := by
  unfold convertAll
  rw [enterRun_setSlot, jobPath_setSlot_unused h, setSlot_w, setSlot_h]
  dsimp only
  rw [convert_setSlot_unused h, setSlot_mem]
  exact (congrArg (endJob op variant) (setSlot_withMem ..)).trans (endJob_setSlot_unused h _ p variant)

end

theorem convertAll_slot (op : Op) (variant : Variant) (st : Standard) (s : State) (id : SlotId) :
    (convertAll op variant st s).slot id = s.slot id := by
  rw [convertAll, endJob_slot]
  cases id <;> rfl

/-- Settles O32: from CHECK a command raises an error or runs its job, and either does the same on any contents of an unused
slot. -/
theorem unusedSlotsAreIgnored : Obligations.UnusedSlotsAreIgnored := by
  intro i s id p h hcheck
  simp only [exec_eq, runJob, validate_setSlot_unused h, setSlot_phase, hcheck]
  cases validate i.op i.variant i.std s with
  | error e => exact ⟨State.raise e s, rfl, raise_slot e s id, congrArg _ (raise_setSlot e s id p)⟩
  | ok st =>
    exact ⟨convertAll i.op i.variant st s, rfl, convertAll_slot i.op i.variant st s id,
      congrArg _ (convertAll_setSlot_unused h s p i.variant st)⟩

end Sys2Proof.Proofs
end

section
/-! SUPPORT. Proofs about the pixel functions (spec 41 R150, R151): each result is the saturation (00 R14) of a rational floor
(00 R13, 40 R139), with the bias, shift and offsets that the six coefficient sets share (40 R133, R135, R136). -/

namespace Sys2Proof.Proofs
open Sys2Proof Sys2Proof.Machine Sys2Proof.Laws

/-! ### What the coefficient sets share (40 R135, R136) -/

@[simp] theorem forwardSet_coff (st : Standard) : st.forwardSet.coff = 128 := by cases st <;> rfl

@[simp] theorem forwardSet_shift (st : Standard) : st.forwardSet.shift = 10 := by cases st <;> rfl

@[simp] theorem forwardSet_bias (st : Standard) : st.forwardSet.bias = 512 := by cases st <;> rfl

@[simp] theorem inverseSet_coff (st : Standard) : st.inverseSet.coff = 128 := by cases st <;> rfl

@[simp] theorem inverseSet_shift (st : Standard) : st.inverseSet.shift = 10 := by cases st <;> rfl

@[simp] theorem inverseSet_bias (st : Standard) : st.inverseSet.bias = 512 := by cases st <;> rfl

theorem forwardSet_yoff (st : Standard) : (st.forwardSet.yoff : Int) = if st = .jpegFullRange then 0 else 16 := by
  cases st <;> rfl

theorem inverseSet_yoff (st : Standard) : (st.inverseSet.yoff : Int) = if st = .jpegFullRange then 0 else 16 := by
  cases st <;> rfl

/-! ### The narrowing and the channel (00 R13, R14, 40 R139) -/

theorem clamp8_eq_max_min (v : Int) : clamp8 v = max 0 (min 255 v) := by
  unfold clamp8
  split
  · omega
  · split <;> omega

/-- The narrowing to a byte loses nothing: a clamped value fits its 8 bits (40 R140). -/
theorem toNat_toSample (v : Int) : ((toSample v).toNat : Int) = max 0 (min 255 v) := by
  have nonneg : 0 ≤ clamp8 v := by rw [clamp8_eq_max_min]; omega
  have fits : (clamp8 v).toNat < 2 ^ 8 := by rw [clamp8_eq_max_min]; omega
  rw [toSample, BitVec.toNat_ofNat, Nat.mod_eq_of_lt fits, Int.toNat_of_nonneg nonneg, clamp8_eq_max_min]

/-- The arithmetic shift by 10 is the rational floor of a division by 1024. -/
theorem asr_ten_eq_floor (v : Int) : asr v 10 = ⌊(v : ℚ) / 1024⌋ :=
  (Rat.floor_intCast_div_natCast v 1024).symm

theorem channel_eq_floor {c : Coef} (hshift : c.shift = 10) (hbias : c.bias = 512) (k0 k1 k2 a0 a1 a2 : Int) :
    channel c k0 k1 k2 a0 a1 a2 = ⌊((k0 * a0 + k1 * a1 + k2 * a2 + 512 : Int) : ℚ) / 1024⌋ := by
  rw [channel, hshift, hbias, asr_ten_eq_floor, Nat.cast_ofNat]

theorem channel_forwardSet (st : Standard) (k0 k1 k2 a0 a1 a2 : Int) :
    channel st.forwardSet k0 k1 k2 a0 a1 a2 = ⌊((k0 * a0 + k1 * a1 + k2 * a2 + 512 : Int) : ℚ) / 1024⌋ :=
  channel_eq_floor (forwardSet_shift st) (forwardSet_bias st) ..

theorem channel_inverseSet (st : Standard) (k0 k1 k2 a0 a1 a2 : Int) :
    channel st.inverseSet k0 k1 k2 a0 a1 a2 = ⌊((k0 * a0 + k1 * a1 + k2 * a2 + 512 : Int) : ℚ) / 1024⌋ :=
  channel_eq_floor (inverseSet_shift st) (inverseSet_bias st) ..

/-! ### FWD_PX and INV_PX (41 R150, R151) -/

/-- Settles O48: each component is the narrowing of one channel over the samples less their offsets. -/
theorem forwardPixelArithmetic : Obligations.ForwardPixelArithmetic := by
  intro st y u v
  dsimp only [fwdPx, sample]
  simp only [toNat_toSample, channel_forwardSet, forwardSet_yoff, forwardSet_coff, Nat.cast_ofNat, and_self]

/-- Settles O49: each component is the narrowing of one channel plus its offset, added after the shift. -/
theorem inversePixelArithmetic : Obligations.InversePixelArithmetic := by
  intro st r g b
  dsimp only [invY, invU, invV, sample]
  simp only [toNat_toSample, channel_inverseSet, inverseSet_yoff, inverseSet_coff, Nat.cast_ofNat, and_self]

end Sys2Proof.Proofs
end

section
/-! SUPPORT. Proofs about what dispatch reports (spec 43): AUTO_PATH by its three cases (R206), what a command in CHECK answers
(R202), and the path it leaves in STATUS (R201, R212). -/

namespace Sys2Proof.Proofs
open Sys2Proof Sys2Proof.Machine Sys2Proof.Laws

/-! ### AUTO_PATH (43 R206) -/

section
variable {op : Op} {s : State}

/-- An image without a full 16 × 2 chunk takes the scalar path. -/
theorem autoPath_of_noChunk (h : s.w < 16 ∨ s.h < 2) : autoPath op s = .scalar := if_pos h

/-- With a full chunk, whether the job is aligned decides. -/
theorem autoPath_of_chunk (hw : 16 ≤ s.w) (hh : 2 ≤ s.h) :
    autoPath op s = if s.aligned op then .vectorAligned else .vectorUnaligned :=
  if_neg (not_or.2 ⟨hw.not_gt, hh.not_gt⟩)

theorem autoPath_of_aligned (hw : 16 ≤ s.w) (hh : 2 ≤ s.h) (ha : AlignedJob op s) : autoPath op s = .vectorAligned := by
  rw [autoPath_of_chunk hw hh, if_pos ((aligned_iff s op).2 ha)]

theorem autoPath_of_not_aligned (hw : 16 ≤ s.w) (hh : 2 ≤ s.h) (ha : ¬AlignedJob op s) :
    autoPath op s = .vectorUnaligned := by
  rw [autoPath_of_chunk hw hh, if_neg (mt (aligned_iff s op).1 ha)]

end

/-! ### The answer of a command in CHECK (43 R201, R202) -/

/-- The STD values 0, 1 and 2 name a standard (30 R104). -/
theorem exists_standard_of_lt {std : Nat} (h : std < 3) : ∃ st, Standard.ofField std = some st := by
  interval_cases std <;> exact ⟨_, rfl⟩

/-- In CHECK a command raises the error of its first failing check, or runs its whole job (10 R33). -/
theorem exec_check_cases {s : State} (hcheck : s.phase = .check) (i : Instr) :
    (∃ e, validate i.op i.variant i.std s = .error e ∧ exec i s = .next (State.raise e s)) ∨
      ∃ st, validate i.op i.variant i.std s = .ok st ∧ exec i s = .next (convertAll i.op i.variant st s) := by
  have hrun : s.phase ≠ .run := hcheck ▸ Phase.noConfusion
  rw [exec_eq]
  rcases runJob_cases i.op i.variant i.std s with ⟨_, _, h, _⟩ | ⟨e, hv, _, he⟩ | ⟨_, _, h, _⟩ | ⟨st, hv, _, hst⟩
  · exact absurd h hrun
  · exact .inl ⟨e, hv, he⟩
  · exact absurd h hrun
  · exact .inr ⟨st, hv, hst⟩

/-- In CHECK an accepted job with a supported standard runs to its end (43 R202). -/
theorem exec_check_of_accepted {i : Instr} {s : State} (hcheck : s.phase = .check) (hstd : i.std < 3)
    (h : Accepted i.op i.variant s) : ∃ st, exec i s = .next (convertAll i.op i.variant st s) := by
  obtain ⟨st, hst⟩ := exists_standard_of_lt hstd
  have hok := (validate_ok_iff ..).2 ⟨hst, h⟩
  rcases exec_check_cases hcheck i with ⟨e, herror, -⟩ | ⟨st', -, hrun⟩
  · cases hok.symm.trans herror
  · exact ⟨st', hrun⟩

/-! ### STATUS.PATH (43 R212) -/

section
variable (op : Op) (variant : Variant) (st : Standard) (s : State)

@[simp] theorem convertAll_err : (convertAll op variant st s).err = false := endJob_err ..

/-- The conversion changes no register that the choice of the path reads (43 R214), so the end of the job reports the path
chosen before it. -/
@[simp] theorem convertAll_path : (convertAll op variant st s).path = (jobPath op variant s).code := endJob_path ..

end

/-- Settles O28: a completed job reports the path that its variant, or AUTO_PATH, names, and an error reports 0. -/
theorem pathReported : Obligations.PathReported := by
  intro i s hcheck
  refine ⟨fun hstd hacc => ?_, fun t ht herr => ?_⟩
  · obtain ⟨st, hst⟩ := exec_check_of_accepted hcheck hstd hacc
    have path_of (p : Path) (hp : jobPath i.op i.variant s = p) : (convertAll i.op i.variant st s).path = p.code := by
      rw [convertAll_path, hp]
    refine ⟨_, hst, convertAll_err .., fun hv => path_of .scalar ?_, fun hv => path_of .vectorAligned ?_,
      fun hv => path_of .vectorUnaligned ?_, fun hv hsmall => path_of .scalar ?_,
      fun hv hw hh ha => path_of .vectorAligned ?_, fun hv hw hh ha => path_of .vectorUnaligned ?_⟩
    · rw [hv, jobPath]
    · rw [hv, jobPath]
    · rw [hv, jobPath]
    · rw [hv, jobPath, autoPath_of_noChunk hsmall]
    · rw [hv, jobPath, autoPath_of_aligned hw hh ha]
    · rw [hv, jobPath, autoPath_of_not_aligned hw hh ha]
  · rcases exec_check_cases hcheck i with ⟨e, -, he⟩ | ⟨st, -, hst⟩
    · obtain rfl : State.raise e s = t := Host.Outcome.next.inj (he.symm.trans ht)
      exact raise_path e s
    · obtain rfl : convertAll i.op i.variant st s = t := Host.Outcome.next.inj (hst.symm.trans ht)
      rw [convertAll_err] at herr
      cases herr

end Sys2Proof.Proofs
end

section
/-! SUPPORT. Proofs about the typed errors (spec 60): the check that decides and its cause (R231 to R234, R236), what the error
leaves (R238), and an illegal CMD (R235). -/

namespace Sys2Proof.Proofs
open Sys2Proof Sys2Proof.Machine Sys2Proof.Laws

/-! ### The check that decides (43 R202, 60 R236) -/

/-- No STD value past 2 names a standard (30 R104). -/
theorem standard_ofField_eq_none_of_le {std : Nat} (h : 3 ≤ std) : Standard.ofField std = none := by
  match std, h with
  | _ + 3, _ => rfl

/-- Of 0, 1 and 2 each names a standard (30 R104). -/
theorem standard_ofField_ne_none_of_lt {std : Nat} (h : std < 3) : Standard.ofField std ≠ none :=
  Option.ne_none_iff_exists'.2 (exists_standard_of_lt h)

/-- Check 2 comes before the checks of the planes (43 R202). -/
theorem validate_of_unsupported {std : Nat} (h : 3 ≤ std) (op : Op) (variant : Variant) (s : State) :
    validate op variant std s = .error .unsupportedStandard := by
  rw [validate, standard_ofField_eq_none_of_le h]

section
variable {std : Nat} (hstd : std < 3) (op : Op) (variant : Variant) (s : State)
include hstd

/-- With a supported standard geometry is checked first (43 R203). -/
theorem validate_invalidGeometry_iff :
    validate op variant std s = .error .invalidGeometry ↔ GeometryFault op s := by
  obtain ⟨st, -, hcases⟩ := (validate_cases op variant std s).resolve_left fun h => standard_ofField_ne_none_of_lt hstd h.1
  rcases hcases with ⟨hg, hv⟩ | ⟨hg, -, hv⟩ | ⟨hg, -, -, -, hv⟩ | ⟨hg, -, -, hv⟩
  · exact iff_of_true hv hg
  all_goals simp [hv, hg]

/-- The primary planes' sizes are compared once the geometry is valid (43 R204). -/
theorem validate_dimensionMismatch_iff :
    validate op variant std s = .error .dimensionMismatch ↔ ¬GeometryFault op s ∧ SizeFault s := by
  obtain ⟨st, -, hcases⟩ := (validate_cases op variant std s).resolve_left fun h => standard_ofField_ne_none_of_lt hstd h.1
  rcases hcases with ⟨hg, hv⟩ | ⟨hg, hs, hv⟩ | ⟨-, hs, -, -, hv⟩ | ⟨-, hs, -, hv⟩
  · simp [hv, hg]
  · exact iff_of_true hv ⟨hg, hs⟩
  all_goals simp [hv, hs]

/-- Alignment is checked last, and for the VA commands alone (43 R205). -/
theorem validate_alignmentViolation_iff :
    validate op variant std s = .error .alignmentViolation ↔
      ¬GeometryFault op s ∧ ¬SizeFault s ∧ variant = .vectorAligned ∧ ¬AlignedJob op s := by
  obtain ⟨st, -, hcases⟩ := (validate_cases op variant std s).resolve_left fun h => standard_ofField_ne_none_of_lt hstd h.1
  rcases hcases with ⟨hg, hv⟩ | ⟨-, hs, hv⟩ | ⟨hg, hs, hva, ha, hv⟩ | ⟨-, -, ha, hv⟩
  · simp [hv, hg]
  · simp [hv, hs]
  · exact iff_of_true hv ⟨hg, hs, hva, ha⟩
  · simpa [hv] using fun _ _ => ha

end

/-- A used plane off the 16-byte grid is what ALIGNED excludes (43 R205). -/
theorem not_alignedJob_iff (op : Op) (s : State) :
    ¬AlignedJob op s ↔ ∃ id ∈ Op.used op, (s.slot id).base.toNat % 16 ≠ 0 ∨ (s.slot id).stride.toNat % 16 ≠ 0 := by
  simp only [AlignedJob, not_forall, not_and_or, exists_prop]

/-! ### What an error leaves (60 R230, R238) -/

theorem failedWith_raise (e : JobError) (s : State) : FailedWith e.code s (State.raise e s) := rfl

/-- The codes of distinct errors are distinct (60 R230). -/
theorem code_injective : Function.Injective JobError.code := by
  intro e e'
  cases e <;> cases e' <;> simp [JobError.code]

/-- Code 0 is no error (60 R230). -/
theorem code_ne_zero (e : JobError) : e.code ≠ 0#3 := by
  cases e <;> decide

@[simp] theorem convertAll_errCode (op : Op) (variant : Variant) (st : Standard) (s : State) :
    (convertAll op variant st s).errCode = 0#3 := endJob_errCode ..

section
variable {i : Instr} {s : State} {e : JobError} (hcheck : s.phase = .check)
include hcheck

/-- In CHECK the error of the deciding check ends the job (43 R202, 60 R238). -/
theorem exec_fails_of_validate (h : validate i.op i.variant i.std s = .error e) :
    ∃ t, exec i s = .next t ∧ FailedWith e.code s t := by
  rcases exec_check_cases hcheck i with ⟨e', he', hrun⟩ | ⟨st, hst, -⟩
  · cases h.symm.trans he'
    exact ⟨_, hrun, failedWith_raise e s⟩
  · cases h.symm.trans hst

/-- In CHECK a job ends with an error's code only when the checks gave that error (43 R202, 60 R230). -/
theorem validate_of_exec_errCode {t : State} (ht : exec i s = .next t) (hcode : t.errCode = e.code) :
    validate i.op i.variant i.std s = .error e := by
  rcases exec_check_cases hcheck i with ⟨e', he', hrun⟩ | ⟨st, -, hrun⟩
  · obtain rfl : State.raise e' s = t := Host.Outcome.next.inj (hrun.symm.trans ht)
    rw [he', code_injective hcode]
  · obtain rfl : convertAll i.op i.variant st s = t := Host.Outcome.next.inj (hrun.symm.trans ht)
    exact absurd (hcode.symm.trans (convertAll_errCode ..)) (code_ne_zero e)

end

/-! ### The errors of the checks (60 R231 to R234) -/

/-- Settles O13: a standard outside the set decides before any register is looked at. -/
theorem unsupportedStandardRaised : Obligations.UnsupportedStandardRaised := fun i s hstd hcheck =>
  exec_fails_of_validate hcheck (validate_of_unsupported hstd i.op i.variant s)

/-- Settles O14: the geometry check gives its error exactly on G1 to G6, and no other check gives that code. -/
theorem invalidGeometryRaisedExactly : Obligations.InvalidGeometryRaisedExactly := by
  intro i s hstd hcheck
  have hiff := validate_invalidGeometry_iff hstd i.op i.variant s
  exact ⟨fun hg => exec_fails_of_validate hcheck (hiff.2 hg),
    fun hg t ht hcode => hg (hiff.1 (validate_of_exec_errCode hcheck ht hcode))⟩

/-- Settles O15: past the geometry check the size check gives its error exactly on differing primary planes, and no other check
gives that code. -/
theorem dimensionMismatchRaisedExactly : Obligations.DimensionMismatchRaisedExactly := by
  intro i s hstd hcheck hg
  have hiff := validate_dimensionMismatch_iff hstd i.op i.variant s
  refine ⟨fun hs => exec_fails_of_validate hcheck (hiff.2 ⟨hg, hs⟩), fun heq t ht hcode => ?_⟩
  obtain ⟨-, hs⟩ := hiff.1 (validate_of_exec_errCode hcheck ht hcode)
  exact hs heq

/-- Settles O16: past the earlier checks a plane off the grid fails ALIGNED, which a VA command is checked for. -/
theorem alignmentViolationRaised : Obligations.AlignmentViolationRaised := by
  intro i s hstd hcheck hg hs hva hoff
  have hmis : ¬AlignedJob i.op s := (not_alignedJob_iff i.op s).2 hoff
  exact exec_fails_of_validate hcheck ((validate_alignmentViolation_iff hstd i.op i.variant s).2 ⟨hg, hs, hva, hmis⟩)

/-! ### An illegal CMD (30 R105, 60 R235) -/

/-- The reserved OP values name no conversion (30 R105). -/
theorem op_ofField_eq_none_of_lt : ∀ v : BitVec 3, 4 < v.toNat → Op.ofField v = none := by decide

/-- A CMD with a reserved bit set or a reserved OP holds no command (30 R105). -/
theorem fetch_eq_none_of_illegal {s : State}
    (h : s.cmd &&& 0xFFFFFCC8#32 ≠ 0#32 ∨ 4 < (s.cmd.extractLsb' 0 3).toNat) : s.fetch = none := by
  by_cases hbit : s.cmd &&& reservedMask ≠ 0#32
  · rw [State.fetch, decode, if_pos hbit]
  · have hop : 4 < (s.cmd.extractLsb' 0 3).toNat := h.resolve_left hbit
    rw [State.fetch, decode, if_neg hbit, op_ofField_eq_none_of_lt _ hop]

theorem noCommand_of_check {s : State} (hcheck : s.phase = .check) :
    noCommand s = .next (State.raise .illegalCommand s) :=
  if_neg (hcheck ▸ Phase.noConfusion)

section
variable {s : State} (hcheck : s.phase = .check) (hnone : s.fetch = none)
include hcheck hnone

theorem engineRun_of_illegal : engineRun s = .next (State.raise .illegalCommand s) := by
  rw [engineRun, if_neg (hcheck ▸ Phase.noConfusion), hnone]
  exact noCommand_of_check hcheck

theorem engineTick_of_illegal : engineTick s = .next (State.raise .illegalCommand s) := by
  rw [engineTick, if_neg (hcheck ▸ Phase.noConfusion), hnone]
  exact noCommand_of_check hcheck

end

/-- When the host does nothing more the engine runs its job (notes/assumptions/2.md). -/
theorem step_of_silent {s : State} (h : s.host = []) : step s = engineRun { s with host := [] } := by
  have hself : { s with host := [] } = s := by rw [← h]
  rw [step, h, hself]

/-- A pending wait lets the engine run its job (notes/assumptions/2.md). -/
theorem step_engineRun {s : State} {rest : List HostEvent} (h : s.host = .engineRun :: rest) :
    step s = engineRun { s with host := rest } := by
  rw [step, h]

/-- A pending tick is one sequencer transition (notes/assumptions/2.md). -/
theorem step_engineTick {s : State} {rest : List HostEvent} (h : s.host = .engineTick :: rest) :
    step s = engineTick { s with host := rest } := by
  rw [step, h]

/-- Settles O18: the decoder gives no command, so the engine, run or ticked, raises IllegalCommand. -/
theorem illegalCommandRaised : Obligations.IllegalCommandRaised := by
  intro s rest hhost hcheck hill
  have hnone : State.fetch { s with host := rest } = none := fetch_eq_none_of_illegal hill
  refine ⟨State.raise .illegalCommand { s with host := rest }, ?_, failedWith_raise ..⟩
  rcases hhost with ⟨hsilent, rfl⟩ | hrun | htick
  · exact (step_of_silent hsilent).trans (engineRun_of_illegal hcheck hnone)
  · exact (step_engineRun hrun).trans (engineRun_of_illegal hcheck hnone)
  · exact (step_engineTick htick).trans (engineTick_of_illegal hcheck hnone)

end Sys2Proof.Proofs
end

section
/-! SUPPORT. Proofs about the command word (spec 30): the reserved bits and the three fields as arithmetic on the word (R101),
what the decoder accepts (R105, R110), and that decoder and encoder are each other's inverse (R107). -/

namespace Sys2Proof.Proofs
open Sys2Proof Sys2Proof.Machine Sys2Proof.Laws

/-! ### The fields of a word (30 R101) -/

/-- Masking keeps a field that the mask leaves whole. -/
theorem extractLsb'_and_mask {mask : Word} {start len : Nat} (h : mask.extractLsb' start len = BitVec.allOnes len)
    (w : Word) : (w &&& mask).extractLsb' start len = w.extractLsb' start len := by
  rw [BitVec.extractLsb'_and, h, BitVec.and_allOnes]

/-- Words that agree under a mask agree in every field that the mask leaves whole. -/
theorem extractLsb'_eq_of_and_eq {mask w w' : Word} (he : w &&& mask = w' &&& mask) (start len : Nat)
    (h : mask.extractLsb' start len = BitVec.allOnes len) : w.extractLsb' start len = w'.extractLsb' start len := by
  rw [← extractLsb'_and_mask h w, he, extractLsb'_and_mask h w']

theorem toNat_field (w : Word) (start len : Nat) : (w.extractLsb' start len).toNat = w.toNat / 2 ^ start % 2 ^ len := by
  rw [BitVec.extractLsb'_toNat, Nat.shiftRight_eq_div_pow]

/-- A word without reserved bits is its three fields in their places. -/
theorem toNat_eq_fields {w : Word} (h : w &&& reservedMask = 0#32) :
    w.toNat = (w.extractLsb' 0 3).toNat + 16 * (w.extractLsb' 4 2).toNat + 256 * (w.extractLsb' 8 2).toNat := by
  have reserved (start len : Nat) (hm : reservedMask.extractLsb' start len = BitVec.allOnes len) :
      w.toNat / 2 ^ start % 2 ^ len = 0 := by
    rw [← toNat_field, ← extractLsb'_and_mask hm, h, toNat_field, BitVec.toNat_ofNat, Nat.zero_mod, Nat.zero_div,
      Nat.zero_mod]
  have bit3 := reserved 3 1 (by decide)
  have bits6 := reserved 6 2 (by decide)
  have bits10 := reserved 10 22 (by decide)
  simp only [toNat_field]
  have := w.isLt
  omega

/-! ### The fields of a command (30 R102 to R104) -/

@[simp] theorem make_op (op : Op) (variant : Variant) (std : Nat) : (Instr.make op variant std).op = op := by
  cases op <;> cases variant <;> rfl

@[simp] theorem make_variant (op : Op) (variant : Variant) (std : Nat) : (Instr.make op variant std).variant = variant := by
  cases op <;> cases variant <;> rfl

@[simp] theorem make_std (op : Op) (variant : Variant) (std : Nat) : (Instr.make op variant std).std = std := by
  cases op <;> cases variant <;> rfl

/-- A command is its conversion, variant and standard (30 R107). -/
theorem make_eta (i : Instr) : Instr.make i.op i.variant i.std = i := by
  cases i <;> rfl

theorem wellFormed_eq (i : Instr) : i.wellFormed = stdFits i.std := by
  cases i <;> rfl

/-- OP's values (30 R102). -/
theorem op_ofField_eq_some_iff (v : BitVec 3) (op : Op) : Op.ofField v = some op ↔ v.toNat = op.field := by
  revert v
  cases op <;> decide

/-- OP's reserved values (30 R105). -/
theorem op_ofField_eq_none_iff : ∀ v : BitVec 3, Op.ofField v = none ↔ 4 < v.toNat := by decide

/-- VAR's values (30 R103). -/
theorem variant_field_ofField : ∀ v : BitVec 2, (Variant.ofField v).field = v.toNat := by decide

theorem variant_field_injective : Function.Injective Variant.field := by
  intro v v'
  cases v <;> cases v' <;> simp [Variant.field]

/-! ### The decoder (30 R105, R110) -/

/-- What the decoder accepts, and the command it reads: no reserved bit, a legal OP, and the three fields. -/
theorem decode_eq_ok_iff (w : Word) (i : Instr) :
    decode w = .ok i ↔
      w &&& reservedMask = 0#32 ∧ Op.ofField (w.extractLsb' 0 3) = some i.op ∧
        Variant.ofField (w.extractLsb' 4 2) = i.variant ∧ (w.extractLsb' 8 2).toNat = i.std := by
  unfold decode
  split
  · rename_i hbit
    simp [hbit]
  · rename_i hbit
    rw [not_not] at hbit
    cases Op.ofField (w.extractLsb' 0 3) with
    | none => simp
    | some op =>
      simp only [hbit, Except.ok.injEq, Option.some.injEq, true_and]
      constructor
      · rintro rfl
        simp
      · rintro ⟨rfl, hv, hs⟩
        rw [hv, hs, make_eta]

/-- The word of a well-formed command has its fields in place, one case of the per-command law each (30 R107). -/
theorem encode_fields (i : Instr) : EncodesLegal.Statement i := by
  cases i with
  | i420Rgb24S std => exact EncodesLegal.i420Rgb24S std
  | rgb24I420S std => exact EncodesLegal.rgb24I420S std
  | nv12Rgb24S std => exact EncodesLegal.nv12Rgb24S std
  | nv21Rgb24S std => exact EncodesLegal.nv21Rgb24S std
  | rgba32I420S std => exact EncodesLegal.rgba32I420S std
  | i420Rgb24Va std => exact EncodesLegal.i420Rgb24Va std
  | rgb24I420Va std => exact EncodesLegal.rgb24I420Va std
  | nv12Rgb24Va std => exact EncodesLegal.nv12Rgb24Va std
  | nv21Rgb24Va std => exact EncodesLegal.nv21Rgb24Va std
  | rgba32I420Va std => exact EncodesLegal.rgba32I420Va std
  | i420Rgb24Vu std => exact EncodesLegal.i420Rgb24Vu std
  | rgb24I420Vu std => exact EncodesLegal.rgb24I420Vu std
  | nv12Rgb24Vu std => exact EncodesLegal.nv12Rgb24Vu std
  | nv21Rgb24Vu std => exact EncodesLegal.nv21Rgb24Vu std
  | rgba32I420Vu std => exact EncodesLegal.rgba32I420Vu std
  | i420Rgb24Auto std => exact EncodesLegal.i420Rgb24Auto std
  | rgb24I420Auto std => exact EncodesLegal.rgb24I420Auto std
  | nv12Rgb24Auto std => exact EncodesLegal.nv12Rgb24Auto std
  | nv21Rgb24Auto std => exact EncodesLegal.nv21Rgb24Auto std
  | rgba32I420Auto std => exact EncodesLegal.rgba32I420Auto std

/-- Settles O1: the encoder leaves the reserved bits 0 and each field holds the command's own value, which is what the
decoder reads. -/
theorem decodeOfEncodeIsTheCommand : Obligations.DecodeOfEncodeIsTheCommand := by
  intro i hwf
  obtain ⟨hbits, hop, hvar, hstd⟩ := encode_fields i hwf
  refine (decode_eq_ok_iff _ i).2 ⟨hbits, (op_ofField_eq_some_iff ..).2 hop, variant_field_injective ?_, hstd⟩
  rw [variant_field_ofField, hvar]

/-- Settles O2: a word that decodes is the sum of its three fields, and these are the command's. -/
theorem encodeOfDecodeIsTheWord : Obligations.EncodeOfDecodeIsTheWord := by
  intro w i hdec
  obtain ⟨hbits, hop, hvar, hstd⟩ := (decode_eq_ok_iff w i).1 hdec
  refine ⟨?_, ?_⟩
  · rw [wellFormed_eq, stdFits, decide_eq_true_eq, ← hstd]
    exact (w.extractLsb' 8 2).isLt
  · rw [encode, ← (op_ofField_eq_some_iff ..).1 hop, ← hvar, variant_field_ofField, ← hstd, ← toNat_eq_fields hbits,
      BitVec.ofNat_toNat, BitVec.setWidth_eq]

/-- A word is no command exactly by a reserved bit or a reserved OP (30 R105). -/
theorem decode_rejects_iff (w : Word) :
    (∀ i, decode w ≠ .ok i) ↔ w &&& reservedMask ≠ 0#32 ∨ 4 < (w.extractLsb' 0 3).toNat := by
  rw [← op_ofField_eq_none_iff, ← not_iff_not]
  push Not
  constructor
  · rintro ⟨i, hdec⟩
    obtain ⟨hbits, hop, -, -⟩ := (decode_eq_ok_iff w i).1 hdec
    exact ⟨hbits, by simp [hop]⟩
  · rintro ⟨hbits, hop⟩
    obtain ⟨op, hop⟩ := Option.ne_none_iff_exists'.1 hop
    exact ⟨Instr.make op (Variant.ofField (w.extractLsb' 4 2)) (w.extractLsb' 8 2).toNat,
      (decode_eq_ok_iff ..).2 (by simp [hbits, hop])⟩

/-- Settles O3: the decoder rejects by the reserved bits and OP alone, and it takes conversion and variant from bits that
words with another STD share. -/
theorem illegalCommandWordsExactly : Obligations.IllegalCommandWordsExactly := by
  refine ⟨decode_rejects_iff, fun w w' i hagree hdec => ?_⟩
  obtain ⟨hbits, hop, hvar, -⟩ := (decode_eq_ok_iff w i).1 hdec
  have hbits' : w' &&& reservedMask = 0#32 := by
    have hsub : (0xFFFFFCFF#32 : Word) &&& reservedMask = reservedMask := by decide
    rw [← hsub, ← BitVec.and_assoc, ← hagree, BitVec.and_assoc, hsub, hbits]
  refine ⟨Instr.make i.op i.variant (w'.extractLsb' 8 2).toNat, (decode_eq_ok_iff ..).2 ⟨hbits', ?_, ?_, ?_⟩,
    make_op .., make_variant ..⟩
  · rw [← extractLsb'_eq_of_and_eq hagree 0 3 (by decide), hop, make_op]
  · rw [← extractLsb'_eq_of_and_eq hagree 4 2 (by decide), hvar, make_variant]
  · rw [make_std]

/-- Settles O4, by running the decoder on the six words. -/
theorem tableWordsDecode : Obligations.TableWordsDecode := by
  unfold Obligations.TableWordsDecode
  decide

end Sys2Proof.Proofs
end

section
/-! SUPPORT. Proofs about the register window (spec 10 R21 to R30): which aligned offset is which register, what a word write
and a word read do, and the STATUS word. -/

namespace Sys2Proof.Proofs
open Sys2Proof Sys2Proof.Machine Sys2Proof.Laws

/-! ### Offsets (10 R21, R29) -/

/-- An aligned offset inside the window is a register's. -/
theorem regAt_of_aligned {off : Nat} (h4 : off % 4 = 0) (hle : off ≤ 0xFC) : regAt off = some (regOfOffset off) :=
  if_pos ⟨h4, hle⟩

/-- An offset off the word grid or past the window is no register's (93 U7). -/
theorem regAt_of_undefined {off : Nat} (h : off % 4 ≠ 0 ∨ 0xFC < off) : regAt off = none :=
  if_neg fun ⟨h4, hle⟩ => h.elim (absurd h4) hle.not_gt

/-- The offset of a register inside its slot (10 R21). -/
def fieldOffset : SlotField → Nat
  | .base => 0x0
  | .stride => 0x4
  | .pw => 0x8
  | .ph => 0xC

/-- The offset of a job register, one that a write changes while not BUSY (10 R21, R29); `none` for every other register. -/
def jobOffset : Reg → Option Nat
  | .cmd => some 0x08
  | .width => some 0x0C
  | .height => some 0x10
  | .slot id f => some (slotOffset id + fieldOffset f)
  | _ => none

/-- The job registers among the words of the window. -/
theorem jobOffset_word : ∀ j < 64, jobOffset (regOfOffset (4 * j)) =
    if (2 ≤ j ∧ j ≤ 4) ∨ (8 ≤ j ∧ j < 32) then some (4 * j) else none := by decide

theorem jobOffset_regOfOffset {off : Nat} (h4 : off % 4 = 0) (hle : off ≤ 0xFC) :
    jobOffset (regOfOffset off) = if (0x08 ≤ off ∧ off ≤ 0x10) ∨ (0x20 ≤ off ∧ off < 0x80) then some off else none := by
  obtain ⟨j, rfl⟩ : ∃ j, off = 4 * j := ⟨off / 4, by omega⟩
  rw [jobOffset_word j (by omega)]
  refine if_congr ?_ rfl rfl
  omega

/-- CTRL is at offset 0 alone (10 R21). -/
theorem regOfOffset_eq_ctrl {off : Nat} (h4 : off % 4 = 0) (hle : off ≤ 0xFC) (h : regOfOffset off = .ctrl) : off = 0 := by
  have ctrl_word : ∀ j < 64, regOfOffset (4 * j) = .ctrl → j = 0 := by decide
  obtain ⟨j, rfl⟩ : ∃ j, off = 4 * j := ⟨off / 4, by omega⟩
  rw [ctrl_word j (by omega) h]

/-! ### A word write (10 R29) -/

/-- A pending write of an aligned word is a write of its register. -/
theorem step_writeReg_aligned {s : State} {off : Nat} {v : Word} {rest : List HostEvent} (h4 : off % 4 = 0)
    (hle : off ≤ 0xFC) (h : s.host = .writeReg off v :: rest) :
    step s = .next (State.writeReg { s with host := rest } (regOfOffset off) v) := by
  rw [step_writeReg h, hostWriteReg, regAt_of_aligned h4 hle]

/-- A register that is neither CTRL nor a job register ignores a write (10 R29). -/
theorem writeReg_ignored {r : Reg} (hctrl : r ≠ .ctrl) (hjob : jobOffset r = none) (s : State) (v : Word) :
    s.writeReg r v = s := by
  unfold State.writeReg
  split
  · rfl
  · cases r with
    | ctrl => exact absurd rfl hctrl
    | cmd => cases hjob
    | width => cases hjob
    | height => cases hjob
    | slot id f => cases hjob
    | _ => rfl

section
variable {s : State} {r : Reg} {off : Nat} (hidle : s.phase = .idle) (hjob : jobOffset r = some off) (v : Word)
include hidle hjob

/-- A job register written while not BUSY reads back (10 R29). -/
theorem readReg_writeReg_same : (s.writeReg r v).readReg r = v := by
  unfold State.writeReg
  rw [if_neg fun hb => (busy_iff s).1 hb hidle]
  cases r with
  | slot id f => simp [State.readReg]
  | cmd => rfl
  | width => rfl
  | height => rfl
  | _ => cases hjob

/-- It is the only register that changes (10 R29). -/
theorem readReg_writeReg_other {r' : Reg} (hne : r' ≠ r) : (s.writeReg r v).readReg r' = s.readReg r' := by
  unfold State.writeReg
  rw [if_neg fun hb => (busy_iff s).1 hb hidle]
  cases r with
  | slot id f =>
    cases r' with
    | slot id' f' =>
      by_cases hid : id' = id
      · subst hid
        have hf : f' ≠ f := fun hf => hne (hf ▸ rfl)
        simp [State.readReg, hf]
      · simp [State.readReg, hid]
    | _ => cases id <;> rfl
  | cmd =>
    cases r' with
    | cmd => exact absurd rfl hne
    | _ => rfl
  | width =>
    cases r' with
    | width => exact absurd rfl hne
    | _ => rfl
  | height =>
    cases r' with
    | height => exact absurd rfl hne
    | _ => rfl
  | _ => cases hjob

/-- The engine, data memory and the model's own fields keep their values (10 R29). -/
theorem writeReg_frame : ∃ cmd width height in0 in1 in2 out0 out1 out2, s.writeReg r v =
    { s with cmd := cmd, width := width, height := height, in0 := in0, in1 := in1, in2 := in2, out0 := out0, out1 := out1,
             out2 := out2 } := by
  unfold State.writeReg
  rw [if_neg fun hb => (busy_iff s).1 hb hidle]
  cases r with
  | slot id f => cases id <;> exact ⟨_, _, _, _, _, _, _, _, _, rfl⟩
  | cmd => exact ⟨_, _, _, _, _, _, _, _, _, rfl⟩
  | width => exact ⟨_, _, _, _, _, _, _, _, _, rfl⟩
  | height => exact ⟨_, _, _, _, _, _, _, _, _, rfl⟩
  | _ => cases hjob

end

/-- Settles O9: while BUSY every write is ignored, and the named offsets hold neither CTRL nor a job register. -/
theorem otherWritesAreIgnored : Obligations.OtherWritesAreIgnored := by
  intro s off v rest h4 hle hwhere hhost
  rw [step_writeReg_aligned h4 hle hhost]
  by_cases hidle : s.phase = .idle
  · have hoff := hwhere.resolve_left (not_not_intro hidle)
    have hjob : jobOffset (regOfOffset off) = none := by
      rw [jobOffset_regOfOffset h4 hle, if_neg (by omega)]
    have hctrl : regOfOffset off ≠ .ctrl := fun h => by
      have := regOfOffset_eq_ctrl h4 hle h
      omega
    rw [writeReg_ignored hctrl hjob]
  · rw [writeReg_of_busy (s := { s with host := rest }) hidle]

/-! ### A word read (10 R21 to R30) -/

/-- A pending read of an aligned word returns its register and changes nothing else. -/
theorem step_readReg_aligned {s : State} {off : Nat} {rest : List HostEvent} (h4 : off % 4 = 0) (hle : off ≤ 0xFC)
    (h : s.host = .readReg off :: rest) :
    step s = .next { s with host := rest, readData := s.readReg (regOfOffset off) } := by
  rw [step_readReg h, hostReadReg, regAt_of_aligned h4 hle]
  cases regOfOffset off <;> rfl

/-- Settles O8: the offset is a job register's, whose write reads back, changes no other register and nothing of the
engine. -/
theorem jobRegisterWritesReadBack : Obligations.JobRegisterWritesReadBack := by
  intro s off v rest hidle hoff hhost
  have h4 : off % 4 = 0 := by omega
  have hle : off ≤ 0xFC := by omega
  have hjob : jobOffset (regOfOffset off) = some off := by
    rw [jobOffset_regOfOffset h4 hle, if_pos (by omega)]
  let s' : State := { s with host := .readReg off :: rest }
  have hidle' : s'.phase = .idle := hidle
  have hread : (s'.writeReg (regOfOffset off) v).readReg (regOfOffset off) = v := readReg_writeReg_same hidle' hjob v
  have hother (off' : Nat) (h4' : off' % 4 = 0) (hle' : off' ≤ 0xFC) (hne : off' ≠ off) :
      (s'.writeReg (regOfOffset off) v).readReg (regOfOffset off') = s.readReg (regOfOffset off') := by
    refine (readReg_writeReg_other hidle' hjob v fun he => hne ?_).trans (by cases regOfOffset off' <;> rfl)
    rw [← he, jobOffset_regOfOffset h4' hle'] at hjob
    exact Option.some.inj (Option.ite_none_right_eq_some.1 hjob).2
  obtain ⟨_, _, _, _, _, _, _, _, _, hframe⟩ := writeReg_frame hidle' hjob v
  refine ⟨s'.writeReg (regOfOffset off) v, step_writeReg_aligned h4 hle hhost, by rw [hframe], ?_, hother, ?_⟩
  · rw [step_readReg_aligned h4 hle (rest := rest) (by rw [hframe]), hread]
  · rw [hframe]
    exact ⟨hidle, rfl, rfl, rfl, rfl, rfl, rfl, rfl, rfl, rfl, rfl, rfl⟩

/-- The offsets whose reads the spec names one by one: STATUS, CMD, WIDTH, HEIGHT, the 24 slot registers, the 13 of COEF. -/
def namedOffsets : List Nat := [0x04, 0x08, 0x0C, 0x10] ++ (List.range 37).map fun j => 0x20 + 4 * j

theorem namedOffsets_aligned : ∀ off ∈ namedOffsets, off % 4 = 0 ∧ off ≤ 0xFC := by decide

/-- The reserved offsets (10 R21). -/
theorem regOfOffset_reserved {off : Nat} (h4 : off % 4 = 0) (h : (0x14 ≤ off ∧ off < 0x20) ∨ (0xB4 ≤ off ∧ off ≤ 0xFC)) :
    regOfOffset off = .reserved := by
  have reserved_word : ∀ j < 64, (5 ≤ j ∧ j < 8) ∨ 45 ≤ j → regOfOffset (4 * j) = .reserved := by decide
  obtain ⟨j, rfl⟩ : ∃ j, off = 4 * j := ⟨off / 4, by omega⟩
  exact reserved_word j (by omega) (by omega)

/-- Settles O10: the table of named reads is `readReg` at the named offsets, and the reserved offsets hold the reserved
register. -/
theorem windowReadsAnswer : Obligations.WindowReadsAnswer := by
  intro s off rest hhost
  refine ⟨fun r hr hoff => ?_, fun h4 hoff => ?_⟩
  · have hmap : r ∈ namedOffsets.map fun off => (off, s.readReg (regOfOffset off)) := hr
    obtain ⟨off', hmem, rfl⟩ := List.mem_map.1 hmap
    obtain ⟨h4, hle⟩ := namedOffsets_aligned off' hmem
    subst hoff
    exact step_readReg_aligned h4 hle hhost
  · rw [step_readReg_aligned h4 (by omega) hhost, regOfOffset_reserved h4 hoff, State.readReg]

/-- Settles O12: neither access finds a register there. -/
theorem undefinedWindowAccessIsRefused : Obligations.UndefinedWindowAccessIsRefused := by
  intro s off v rest hoff
  refine ⟨fun hhost => ?_, fun hhost => ?_⟩
  · rw [step_writeReg hhost, hostWriteReg, regAt_of_undefined hoff]
  · rw [step_readReg hhost, hostReadReg, regAt_of_undefined hoff]

/-! ### STATUS (10 R23) -/

/-- The places of the five fields in the STATUS word, on each of their 256 values. -/
theorem statusWord_places : ∀ (path : BitVec 2) (code : BitVec 3) (err done busy : Bool),
    let w : Word := 0#22 ++ path ++ 0#1 ++ code ++ 0#1 ++ BitVec.ofBool err ++ BitVec.ofBool done ++ BitVec.ofBool busy
    w.getLsbD 0 = busy ∧ w.getLsbD 1 = done ∧ w.getLsbD 2 = err ∧ w.getLsbD 3 = false ∧ w.extractLsb' 4 3 = code ∧
      w.getLsbD 7 = false ∧ w.extractLsb' 8 2 = path ∧ w.extractLsb' 10 22 = 0#22 := by decide

/-- Settles O11: STATUS is the word of its five fields, with BUSY for PHASE ≠ IDLE. -/
theorem statusWordFields : Obligations.StatusWordFields :=
  fun s => statusWord_places s.path s.errCode s.err s.done s.busy

end Sys2Proof.Proofs
end

section
/-! SUPPORT. Proofs about the host's accesses and the step (spec 10 R36, 70): one rule per event, plain memory, the bytes
noted while BUSY (20 R77), the reset event (R260), and what the engine does when nothing is pending (43 R201, 60 R245). -/

namespace Sys2Proof.Proofs
open Sys2Proof Sys2Proof.Machine Sys2Proof.Laws

/-! ### One rule per event (70 R264) -/

section
variable {s : State} {rest : List HostEvent}

/-- With nothing pending the engine runs its job (notes/assumptions/2.md). -/
theorem step_silent (h : s.host = []) : step s = engineRun s := by
  rw [step, h]

theorem step_writeMem {a : Word} {v : Byte} (h : s.host = .writeMem a v :: rest) :
    step s = .next { s with
      host := rest
      mem := s.mem.write a.toNat v
      touched := if inActiveSets s a.toNat then noteAddress s.touched a.toNat else s.touched } := by
  rw [step, h]
  rfl

theorem step_readMem {a : Word} (h : s.host = .readMem a :: rest) : step s = hostReadMem a { s with host := rest } := by
  rw [step, h]

theorem step_reset (h : s.host = .reset :: rest) : step s = hostReset { s with host := rest } := by
  rw [step, h]

end

/-! ### The engine (43 R201, 60 R245) -/

/-- A busy engine runs the command that CMD decodes to (30 R110). -/
theorem engineRun_of_decode {s : State} {i : Instr} (hbusy : s.phase ≠ .idle) (hdec : decode s.cmd = .ok i) :
    engineRun s = exec i s := by
  rw [engineRun, if_neg hbusy, fetch_eq_some_iff.2 hdec]

theorem engineTick_of_decode {s : State} {i : Instr} (hbusy : s.phase ≠ .idle) (hdec : decode s.cmd = .ok i) :
    engineTick s = advanceJob i.op i.variant i.std s := by
  rw [engineTick, if_neg hbusy, fetch_eq_some_iff.2 hdec]

theorem engineRun_of_idle {s : State} (h : s.phase = .idle) : engineRun s = .next s := if_pos h

theorem engineTick_of_idle {s : State} (h : s.phase = .idle) : engineTick s = .next s := if_pos h

/-- Settles O5: with nothing pending, or a wait, a busy engine runs the command of CMD. -/
theorem stepRunsTheDecodedCommand : Obligations.StepRunsTheDecodedCommand := by
  intro s i hbusy hdec
  refine ⟨fun hhost => ?_, fun rest hhost => ?_⟩
  · rw [step_silent hhost, engineRun_of_decode hbusy hdec]
  · rw [step_engineRun hhost, engineRun_of_decode (s := { s with host := rest }) hbusy hdec]

/-- Settles O6: neither a run nor a transition moves an idle engine. -/
theorem idleEngineDoesNothing : Obligations.IdleEngineDoesNothing := by
  intro s hidle
  refine ⟨fun hhost => ?_, fun rest hhost => ?_, fun rest hhost => ?_⟩
  · rw [step_silent hhost, engineRun_of_idle hidle]
  · rw [step_engineRun hhost, engineRun_of_idle (s := { s with host := rest }) hidle]
  · rw [step_engineTick hhost, engineTick_of_idle (s := { s with host := rest }) hidle]

/-! ### Data memory (10 R36, 20 R77) -/

/-- Settles O55: outside RUN the read shows the byte in memory. -/
theorem hostReadOutsideRunReturnsTheByte : Obligations.HostReadOutsideRunReturnsTheByte := by
  intro s a rest hrun hhost
  rw [step_readMem hhost, hostReadMem_other (s := { s with host := rest }) a hrun]

/-- An idle engine has no job whose planes a write could touch. -/
theorem inActiveSets_of_idle {s : State} (h : s.phase = .idle) (a : Nat) : inActiveSets s a = false := by
  rw [← Bool.not_eq_true, inActiveSets_iff]
  exact fun ⟨hbusy, _⟩ => hbusy h

/-- Settles O43: the write changes its byte alone, and the read after it shows that byte. -/
theorem hostMemoryIsPlain : Obligations.HostMemoryIsPlain := by
  intro s a v rest hidle hwf hhost
  rw [step_writeMem hhost, inActiveSets_of_idle hidle, if_neg Bool.false_ne_true]
  refine ⟨_, rfl, rfl, ?_, fun b hb => read_write_other s.mem a.toNat b v hb⟩
  rw [step_readMem rfl, hostReadMem_other a (by rw [hidle]; exact Phase.noConfusion)]
  simp only [read_write_same a.toNat v hwf]

/-- A job passes its checks for some standard exactly when STD is supported and the job is accepted (43 R202). -/
theorem exists_validate_ok_iff (op : Op) (variant : Variant) (std : Nat) (s : State) :
    (∃ st, validate op variant std s = .ok st) ↔ std < 3 ∧ Accepted op variant s := by
  simp only [validate_ok_iff, exists_and_right]
  refine and_congr_left fun _ => ⟨?_, exists_standard_of_lt⟩
  rintro ⟨st, hst⟩
  refine lt_of_not_ge fun hge => ?_
  cases hst.symm.trans (standard_ofField_eq_none_of_le hge)

/-- A byte lies in the planes of the job in progress exactly when the checks pass and it is in one of the job's sets
(20 R77). -/
theorem inActiveSets_iff_accepted {s : State} (hbusy : s.phase ≠ .idle) (a : Nat) :
    inActiveSets s a = true ↔ ∃ i, decode s.cmd = .ok i ∧ i.std < 3 ∧ Accepted i.op i.variant s ∧
      (s.inReadSet i.op a = true ∨ s.inWriteSet i.op a = true) := by
  rw [inActiveSets_iff, and_iff_right hbusy]
  refine exists_congr fun i => ?_
  rw [← and_assoc (a := i.std < 3), ← exists_validate_ok_iff, exists_and_left, exists_and_right]

/-- Settles O44: the write changes its byte alone, and its address joins the list exactly when it lies in the job's planes. -/
theorem hostWriteIntoARunningJobIsNoted : Obligations.HostWriteIntoARunningJobIsNoted := by
  intro s a v rest hbusy hwf hhost
  refine ⟨_, step_writeMem hhost, rfl, read_write_same a.toNat v hwf, fun b hb => read_write_other s.mem a.toNat b v hb,
    fun b => ?_⟩
  have hset := inActiveSets_iff_accepted hbusy a.toNat
  dsimp only
  split
  · rename_i hin
    rw [mem_noteAddress, or_comm]
    refine or_congr_right ⟨?_, fun h => h.1⟩
    rintro rfl
    exact ⟨rfl, hset.1 hin⟩
  · rename_i hin
    refine ⟨.inl, fun h => h.resolve_right ?_⟩
    rintro ⟨rfl, h⟩
    exact hin (hset.2 h)

/-! ### START and reset (43 R201, 70 R260) -/

/-- Settles O58: an idle engine has no memory noted, and the START empties the list of touched bytes. -/
theorem startBeginsWithNothingTouched : Obligations.StartBeginsWithNothingTouched := by
  intro s v rest hlegal hidle hbit hhost
  obtain ⟨-, hnoted, -, -⟩ := hlegal
  have hnone : s.memAtRun = [] := hnoted (by rw [hidle]; exact Phase.noConfusion)
  rw [step_writeReg hhost, hostWriteReg_ctrl, writeReg_ctrl_of_idle (s := { s with host := rest }) hidle, if_pos hbit]
  exact ⟨_, rfl, rfl, hnone, rfl⟩

/-- Outside RUN the reset event leaves data memory untouched (70 R260). -/
theorem abandonedMemory_of_not_run {s : State} (h : s.phase ≠ .run) : abandonedMemory s = s.mem := by
  unfold abandonedMemory
  split
  · rename_i hrun _
    exact absurd hrun h
  · rfl

/-- Every register reads 0 at reset (10 R38). -/
theorem readReg_reset (r : Reg) : State.reset.readReg r = 0#32 := by
  cases r with
  | slot id f => cases id <;> cases f <;> rfl
  | coefM k =>
    have hzero : Coef.zero.matrix.getD k 0 = 0 := by
      have hall : ∀ j < 9, Coef.zero.matrix.getD j 0 = 0 := by decide
      by_cases hk : k < 9
      · exact hall k hk
      · exact List.getD_eq_default _ _ (not_lt.1 hk)
    exact congrArg (BitVec.ofInt 32) hzero
  | status => decide
  | _ => rfl

/-- No register of the window is data memory or a field of the model's own. -/
theorem readReg_congr_own (s : State) (m : Memory) (host : List HostEvent) (readData : Word) (draws : Nat) (r : Reg) :
    State.readReg { s with mem := m, host := host, readData := readData, draws := draws } r = s.readReg r := by
  cases r with
  | slot id f => cases id <;> rfl
  | _ => rfl

/-- Settles O40: the event puts every register at its reset value, and memory is abandoned only by a job in RUN. -/
theorem resetEventZeroesTheRegisters : Obligations.ResetEventZeroesTheRegisters := by
  intro s rest hhost
  exact ⟨_, step_reset hhost, rfl, rfl, fun off _ _ => (readReg_congr_own ..).trans (readReg_reset _), rfl, rfl,
    fun hrun => abandonedMemory_of_not_run (s := { s with host := rest }) hrun⟩

end Sys2Proof.Proofs
end

section
/-! SUPPORT. Proofs about the sequencer (spec 10 R32 to R34, 43 R201): what the engine answers in CHECK and in RUN,
and that every job ends (70 R266) and none faults (60 R247). -/

namespace Sys2Proof.Proofs
open Sys2Proof Sys2Proof.Machine Sys2Proof.Laws

/-! ### Failing commands (60 R234, R237, R238) -/

/-- Settles O17: only the alignment check gives that code, and it fails only a VA command with a plane off the grid. -/
theorem onlyMisalignedVaRaisesAlignmentViolation : Obligations.OnlyMisalignedVaRaisesAlignmentViolation := by
  intro i s t hcheck hexec hcode
  have hv : validate i.op i.variant i.std s = .error .alignmentViolation := validate_of_exec_errCode hcheck hexec hcode
  have hstd : i.std < 3 := lt_of_not_ge fun hge => by
    cases hv.symm.trans (validate_of_unsupported hge i.op i.variant s)
  obtain ⟨-, -, hva, hmis⟩ := (validate_alignmentViolation_iff hstd i.op i.variant s).1 hv
  exact ⟨hva, (not_alignedJob_iff i.op s).1 hmis⟩

/-- Settles O19: a completed job clears ERR, so the command raised an error, which leaves all but STATUS and PHASE. -/
theorem failedJobChangesOnlyStatus : Obligations.FailedJobChangesOnlyStatus := by
  intro i s t hcheck hexec herr
  rcases exec_check_cases hcheck i with ⟨e, -, hraise⟩ | ⟨st, -, hrun⟩
  · obtain rfl : State.raise e s = t := Host.Outcome.next.inj (hraise.symm.trans hexec)
    exact ⟨code_ne_zero e, failedWith_raise e s⟩
  · obtain rfl : convertAll i.op i.variant st s = t := Host.Outcome.next.inj (hrun.symm.trans hexec)
    rw [convertAll_err] at herr
    cases herr

/-! ### The engine in CHECK and in RUN (10 R33) -/

/-- In CHECK a transition enters RUN for a legal CMD whose checks pass, and else raises an error. -/
theorem engineTick_check_cases {s : State} (hcheck : s.phase = .check) :
    (∃ i st, decode s.cmd = .ok i ∧ validate i.op i.variant i.std s = .ok st ∧
      engineTick s = .next (enterRun i.op st s)) ∨
    ((¬∃ i st, decode s.cmd = .ok i ∧ validate i.op i.variant i.std s = .ok st) ∧
      ∃ e, engineTick s = .next (State.raise e s)) := by
  have hrun : s.phase ≠ .run := hcheck ▸ Phase.noConfusion
  cases hf : s.fetch with
  | none =>
    refine .inr ⟨?_, .illegalCommand, engineTick_of_illegal hcheck hf⟩
    rintro ⟨i, st, hdec, -⟩
    cases hf.symm.trans (fetch_eq_some_iff.2 hdec)
  | some i =>
    have hdec := fetch_eq_some_iff.1 hf
    rw [engineTick_of_decode (hcheck ▸ Phase.noConfusion) hdec]
    rcases advanceJob_cases i.op i.variant i.std s with ⟨_, _, h, _⟩ | ⟨e, hv, -, he⟩ | ⟨_, _, h, _⟩ | ⟨st, hv, -, hst⟩
    · exact absurd h hrun
    · refine .inr ⟨?_, e, he⟩
      rintro ⟨j, st, hj, hok⟩
      cases hdec.symm.trans hj
      cases hv.symm.trans hok
    · exact absurd h hrun
    · exact .inl ⟨i, st, hdec, hv, hst⟩

/-- Settles O34: the transition out of CHECK by its two exits, with the checks as the spec has them. -/
theorem checkEntersRunOrFails : Obligations.CheckEntersRunOrFails := by
  intro s rest hcheck hhost
  rw [step_engineTick hhost]
  have legal_iff : (∃ i st, decode s.cmd = .ok i ∧ validate i.op i.variant i.std { s with host := rest } = .ok st) ↔
      ∃ i, decode s.cmd = .ok i ∧ i.std < 3 ∧ Accepted i.op i.variant s := by
    simp only [exists_and_left, exists_validate_ok_iff]
    exact Iff.rfl
  rcases engineTick_check_cases (s := { s with host := rest }) hcheck with ⟨i, st, hdec, hv, ht⟩ | ⟨hnone, e, ht⟩
  · refine ⟨_, ht, fun j st' hj hst' _ => ?_, fun hillegal => absurd (legal_iff.1 ⟨i, st, hdec, hv⟩) hillegal⟩
    cases hdec.symm.trans hj
    cases ((validate_ok_iff ..).1 hv).1.symm.trans hst'
    rfl
  · refine ⟨_, ht, fun j st' hj hst' hacc => ?_, fun _ => ⟨code_ne_zero e, failedWith_raise e _⟩⟩
    exact absurd ⟨j, st', hj, (validate_ok_iff ..).2 ⟨hst', hacc⟩⟩ hnone

/-- A block that is not the last moves the cursor and changes data memory alone (10 R34). -/
theorem convertOne_of_next {s : State} {k : Cursor} (h : nextCursor s.cw s.ch s.cursor = some k) (op : Op) (variant : Variant)
    (st : Standard) : convertOne op variant st s =
      { s with mem := s.mem.writeAll (scalarBlock op (coefficients st op) s s.mem s.cursor), cursor := k } := by
  rw [convertOne, h]

/-- The last block ends the job (10 R34). -/
theorem convertOne_of_last {s : State} (h : nextCursor s.cw s.ch s.cursor = none) (op : Op) (variant : Variant)
    (st : Standard) : convertOne op variant st s =
      endJob op variant { s with mem := s.mem.writeAll (scalarBlock op (coefficients st op) s s.mem s.cursor) } := by
  rw [convertOne, h]

/-- In RUN a legal sequencer converts the block at its cursor. -/
theorem engineTick_of_run {s : State} (hlegal : SequencerLegal s) (hrun : s.phase = .run) :
    ∃ i st, decode s.cmd = .ok i ∧ validate i.op i.variant i.std s = .ok st ∧
      engineTick s = .next (convertOne i.op i.variant st s) := by
  obtain ⟨i, st, hdec, hv, -⟩ := run_validated hlegal hrun
  refine ⟨i, st, hdec, hv, ?_⟩
  rw [engineTick_of_decode (hrun ▸ Phase.noConfusion) hdec, advanceJob, hv]
  exact congrArg _ (if_pos hrun)

/-- The end of a job changes no byte outside the write set (20 R67, 93 U2, U3). -/
theorem endJob_other (op : Op) (variant : Variant) (s : State) {a : Nat} (ha : s.inWriteSet op a = false) :
    (endJob op variant s).mem.read a = s.mem.read a := by
  rw [endJob_mem]
  split
  · exact read_freeCells_other s.mem (.inl ha)
  · rfl

/-- A block changes no byte outside the write set. -/
theorem convertOne_other {op : Op} {variant : Variant} {s : State} (hacc : Accepted op variant s) (st : Standard) {a : Nat}
    (ha : s.inWriteSet op a = false) : (convertOne op variant st s).mem.read a = s.mem.read a := by
  have hblock := convert_other hacc (coefficients st op) s.mem [s.cursor] ha
  cases hk : nextCursor s.cw s.ch s.cursor with
  | some k =>
    rw [convertOne_of_next hk]
    exact hblock
  | none =>
    rw [convertOne_of_last hk]
    exact (endJob_other op variant { s with mem := convert op (coefficients st op) s s.mem [s.cursor] } ha).trans hblock

/-- Settles O33: the block at the cursor is converted, and `nextCursor` has the three cases. -/
theorem cursorAdvancesRowByRow : Obligations.CursorAdvancesRowByRow := by
  intro s rest hlegal hrun hhost
  obtain ⟨i, st, hdec, hv, ht⟩ := engineTick_of_run (s := { s with host := rest }) hlegal hrun
  refine ⟨_, (step_engineTick hhost).trans ht, fun hcol => ?_, fun hcol hrow => ?_, fun hcol hrow => ?_, ?_⟩
  · rw [convertOne_of_next (s := { s with host := rest }) (if_pos hcol)]
  · rw [convertOne_of_next (s := { s with host := rest }) ((if_neg hcol).trans (if_pos hrow))]
  · rw [convertOne_of_last (s := { s with host := rest }) ((if_neg hcol).trans (if_neg hrow))]
    simp
  · have hacc := ((validate_ok_iff ..).1 hv).2
    have hother (op : Op) (variant : Variant) (st' : Standard) (hactive : activeJob s = some (op, variant, st')) (a : Nat)
        (ha : s.inWriteSet op a = false) :
        (convertOne i.op i.variant st { s with host := rest }).mem.read a = s.mem.read a := by
      obtain ⟨-, j, hj, rfl, -⟩ := activeJob_iff.1 hactive
      cases hdec.symm.trans hj
      exact convertOne_other hacc st ha
    cases hk : nextCursor s.cw s.ch s.cursor with
    | some k =>
      refine ⟨?_, ?_, ?_, ?_, fun id => ?_, hother⟩
      all_goals rw [convertOne_of_next (s := { s with host := rest }) hk]
      cases id <;> rfl
    | none =>
      refine ⟨?_, ?_, ?_, ?_, fun id => ?_, hother⟩
      all_goals rw [convertOne_of_last (s := { s with host := rest }) hk]
      · exact endJob_coef ..
      · exact endJob_cmd ..
      · exact endJob_width ..
      · exact endJob_height ..
      · rw [endJob_slot]
        cases id <;> rfl

/-! ### Every job ends (70 R266), and none faults (60 R247) -/

/-- A busy engine in a legal state runs its job to an end. -/
theorem engineRun_ends {s : State} (hlegal : SequencerLegal s) (hbusy : s.phase ≠ .idle) :
    ∃ t, engineRun s = .next t ∧ t.phase = .idle ∧ t.done = true := by
  by_cases hrun : s.phase = .run
  · obtain ⟨i, st, hdec, hv, -⟩ := run_validated hlegal hrun
    refine ⟨convertRest i.op i.variant st s, ?_, endJob_phase .., endJob_done ..⟩
    rw [engineRun_of_decode hbusy hdec, exec_eq, runJob, hv]
    exact congrArg _ (if_pos hrun)
  · have hcheck : s.phase = .check := by
      cases hp : s.phase with
      | idle => exact absurd hp hbusy
      | check => rfl
      | run => exact absurd hp hrun
    cases hf : s.fetch with
    | none => exact ⟨_, engineRun_of_illegal hcheck hf, rfl, rfl⟩
    | some i =>
      rw [engineRun_of_decode hbusy (fetch_eq_some_iff.1 hf)]
      rcases exec_check_cases hcheck i with ⟨e, -, hraise⟩ | ⟨st, -, hall⟩
      · exact ⟨_, hraise, rfl, rfl⟩
      · exact ⟨_, hall, endJob_phase .., endJob_done ..⟩

/-- Settles O36: with nothing pending the step is the run of the whole job. -/
theorem everyStartEnds : Obligations.EveryStartEnds := by
  intro s hhost hlegal hbusy
  rw [step_silent hhost]
  exact engineRun_ends hlegal hbusy

theorem engineRun_ne_fault {s : State} (hlegal : SequencerLegal s) (r : Fault) : engineRun s ≠ .fault r := by
  intro hfault
  by_cases hidle : s.phase = .idle
  · cases (engineRun_of_idle hidle).symm.trans hfault
  · obtain ⟨t, ht, -⟩ := engineRun_ends hlegal hidle
    cases ht.symm.trans hfault

theorem engineTick_ne_fault {s : State} (hlegal : SequencerLegal s) (r : Fault) : engineTick s ≠ .fault r := by
  intro hfault
  cases hp : s.phase with
  | idle => cases (engineTick_of_idle hp).symm.trans hfault
  | check =>
    rcases engineTick_check_cases hp with ⟨i, st, -, -, ht⟩ | ⟨-, e, ht⟩
    · cases ht.symm.trans hfault
    · cases ht.symm.trans hfault
  | run =>
    obtain ⟨i, st, -, -, ht⟩ := engineTick_of_run hlegal hp
    cases ht.symm.trans hfault

/-- A host read of data memory answers in every phase (10 R36). -/
theorem hostReadMem_next (a : Word) (s : State) :
    ∃ readData draws, hostReadMem a s = .next { s with readData := readData, draws := draws } := by
  unfold hostReadMem
  split
  · split <;> exact ⟨_, _, rfl⟩
  · exact ⟨_, _, rfl⟩

/-- Settles O39, event by event: only the engine could fault, and it does not from a legal state. -/
theorem noStepFaults : Obligations.NoStepFaults := by
  intro s r hlegal hfault
  match hhost : s.host with
  | [] =>
    rw [step_silent hhost] at hfault
    exact engineRun_ne_fault hlegal r hfault
  | .writeReg off v :: rest =>
    rw [step_writeReg hhost, hostWriteReg] at hfault
    cases h : regAt off <;> rw [h] at hfault <;> cases hfault
  | .readReg off :: rest =>
    rw [step_readReg hhost, hostReadReg] at hfault
    cases h : regAt off <;> rw [h] at hfault <;> cases hfault
  | .writeMem a v :: rest => cases (step_writeMem hhost).symm.trans hfault
  | .readMem a :: rest =>
    obtain ⟨_, _, ht⟩ := hostReadMem_next a { s with host := rest }
    cases ((step_readMem hhost).trans ht).symm.trans hfault
  | .engineTick :: rest =>
    rw [step_engineTick hhost] at hfault
    exact engineTick_ne_fault (s := { s with host := rest }) hlegal r hfault
  | .engineRun :: rest =>
    rw [step_engineRun hhost] at hfault
    exact engineRun_ne_fault (s := { s with host := rest }) hlegal r hfault
  | .reset :: rest => cases (step_reset hhost).symm.trans hfault

end Sys2Proof.Proofs
end

section
/-! SUPPORT. Proofs about the job as a whole (spec 10 R34, 20 R75, R80, 43 R201): the state a job leaves shows neither the
order of its blocks nor whether it ran in one transition. -/

namespace Sys2Proof.Proofs
open Sys2Proof Sys2Proof.Machine Sys2Proof.Laws

/-! ### The end of a job (43 R201 step 6) -/

/-- The end of a job on another data memory: that memory with the free bytes, and all else alike. -/
theorem endJob_withMem (op : Op) (variant : Variant) (s : State) (m : Memory) :
    endJob op variant { s with mem := m } =
      { endJob op variant s with mem := if unpredictable op s then m.writeAll (freeCells op s) else m } := by
  have hsame : unpredictable op { s with mem := m } = unpredictable op s := rfl
  unfold endJob
  rw [hsame]
  cases unpredictable op s <;> rfl

/-- The end of a job sets the cursor, wherever it was (notes/assumptions/10.md). -/
theorem endJob_withCursor (op : Op) (variant : Variant) (s : State) (k : Cursor) :
    endJob op variant { s with cursor := k } = endJob op variant s := by
  have hsame : unpredictable op { s with cursor := k } = unpredictable op s := rfl
  unfold endJob
  rw [hsame]
  cases unpredictable op s <;> rfl

/-- Overlapping planes leave every byte of the write set free, so the conversion does not show there (20 R80, 93 U2). -/
theorem read_freeCells_of_overlaps {op : Op} {variant : Variant} {s : State} (hacc : Accepted op variant s)
    (hover : s.overlaps op = true) {m : Memory} (hm : m.wf) (a : Nat) :
    (m.writeAll (freeCells op s)).read a = if s.inWriteSet op a then Config.freeByte s.draws a else m.read a := by
  split
  · rename_i ha
    exact read_freeCells hacc hm ha (by rw [uncertain, hover, Bool.true_or])
  · rename_i ha
    exact read_freeCells_other m (.inl (Bool.eq_false_iff.2 ha))

/-- The order in which a job takes the blocks does not show in the state it leaves: with disjoint planes not in the bytes of
the conversion (20 R75), and else not past the free bytes (20 R80). -/
theorem endJob_convert_order {op : Op} {variant : Variant} {s : State} (hacc : Accepted op variant s) (c : Coef)
    (hm : s.mem.wf) {bs bs' : List Cursor} (hb : ∀ b : Cursor, b ∈ bs ↔ b.row < s.ch ∧ b.col < s.cw)
    (hb' : ∀ b : Cursor, b ∈ bs' ↔ b.row < s.ch ∧ b.col < s.cw) :
    endJob op variant { s with mem := convert op c s s.mem bs } =
      endJob op variant { s with mem := convert op c s s.mem bs' } := by
  cases hover : s.overlaps op with
  | false => rw [convert_order hacc ((disjoint_iff s op).2 hover) c hm hb hb']
  | true =>
    have hunpr : unpredictable op s = true := by rw [unpredictable, hover, Bool.true_or]
    have hwf (bs : List Cursor) := convert_wf hacc c hm bs
    have hmem : (convert op c s s.mem bs).writeAll (freeCells op s) =
        (convert op c s s.mem bs').writeAll (freeCells op s) := by
      have hfree (bs : List Cursor) := writeAll_wf (hwf bs) fun d hd => freeCells_inSpace hacc hd
      refine memory_ext (hfree bs) (hfree bs') fun a => ?_
      rw [read_freeCells_of_overlaps hacc hover (hwf bs), read_freeCells_of_overlaps hacc hover (hwf bs')]
      split
      · rfl
      · rename_i ha
        have hout := Bool.eq_false_iff.2 ha
        rw [convert_other hacc c s.mem bs hout, convert_other hacc c s.mem bs' hout]
    refine (endJob_withMem op variant s _).trans (.trans ?_ (endJob_withMem op variant s _).symm)
    rw [if_pos hunpr, if_pos hunpr, hmem]

/-- Every block of the image is in the order of every path, and in the reference order from the first block on. -/
theorem mem_kernelBlocks_iff (s : State) (p : Path) (b : Cursor) :
    b ∈ kernelBlocks s.w s.h p ↔ b.row < s.ch ∧ b.col < s.cw := mem_kernelBlocks ..

/-- A whole job leaves what the entry to RUN and then the rest of the job in the reference order leave (43 R201, 20 R75). -/
theorem convertAll_eq_convertRest {op : Op} {variant : Variant} {s : State} (hacc : Accepted op variant s) (st : Standard)
    (hm : s.mem.wf) : convertAll op variant st s = convertRest op variant st (enterRun op st s) :=
  endJob_convert_order (s := enterRun op st s) hacc (coefficients st op) hm (mem_kernelBlocks_iff s (jobPath op variant s))
    (mem_blocksFrom_zero s.cw s.ch)

/-- A block and then the rest of the job leave what the rest of the job from that block on leaves (10 R34). -/
theorem convertRest_of_next {s : State} {k : Cursor} (hr : s.cursor.row < s.ch) (hc : s.cursor.col < s.cw)
    (hk : nextCursor s.cw s.ch s.cursor = some k) (op : Op) (variant : Variant) (st : Standard) :
    convertRest op variant st (convertOne op variant st s) = convertRest op variant st s := by
  rw [convertOne_of_next hk]
  unfold convertRest
  rw [blocksFrom_step hr hc, hk]
  refine (endJob_withCursor ..).trans (congrArg (fun m => endJob op variant { s with mem := m }) ?_)
  exact convert_regs (s := s) rfl rfl (fun id => by cases id <;> rfl) _ _

/-- The last block is the rest of the job. -/
theorem convertRest_of_last {s : State} (hr : s.cursor.row < s.ch) (hc : s.cursor.col < s.cw)
    (hk : nextCursor s.cw s.ch s.cursor = none) (op : Op) (variant : Variant) (st : Standard) :
    convertRest op variant st s = convertOne op variant st s := by
  rw [convertOne_of_last hk, convertRest, blocksFrom_step hr hc, hk]
  rfl

/-- In RUN a command whose checks pass does the rest of its job. -/
theorem exec_of_run {i : Instr} {st : Standard} {s : State} (hrun : s.phase = .run)
    (hv : validate i.op i.variant i.std s = .ok st) : exec i s = .next (convertRest i.op i.variant st s) := by
  rw [exec_eq, runJob, hv]
  exact congrArg _ (if_pos hrun)

/-- Settles O35: out of CHECK a transition fails as the command does, or enters RUN, whose rest is the whole job; in RUN it
does one block of what the command does. -/
theorem blockwiseRunIsTheAtomicRun : Obligations.BlockwiseRunIsTheAtomicRun := by
  intro s t i hbusy hm hlegal hdec htick
  cases hp : s.phase with
  | idle => exact absurd hp hbusy
  | check =>
    rcases engineTick_check_cases hp with ⟨j, st, hj, hv, ht⟩ | ⟨hnone, e, ht⟩
    · cases hdec.symm.trans hj
      obtain rfl : enterRun i.op st s = t := Host.Outcome.next.inj (ht.symm.trans htick)
      have hacc := ((validate_ok_iff ..).1 hv).2
      refine ⟨fun hidle => Phase.noConfusion hidle, fun _ => ?_⟩
      rw [exec_of_run (s := enterRun i.op st s) rfl hv, ← convertAll_eq_convertRest hacc st hm]
      rcases exec_check_cases hp i with ⟨e, he, -⟩ | ⟨st', hst', hexec⟩
      · cases hv.symm.trans he
      · cases hv.symm.trans hst'
        exact hexec.symm
    · obtain rfl : State.raise e s = t := Host.Outcome.next.inj (ht.symm.trans htick)
      refine ⟨fun _ => ?_, fun h => absurd rfl h⟩
      rcases exec_check_cases hp i with ⟨e', he', hexec⟩ | ⟨st, hst, -⟩
      · rw [engineTick_of_decode hbusy hdec, advanceJob, he'] at ht
        rw [hexec, ← ht]
        exact (if_neg (hp ▸ Phase.noConfusion)).symm
      · exact absurd ⟨i, st, hdec, hst⟩ hnone
  | run =>
    obtain ⟨j, st, hj, hv, -, hr, hc⟩ := run_validated hlegal hp
    cases hdec.symm.trans hj
    obtain ⟨j, st', hj, hv', ht⟩ := engineTick_of_run hlegal hp
    cases hdec.symm.trans hj
    cases hv.symm.trans hv'
    obtain rfl : convertOne i.op i.variant st s = t := Host.Outcome.next.inj (ht.symm.trans htick)
    rw [exec_of_run hp hv]
    cases hk : nextCursor s.cw s.ch s.cursor with
    | none =>
      refine ⟨fun _ => by rw [convertRest_of_last hr hc hk], fun h => absurd ?_ h⟩
      rw [convertOne_of_last hk]
      exact endJob_phase ..
    | some k =>
      have hrun : (convertOne i.op i.variant st s).phase = .run := by rw [convertOne_of_next hk]; exact hp
      have hv' : validate i.op i.variant i.std (convertOne i.op i.variant st s) = .ok st := by
        rw [convertOne_of_next hk]
        exact hv
      refine ⟨fun hidle => absurd (hrun.symm.trans hidle) Phase.noConfusion, fun _ => ?_⟩
      rw [exec_of_run hrun hv', convertRest_of_next hr hc hk]

end Sys2Proof.Proofs
end

section
/-! SUPPORT. Proofs about the machine's invariant (spec 10 R20 to R38, 20 R60): reset meets it, and each event and each
movement of the engine keeps it. -/

namespace Sys2Proof.Proofs
open Sys2Proof Sys2Proof.Machine Sys2Proof.Laws

/-! ### The invariant: states between jobs (10 R23, R32) -/

/-- The STATUS of a job that raised an error is legal (10 R23, 60 R230). -/
theorem statusLegal_raise (e : JobError) (s : State) : StatusLegal (State.raise e s) := by
  have hcode : e.code ≠ 6#3 ∧ e.code ≠ 7#3 := by cases e <;> decide
  exact ⟨fun h => absurd rfl h, fun _ => .inr (.inr ⟨rfl, rfl, code_ne_zero e, hcode.1, hcode.2, rfl⟩)⟩

/-- The STATUS of a job that ended without error is legal (10 R23, 43 R212). -/
theorem statusLegal_endJob (op : Op) (variant : Variant) (s : State) : StatusLegal (endJob op variant s) := by
  refine ⟨fun h => absurd (endJob_phase ..) h, fun _ => .inr (.inl ⟨endJob_done .., endJob_err .., endJob_errCode .., ?_⟩)⟩
  rw [endJob_path]
  cases jobPath op variant s <;> decide

/-- An idle engine has touched nothing. -/
theorem touched_of_idle {s : State} (hlegal : SequencerLegal s) (hidle : s.phase = .idle) : s.touched = [] := by
  obtain ⟨-, -, -, hin⟩ := hlegal
  refine List.eq_nil_iff_forall_not_mem.2 fun a ha => ?_
  exact Bool.false_ne_true ((inActiveSets_of_idle hidle a).symm.trans (hin a ha))

theorem sequencerLegal_of_inv {s : State} (h : MachineInv s) : SequencerLegal s := h.2.2.2.2

/-- Between two jobs the invariant asks for memory, STATUS and COEF alone: nothing is noted. -/
theorem machineInv_of_idle {s : State} (hidle : s.phase = .idle) (hmem : s.mem.wf) (hstatus : StatusLegal s)
    (hcoef : CoefLegal s) (hnoted : s.memAtRun = []) (htouched : s.touched = []) : MachineInv s := by
  refine ⟨hmem, ?_, hstatus, hcoef, fun hrun => ?_, fun _ => hnoted, ?_, ?_⟩
  · rw [hnoted]
    exact reset_mem_wf
  · cases hidle.symm.trans hrun
  · rw [htouched]
    exact List.Pairwise.nil
  · rw [htouched]
    exact List.forall_mem_nil _

/-- Settles O38: reset is between jobs, with all fields zero. -/
theorem resetMeetsTheInvariant : Obligations.ResetMeetsTheInvariant :=
  machineInv_of_idle rfl reset_mem_wf ⟨fun h => absurd rfl h, fun _ => .inl ⟨rfl, rfl, rfl, rfl⟩⟩ (.inl rfl) rfl rfl

/-- The invariant does not depend on the host's list, its last read or the count of draws, and of data memory and the touched
bytes it asks for their form and place. -/
theorem machineInv_withOwn {s : State} (h : MachineInv s) {m : Memory} (hm : m.wf) {touched : List Nat}
    (hsorted : touched.Pairwise (· < ·)) (hin : ∀ a ∈ touched, inActiveSets s a = true) (host : List HostEvent)
    (readData : Word) (draws : Nat) :
    MachineInv { s with mem := m, host := host, readData := readData, draws := draws, touched := touched } := by
  obtain ⟨-, hnoted, hstatus, hcoef, hrun, hother, -, -⟩ := h
  exact ⟨hm, hnoted, hstatus, hcoef, hrun, hother, hsorted, hin⟩

/-! ### The engine keeps it (10 R33) -/

/-- An error out of CHECK keeps the invariant (60 R238). -/
theorem machineInv_raise {s : State} (h : MachineInv s) (hrun : s.phase ≠ .run) (e : JobError) :
    MachineInv (State.raise e s) := by
  obtain ⟨hmem, -, -, hcoef, -, hother, -, -⟩ := h
  exact machineInv_of_idle rfl hmem (statusLegal_raise e s) hcoef (hother hrun) rfl

/-- The end of an accepted job gives a state with the invariant. -/
theorem machineInv_endJob {op : Op} {variant : Variant} {s : State} (hacc : Accepted op variant s) (hmem : s.mem.wf)
    (hcoef : CoefLegal s) : MachineInv (endJob op variant s) := by
  refine machineInv_of_idle (endJob_phase ..) ?_ (statusLegal_endJob ..) ?_ (endJob_memAtRun ..) (endJob_touched ..)
  · rw [endJob_mem]
    split
    · exact writeAll_wf hmem fun d hd => freeCells_inSpace hacc hd
    · exact hmem
  · rw [CoefLegal, endJob_coef]
    exact hcoef

theorem machineInv_convertAll {op : Op} {variant : Variant} {s : State} (hacc : Accepted op variant s) (hmem : s.mem.wf)
    (st : Standard) : MachineInv (convertAll op variant st s) :=
  machineInv_endJob (s := { enterRun op st s with mem := _ }) hacc
    (convert_wf (s := enterRun op st s) hacc _ hmem _) (.inr ⟨st, op, rfl⟩)

theorem machineInv_convertRest {op : Op} {variant : Variant} {s : State} (hacc : Accepted op variant s) (h : MachineInv s)
    (st : Standard) : MachineInv (convertRest op variant st s) := by
  obtain ⟨hmem, -, -, hcoef, -⟩ := h
  exact machineInv_endJob (s := { s with mem := _ }) hacc (convert_wf hacc _ hmem _) hcoef

/-- The entry to RUN keeps the invariant: COEF is the job's set, the cursor is at the first block, the memory is noted. -/
theorem machineInv_enterRun {s : State} {i : Instr} {st : Standard} (h : MachineInv s) (hcheck : s.phase = .check)
    (hdec : decode s.cmd = .ok i) (hv : validate i.op i.variant i.std s = .ok st) : MachineInv (enterRun i.op st s) := by
  obtain ⟨hmem, -, hstatus, -, -, -, hsorted, hin⟩ := h
  obtain ⟨hw, hh, -⟩ := ((validate_ok_iff ..).1 hv).2
  have hactive : activeJob (enterRun i.op st s) = some (i.op, i.variant, st) :=
    activeJob_iff.2 ⟨Phase.noConfusion, i, hdec, rfl, rfl, hv⟩
  have hch : 0 < s.ch := by simp only [State.ch, chromaSize]; omega
  have hcw : 0 < s.cw := by simp only [State.cw, chromaSize]; omega
  have hbusy := hstatus.1 (hcheck ▸ Phase.noConfusion)
  refine ⟨hmem, hmem, ⟨fun _ => hbusy, fun hidle => Phase.noConfusion hidle⟩, .inr ⟨st, i.op, rfl⟩,
    fun _ => ⟨i.op, i.variant, st, hactive, rfl, hch, hcw⟩, fun hrun => absurd rfl hrun, hsorted, fun a ha => ?_⟩
  exact inActiveSets_regs (s := s) (t := enterRun i.op st s) (fun _ => Phase.noConfusion) rfl rfl rfl
    (enterRun_slot i.op st s) (hin a ha)

/-- The cursor's next place is a block of the image (10 R34). -/
theorem nextCursor_inImage {cw ch : Nat} {k k' : Cursor} (hr : k.row < ch) (hc : k.col < cw)
    (h : nextCursor cw ch k = some k') : k'.row < ch ∧ k'.col < cw := by
  rcases nextCursor_inRange hr h with h' | ⟨hr', hc'⟩
  · exact h'
  · exact ⟨hr', by omega⟩

/-- A block in RUN keeps the invariant: the cursor stays in the image, or the job ends (10 R34). -/
theorem machineInv_convertOne {s : State} {i : Instr} {st : Standard} (h : MachineInv s) (hrun : s.phase = .run)
    (hv : validate i.op i.variant i.std s = .ok st) : MachineInv (convertOne i.op i.variant st s) := by
  have hacc := ((validate_ok_iff ..).1 hv).2
  obtain ⟨hmem, hnoted, hstatus, hcoef, hseq, hother, hsorted, hin⟩ := h
  have hmem' := convert_wf hacc (coefficients st i.op) hmem [s.cursor]
  cases hk : nextCursor s.cw s.ch s.cursor with
  | some k =>
    obtain ⟨op, variant, st', hactive, hset, hr, hc⟩ := hseq hrun
    rw [convertOne_of_next hk]
    exact ⟨hmem', hnoted, hstatus, hcoef, fun _ => ⟨op, variant, st', hactive, hset, nextCursor_inImage hr hc hk⟩, hother,
      hsorted, hin⟩
  | none =>
    rw [convertOne_of_last hk]
    exact machineInv_endJob (s := { s with mem := _ }) hacc hmem' hcoef

/-- A run of the whole job keeps the invariant. -/
theorem machineInv_engineRun {s t : State} (h : MachineInv s) (hnext : engineRun s = .next t) : MachineInv t := by
  cases hp : s.phase with
  | idle =>
    obtain rfl : s = t := Host.Outcome.next.inj ((engineRun_of_idle hp).symm.trans hnext)
    exact h
  | check =>
    have hrun : s.phase ≠ .run := hp ▸ Phase.noConfusion
    cases hf : s.fetch with
    | none =>
      obtain rfl := Host.Outcome.next.inj ((engineRun_of_illegal hp hf).symm.trans hnext)
      exact machineInv_raise h hrun _
    | some i =>
      rw [engineRun_of_decode (hp ▸ Phase.noConfusion) (fetch_eq_some_iff.1 hf)] at hnext
      rcases exec_check_cases hp i with ⟨e, -, hexec⟩ | ⟨st, hv, hexec⟩
      · obtain rfl := Host.Outcome.next.inj (hexec.symm.trans hnext)
        exact machineInv_raise h hrun e
      · obtain rfl := Host.Outcome.next.inj (hexec.symm.trans hnext)
        exact machineInv_convertAll ((validate_ok_iff ..).1 hv).2 h.1 st
  | run =>
    obtain ⟨i, st, hdec, hv, -⟩ := run_validated (sequencerLegal_of_inv h) hp
    rw [engineRun_of_decode (hp ▸ Phase.noConfusion) hdec, exec_of_run hp hv] at hnext
    obtain rfl := Host.Outcome.next.inj hnext
    exact machineInv_convertRest ((validate_ok_iff ..).1 hv).2 h st

/-- A transition of the engine keeps the invariant. -/
theorem machineInv_engineTick {s t : State} (h : MachineInv s) (hnext : engineTick s = .next t) : MachineInv t := by
  cases hp : s.phase with
  | idle =>
    obtain rfl : s = t := Host.Outcome.next.inj ((engineTick_of_idle hp).symm.trans hnext)
    exact h
  | check =>
    rcases engineTick_check_cases hp with ⟨i, st, hdec, hv, ht⟩ | ⟨-, e, ht⟩
    · obtain rfl := Host.Outcome.next.inj (ht.symm.trans hnext)
      exact machineInv_enterRun h hp hdec hv
    · obtain rfl := Host.Outcome.next.inj (ht.symm.trans hnext)
      exact machineInv_raise h (hp ▸ Phase.noConfusion) e
  | run =>
    obtain ⟨i, st, -, hv, ht⟩ := engineTick_of_run (sequencerLegal_of_inv h) hp
    obtain rfl := Host.Outcome.next.inj (ht.symm.trans hnext)
    exact machineInv_convertOne h hp hv

/-! ### The host keeps it (10 R29, 20 R77, 70 R260) -/

/-- An accepted START gives a job in CHECK with nothing touched (43 R201). -/
theorem machineInv_acceptStart {s : State} (h : MachineInv s) (hidle : s.phase = .idle) : MachineInv s.acceptStart := by
  obtain ⟨hmem, hnoted, -, hcoef, -, hother, -, -⟩ := h
  exact ⟨hmem, hnoted, ⟨fun _ => ⟨rfl, rfl, rfl, rfl⟩, fun hidle' => Phase.noConfusion hidle'⟩, hcoef,
    fun hrun => Phase.noConfusion hrun, fun _ => hother (hidle ▸ Phase.noConfusion), List.Pairwise.nil, List.forall_mem_nil _⟩

/-- A write of the register window keeps the invariant (10 R22, R29). -/
theorem machineInv_writeReg {s : State} (h : MachineInv s) (r : Reg) (v : Word) : MachineInv (s.writeReg r v) := by
  by_cases hidle : s.phase = .idle
  · by_cases hctrl : r = .ctrl
    · rw [hctrl, writeReg_ctrl_of_idle hidle]
      split
      · exact machineInv_acceptStart h hidle
      · exact h
    · cases hjob : jobOffset r with
      | none =>
        rw [writeReg_ignored hctrl hjob]
        exact h
      | some off =>
        obtain ⟨_, _, _, _, _, _, _, _, _, hframe⟩ := writeReg_frame hidle hjob v
        have htouched := touched_of_idle (sequencerLegal_of_inv h) hidle
        obtain ⟨hmem, -, hstatus, hcoef, -, hother, -⟩ := h
        rw [hframe]
        exact machineInv_of_idle hidle hmem hstatus hcoef (hother (hidle ▸ Phase.noConfusion)) htouched
  · rw [writeReg_of_busy hidle]
    exact h

/-- The reset event leaves data memory in canonical form (70 R261). -/
theorem abandonedMemory_wf {s : State} (hm : s.mem.wf) : (abandonedMemory s).wf := by
  unfold abandonedMemory
  split
  · rename_i op variant st _ hactive
    obtain ⟨-, i, -, rfl, rfl, hv⟩ := activeJob_iff.1 hactive
    refine writeAll_wf hm fun d hd => ?_
    obtain ⟨a, ha, rfl⟩ := List.mem_map.1 hd
    exact writeSet_inSpace ((validate_ok_iff ..).1 hv).2 ((mem_writeSet_iff ..).1 ha)
  · exact hm

/-- The reset event gives a state with the invariant (70 R260). -/
theorem machineInv_hostReset {s t : State} (h : MachineInv s) (hnext : hostReset s = .next t) : MachineInv t := by
  obtain rfl := Host.Outcome.next.inj hnext
  exact machineInv_withOwn resetMeetsTheInvariant (abandonedMemory_wf h.1) List.Pairwise.nil (List.forall_mem_nil _) ..

/-- Settles O37, event by event. -/
theorem everyStepKeepsTheInvariant : Obligations.EveryStepKeepsTheInvariant := by
  intro s t h hstep
  obtain ⟨hmem, -, -, -, -, -, hsorted, hin⟩ := id h
  have hrest (rest : List HostEvent) : MachineInv { s with host := rest } := h
  match hhost : s.host with
  | [] => exact machineInv_engineRun h ((step_silent hhost).symm.trans hstep)
  | .writeReg off v :: rest =>
    rw [step_writeReg hhost, hostWriteReg] at hstep
    cases hreg : regAt off with
    | none => rw [hreg] at hstep; cases hstep
    | some r =>
      rw [hreg] at hstep
      obtain rfl := Host.Outcome.next.inj hstep
      exact machineInv_writeReg (hrest rest) r v
  | .readReg off :: rest =>
    rw [step_readReg hhost, hostReadReg] at hstep
    cases hreg : regAt off with
    | none => rw [hreg] at hstep; cases hstep
    | some r =>
      rw [hreg] at hstep
      obtain rfl := Host.Outcome.next.inj hstep
      exact machineInv_withOwn h hmem hsorted hin ..
  | .writeMem a v :: rest =>
    obtain rfl := Host.Outcome.next.inj ((step_writeMem hhost).symm.trans hstep)
    have hmem' := write_wf v hmem a.isLt
    split
    · rename_i ha
      refine machineInv_withOwn h hmem' (noteAddress_pairwise _ hsorted) (fun b hb => ?_) ..
      rcases mem_noteAddress.1 hb with rfl | hb
      · exact ha
      · exact hin b hb
    · exact machineInv_withOwn h hmem' hsorted hin ..
  | .readMem a :: rest =>
    obtain ⟨_, _, hread⟩ := hostReadMem_next a { s with host := rest }
    obtain rfl := Host.Outcome.next.inj (((step_readMem hhost).trans hread).symm.trans hstep)
    exact machineInv_withOwn h hmem hsorted hin ..
  | .engineTick :: rest => exact machineInv_engineTick (hrest rest) ((step_engineTick hhost).symm.trans hstep)
  | .engineRun :: rest => exact machineInv_engineRun (hrest rest) ((step_engineRun hhost).symm.trans hstep)
  | .reset :: rest => exact machineInv_hostReset (hrest rest) ((step_reset hhost).symm.trans hstep)

end Sys2Proof.Proofs
end

section
/-! SUPPORT. Proofs about the coefficients and the pixel arithmetic (spec 40, 41 R150, R151, 95): the ROM against the quantized
exact matrices, the ranges of the sums, gray pixels, and the round trip through half-level error bounds. -/

namespace Sys2Proof.Proofs
open Sys2Proof Sys2Proof.Machine Sys2Proof.Laws

/-! ### The ROM (40 R131 to R137) -/

/-- Settles O52: for each standard the quantizer is evaluated on the eighteen exact rationals. -/
theorem romIsTheQuantizedTable : Obligations.RomIsTheQuantizedTable := by
  intro st
  cases st <;> decide +kernel

/-- Settles O53: for each standard the nine sums of exact rational products are evaluated. -/
theorem forwardMatrixInvertsTheInverseMatrix : Obligations.ForwardMatrixInvertsTheInverseMatrix := by
  intro st
  cases st <;> decide +kernel

/-- The set that a job loads is the quantized exact matrix of its direction (40 R134). -/
theorem coefficients_matrix (st : Standard) (op : Op) :
    (coefficients st op).matrix = (if Op.forward op then st.forwardMatrix else st.inverseMatrix).map quantize := by
  obtain ⟨hfwd, hinv, -, -⟩ := romIsTheQuantizedTable st
  unfold coefficients
  split
  · exact hfwd.symm
  · exact hinv.symm

theorem coefficients_offsets (st : Standard) (op : Op) :
    BitVec.ofNat 32 (coefficients st op).yoff = (if st = .jpegFullRange then 0#32 else 16#32) ∧
      (coefficients st op).coff = 128 ∧ (coefficients st op).shift = 10 ∧ (coefficients st op).bias = 512 := by
  cases st <;> cases op <;> exact ⟨rfl, rfl, rfl, rfl⟩

/-- An entry of the quantized matrix, as COEF is read (10 R30). -/
theorem coefficients_getD (st : Standard) (op : Op) (k : Nat) : (coefficients st op).matrix.getD k 0 =
    quantize ((if Op.forward op then st.forwardMatrix else st.inverseMatrix).getD k 0) := by
  have hzero : quantize 0 = 0 := by decide +kernel
  rw [coefficients_matrix]
  exact (congrArg _ hzero.symm).trans (List.getD_map ..)

@[simp] theorem convertAll_coef (op : Op) (variant : Variant) (st : Standard) (s : State) :
    (convertAll op variant st s).coef = coefficients st op := endJob_coef ..

/-- In CHECK an accepted job of a standard is run whole with that standard's set (43 R201). -/
theorem exec_of_accepted {i : Instr} {st : Standard} {s : State} (hcheck : s.phase = .check)
    (hst : Standard.ofField i.std = some st) (hacc : Accepted i.op i.variant s) :
    exec i s = .next (convertAll i.op i.variant st s) := by
  have hok := (validate_ok_iff ..).2 ⟨hst, hacc⟩
  rcases exec_check_cases hcheck i with ⟨e, herror, -⟩ | ⟨st', hok', hrun⟩
  · cases hok.symm.trans herror
  · cases hok.symm.trans hok'
    exact hrun

/-- Settles O29: a completed job leaves its set in COEF, whose matrix is the quantized one, and an error leaves COEF alone. -/
theorem coefHoldsTheQuantizedMatrix : Obligations.CoefHoldsTheQuantizedMatrix := by
  intro i st s hst hcheck
  refine ⟨fun hacc => ⟨_, exec_of_accepted hcheck hst hacc, fun k hk => ?_, ?_⟩, fun hacc => ?_⟩
  · have hreg : ∀ j < 9, regOfOffset (0x80 + 4 * j) = .coefM j := by decide
    rw [hreg k hk, State.readReg, convertAll_coef, coefficients_getD]
  · obtain ⟨hyoff, hcoff, hshift, hbias⟩ := coefficients_offsets st i.op
    refine ⟨?_, ?_, ?_, ?_⟩
    · exact (congrArg (fun c : Coef => BitVec.ofNat 32 c.yoff) (convertAll_coef ..)).trans hyoff
    · exact congrArg (BitVec.ofNat 32) ((congrArg Coef.coff (convertAll_coef ..)).trans hcoff)
    · exact congrArg (BitVec.ofNat 32) ((congrArg Coef.shift (convertAll_coef ..)).trans hshift)
    · exact congrArg (BitVec.ofNat 32) ((congrArg Coef.bias (convertAll_coef ..)).trans hbias)
  · rcases exec_check_cases hcheck i with ⟨e, -, hraise⟩ | ⟨st', hok, -⟩
    · exact ⟨_, hraise, raise_coef e s⟩
    · exact absurd ((validate_ok_iff ..).1 hok).2 hacc

/-! ### Ranges (40 R140) -/

/-- A sample is an integer from 0 to 255 (20 R61). -/
theorem byte_range (b : Byte) : 0 ≤ (b.toNat : Int) ∧ (b.toNat : Int) ≤ 255 := by
  have := b.isLt
  omega

/-- The shift by 10 as an integer division (00 R13). -/
theorem asr_ten (v : Int) : asr v 10 = v / 1024 := rfl

/-- Settles O50: each sum is linear in three samples of 0 to 255, so its range and that of its quotient follow set by set. -/
theorem sumsAndResultsStayInRange : Obligations.SumsAndResultsStayInRange := by
  intro st p q r P Q R
  obtain ⟨hp0, hp⟩ : 0 ≤ P ∧ P ≤ 255 := byte_range p
  obtain ⟨hq0, hq⟩ : 0 ≤ Q ∧ Q ≤ 255 := byte_range q
  obtain ⟨hr0, hr⟩ : 0 ≤ R ∧ R ≤ 255 := byte_range r
  simp only [List.forall_mem_cons, asr_ten, List.not_mem_nil, false_imp_iff, implies_true, and_true]
  cases st <;> simp only [Standard.forwardSet, Standard.inverseSet, Standard.yoff] <;> omega

/-! ### Gray (40 R142) -/

theorem channel_inverseSet_asr (st : Standard) (k0 k1 k2 a0 a1 a2 : Int) :
    channel st.inverseSet k0 k1 k2 a0 a1 a2 = asr (k0 * a0 + k1 * a1 + k2 * a2 + 512) 10 := by
  rw [channel, inverseSet_shift, inverseSet_bias, Nat.cast_ofNat]

theorem channel_forwardSet_asr (st : Standard) (k0 k1 k2 a0 a1 a2 : Int) :
    channel st.forwardSet k0 k1 k2 a0 a1 a2 = asr (k0 * a0 + k1 * a1 + k2 * a2 + 512) 10 := by
  rw [channel, forwardSet_shift, forwardSet_bias, Nat.cast_ofNat]

/-- A chroma row of the inverse sets sums to 0, so equal samples cancel (40 R142 (a)). -/
theorem channel_inverseSet_gray (st : Standard) {k0 k1 k2 : Int} (h : k0 + k1 + k2 = 0) (a : Int) :
    channel st.inverseSet k0 k1 k2 a a a = 0 := by
  have hsum : k0 * a + k1 * a + k2 * a + 512 = 512 := by rw [← add_mul, ← add_mul, h, zero_mul, zero_add]
  rw [channel_inverseSet_asr, hsum]
  rfl

/-- The chroma rows sum to 0 (40 R136). -/
theorem inverseSet_chroma_sums (st : Standard) :
    st.inverseSet.m3 + st.inverseSet.m4 + st.inverseSet.m5 = 0 ∧
      st.inverseSet.m6 + st.inverseSet.m7 + st.inverseSet.m8 = 0 := by
  cases st <;> exact ⟨rfl, rfl⟩

/-- Settles O51: gray cancels in the chroma rows, zero chroma leaves the luma column, which the three rows share, and the
lumas are evaluated. -/
theorem grayHasNoChroma : Obligations.GrayHasNoChroma := by
  intro st
  obtain ⟨hu, hv⟩ := inverseSet_chroma_sums st
  refine ⟨fun g => ⟨?_, ?_⟩, ?_, ?_, fun y => ?_, ?_⟩
  · rw [invU, channel_inverseSet_gray st hu, inverseSet_coff]
    rfl
  · rw [invV, channel_inverseSet_gray st hv, inverseSet_coff]
    rfl
  · cases st <;> decide +kernel
  · cases st <;> decide +kernel
  · have hluma : st.forwardSet.m0 = st.forwardSet.m3 ∧ st.forwardSet.m0 = st.forwardSet.m6 := by cases st <;> exact ⟨rfl, rfl⟩
    have hzero : sample 128#8 - ((128 : Nat) : Int) = 0 := rfl
    simp only [fwdPx, channel_forwardSet_asr, forwardSet_coff, hzero, mul_zero, add_zero, ← hluma.1, ← hluma.2, and_self]
  · cases st <;> decide +kernel

/-! ### The round trip (95 V-S1) -/

/-- Rounding to a level and saturating errs by at most half a level on values within half a level of the byte range. The
values and the error are in 1024ths of a level. -/
theorem narrow_error {x off : Int} (hlo : -512 ≤ x + 1024 * off) (hhi : x + 1024 * off ≤ 1024 * 255 + 512) :
    |1024 * (((toSample (asr (x + 512) 10 + off)).toNat : Int) - off) - x| ≤ 512 := by
  rw [toNat_toSample, asr_ten, abs_le]
  omega

/-- Rounding and saturating takes a value within two and a half levels of a byte to within two levels of it. -/
theorem narrow_near {x : Int} {b : Byte} (h : |x - 1024 * (b.toNat : Int)| ≤ 2559) :
    |((toSample (asr (x + 512) 10)).toNat : Int) - b.toNat| ≤ 2 := by
  have hb := byte_range b
  rw [abs_le] at h ⊢
  rw [toNat_toSample, asr_ten]
  omega

/-- The Y, U and V of a colour are within half a level of the exact values of the quantized inverse matrix. -/
theorem inverse_error (st : Standard) (r g b : Byte) :
    |1024 * (((invY st.inverseSet r g b).toNat : Int) - st.inverseSet.yoff) -
      (st.inverseSet.m0 * r.toNat + st.inverseSet.m1 * g.toNat + st.inverseSet.m2 * b.toNat)| ≤ 512 ∧
    |1024 * (((invU st.inverseSet r g b).toNat : Int) - 128) -
      (st.inverseSet.m3 * r.toNat + st.inverseSet.m4 * g.toNat + st.inverseSet.m5 * b.toNat)| ≤ 512 ∧
    |1024 * (((invV st.inverseSet r g b).toNat : Int) - 128) -
      (st.inverseSet.m6 * r.toNat + st.inverseSet.m7 * g.toNat + st.inverseSet.m8 * b.toNat)| ≤ 512 := by
  have hr := byte_range r
  have hg := byte_range g
  have hb := byte_range b
  simp only [invY, invU, invV, channel_inverseSet_asr, inverseSet_coff, sample]
  refine ⟨narrow_error ?_ ?_, narrow_error ?_ ?_, narrow_error ?_ ?_⟩
  all_goals cases st <;> simp only [Standard.inverseSet, Nat.cast_ofNat] <;> omega

/-- Settles O54: the half-level errors of Y, U and V, carried through the forward matrix, and the deviation of the product of
the two quantized matrices from the identity stay below two and a half levels. -/
theorem roundTripStaysWithinTwoLevels : Obligations.RoundTripStaysWithinTwoLevels := by
  intro st r g b
  have hr := byte_range r
  have hg := byte_range g
  have hb := byte_range b
  obtain ⟨hY, hU, hV⟩ := inverse_error st r g b
  have hoff : st.forwardSet.yoff = st.inverseSet.yoff := by cases st <;> rfl
  simp only [fwdPx, channel_forwardSet_asr, forwardSet_coff, hoff, sample]
  generalize (invY st.inverseSet r g b).toNat = Y at *
  generalize (invU st.inverseSet r g b).toNat = U at *
  generalize (invV st.inverseSet r g b).toNat = V at *
  rw [abs_le] at hY hU hV
  refine ⟨narrow_near (abs_le.2 ?_), narrow_near (abs_le.2 ?_), narrow_near (abs_le.2 ?_)⟩
  all_goals cases st <;> simp only [Standard.forwardSet, Standard.inverseSet, Nat.cast_ofNat] at hY hU hV ⊢ <;> omega

end Sys2Proof.Proofs
end

section
/-! SUPPORT. Proofs about addresses and blocks (spec 20 R64, R65, R71, R83, 42 R180): element addresses of an accepted job,
the planes of a contiguous image, and the vector kernel's order as a permutation of the reference order. -/

namespace Sys2Proof.Proofs
open Sys2Proof Sys2Proof.Machine Sys2Proof.Laws

/-! ### Element addresses (20 R64, R65) -/

/-- Settles O45: an element's bytes lie in the footprint, the footprint below 2^32, and a row has room in its stride. -/
theorem elementAddressesAreDistinct : Obligations.ElementAddressesAreDistinct := by
  intro op variant s id hacc hused p addrOf
  refine ⟨fun r c k hr hc hk => ?_, fun r c k r' c' k' hc hc' hk hk' he => ?_⟩
  · have hcovers : Slot.covers p (Op.bpp op id) (addrOf r c k) = true := covers_addr hr hc hk
    exact ⟨plane_inSpace hacc hused hcovers, hcovers⟩
  · exact addr_inj (plane_room hacc hused) hc hc' hk hk' he

/-! ### The planes of each conversion (10 R27, 20 R65) -/

theorem yIn_eq (s : State) (x y : Nat) : s.yIn x y = s.in0.base.toNat + y * s.in0.stride.toNat + x := by
  simp [State.yIn, Slot.addr, Slot.rowStart, Role.bpp]

theorem uIn_planar (s : State) (cx cy : Nat) :
    s.uIn .planar cx cy = s.in1.base.toNat + cy * s.in1.stride.toNat + cx := by
  simp [State.uIn, Slot.addr, Slot.rowStart, Role.bpp]

theorem vIn_planar (s : State) (cx cy : Nat) :
    s.vIn .planar cx cy = s.in2.base.toNat + cy * s.in2.stride.toNat + cx := by
  simp [State.vIn, Slot.addr, Slot.rowStart, Role.bpp]

theorem uIn_nv12 (s : State) (cx cy : Nat) :
    s.uIn .nv12 cx cy = s.in1.base.toNat + cy * s.in1.stride.toNat + 2 * cx := by
  simp [State.uIn, Slot.addr, Slot.rowStart, Role.bpp, Nat.mul_comm 2]

theorem vIn_nv12 (s : State) (cx cy : Nat) :
    s.vIn .nv12 cx cy = s.in1.base.toNat + cy * s.in1.stride.toNat + 2 * cx + 1 := by
  simp [State.vIn, Slot.addr, Slot.rowStart, Role.bpp, Nat.mul_comm 2]

theorem uIn_nv21 (s : State) (cx cy : Nat) :
    s.uIn .nv21 cx cy = s.in1.base.toNat + cy * s.in1.stride.toNat + 2 * cx + 1 := by
  simp [State.uIn, Slot.addr, Slot.rowStart, Role.bpp, Nat.mul_comm 2]

theorem vIn_nv21 (s : State) (cx cy : Nat) :
    s.vIn .nv21 cx cy = s.in1.base.toNat + cy * s.in1.stride.toNat + 2 * cx := by
  simp [State.vIn, Slot.addr, Slot.rowStart, Role.bpp, Nat.mul_comm 2]

theorem rgbIn_eq (s : State) (role : Role) (x y k : Nat) :
    s.rgbIn role x y k = s.in0.base.toNat + y * s.in0.stride.toNat + role.bpp * x + k := by
  simp [State.rgbIn, Slot.addr, Slot.rowStart, Nat.mul_comm role.bpp]

theorem rgbOut_eq (s : State) (x y k : Nat) :
    s.rgbOut x y k = s.out0.base.toNat + y * s.out0.stride.toNat + 3 * x + k := by
  simp [State.rgbOut, Slot.addr, Slot.rowStart, Role.bpp, Nat.mul_comm 3]

theorem yOut_eq (s : State) (x y : Nat) : s.yOut x y = s.out0.base.toNat + y * s.out0.stride.toNat + x := by
  simp [State.yOut, Slot.addr, Slot.rowStart, Role.bpp]

theorem uOut_eq (s : State) (cx cy : Nat) : s.uOut cx cy = s.out1.base.toNat + cy * s.out1.stride.toNat + cx := by
  simp [State.uOut, Slot.addr, Slot.rowStart, Role.bpp]

theorem vOut_eq (s : State) (cx cy : Nat) : s.vOut cx cy = s.out2.base.toNat + cy * s.out2.stride.toNat + cx := by
  simp [State.vOut, Slot.addr, Slot.rowStart, Role.bpp]

/-- The dependences of the forward conversions through the model's sample addresses (41 R152 to R154). -/
theorem outputDependsOn_i420 (s : State) (a b : Nat) :
    OutputDependsOn .i420Rgb24 s a b ↔ ForwardDepends s (s.uIn .planar) (s.vIn .planar) a b := by
  simp only [OutputDependsOn, ForwardDepends, uIn_planar, vIn_planar]

theorem outputDependsOn_nv12 (s : State) (a b : Nat) :
    OutputDependsOn .nv12Rgb24 s a b ↔ ForwardDepends s (s.uIn .nv12) (s.vIn .nv12) a b := by
  simp only [OutputDependsOn, ForwardDepends, uIn_nv12, vIn_nv12]

theorem outputDependsOn_nv21 (s : State) (a b : Nat) :
    OutputDependsOn .nv21Rgb24 s a b ↔ ForwardDepends s (s.uIn .nv21) (s.vIn .nv21) a b := by
  simp only [OutputDependsOn, ForwardDepends, uIn_nv21, vIn_nv21]

/-- The role of the primary input plane of an inverse conversion (10 R27). -/
def inputRole (op : Op) : Role := if op = .rgba32I420 then .rgba32 else .rgb24

section
variable {op : Op} {variant : Variant} {s : State} (hacc : Accepted op variant s)
include hacc

/-- The bytes of the elements of an input plane lie in the read set (20 R71). -/
theorem inReadSet_addr {id : SlotId} (hid : id ∈ Op.inputs op) {r c k : Nat} (hr : r < expectedRows op s id)
    (hc : c < expectedCols op s id) (hk : k < Op.bpp op id) :
    s.inReadSet op (Slot.addr (s.slot id) (Op.bpp op id) r c k) = true := by
  obtain ⟨hcols, hrows, -⟩ := hacc.2.2.1 id (List.mem_append_left _ hid)
  exact (inReadSet_iff ..).2 ⟨id, hid, covers_addr (hrows ▸ hr) (hcols ▸ hc) hk⟩

theorem inReadSet_yIn (hfwd : Op.forward op = true) {x y : Nat} (hx : x < s.w) (hy : y < s.h) :
    s.inReadSet op (s.yIn x y) = true := by
  have hid : SlotId.in0 ∈ Op.inputs op := by cases op <;> simp
  have hb : Op.bpp op .in0 = 1 := by revert hfwd; cases op <;> decide
  have hc : SlotId.in0 ∉ Op.chromaSlots op := by cases op <;> simp
  have hin := inReadSet_addr hacc hid (r := y) (c := x) (k := 0) (by rwa [expectedRows, if_neg hc])
    (by rwa [expectedCols, if_neg hc]) (by omega)
  rwa [hb] at hin

theorem inReadSet_rgbIn (hinv : Op.forward op = false) {x y k : Nat} (hx : x < s.w) (hy : y < s.h) (hk : k < 3) :
    s.inReadSet op (s.rgbIn (inputRole op) x y k) = true := by
  have hid : SlotId.in0 ∈ Op.inputs op := by cases op <;> simp
  have hb : Op.bpp op .in0 = (inputRole op).bpp ∧ 3 ≤ (inputRole op).bpp := by
    revert hinv
    cases op <;> decide
  have hc : SlotId.in0 ∉ Op.chromaSlots op := by cases op <;> simp
  have hin := inReadSet_addr hacc hid (r := y) (c := x) (k := k) (by rwa [expectedRows, if_neg hc])
    (by rwa [expectedCols, if_neg hc]) (by omega)
  rwa [hb.1] at hin

/-- What a forward job computes a byte from lies in the read set, if its chroma samples do (41 R152 to R154). -/
theorem forwardDepends_sets (hfwd : Op.forward op = true) {u v : Nat → Nat → Nat}
    (hu : ∀ cx < s.cw, ∀ cy < s.ch, s.inReadSet op (u cx cy) = true)
    (hv : ∀ cx < s.cw, ∀ cy < s.ch, s.inReadSet op (v cx cy) = true) {a b : Nat}
    (hdep : ForwardDepends s u v a b) : s.inWriteSet op a = true ∧ s.inReadSet op b = true := by
  obtain ⟨x, hx, y, hy, hdep⟩ := hdep
  have hid : SlotId.out0 ∈ Op.outputs op := by cases op <;> simp
  have out (k : Nat) (hk : k < 3) := (inWriteSet_iff ..).2 ⟨.out0, hid, covers_rgbOut hacc hfwd hx hy hk⟩
  have luma := inReadSet_yIn hacc hfwd hx hy
  have hcx : x / 2 < s.cw := by simp only [State.cw, chromaSize]; omega
  have hcy : y / 2 < s.ch := by simp only [State.ch, chromaSize]; omega
  have hu' := hu _ hcx _ hcy
  have hv' := hv _ hcx _ hcy
  simp only [rgbOut_eq] at out
  rw [yIn_eq] at luma
  rcases hdep with ⟨rfl, hb⟩ | ⟨rfl, hb⟩ | ⟨rfl, hb⟩
  · refine ⟨out 0 (by decide), ?_⟩
    rcases hb with rfl | rfl
    · exact luma
    · exact hv'
  · refine ⟨out 1 (by decide), ?_⟩
    rcases hb with rfl | rfl | rfl
    · exact luma
    · exact hu'
    · exact hv'
  · refine ⟨out 2 (by decide), ?_⟩
    rcases hb with rfl | rfl
    · exact luma
    · exact hu'

end

/-- An inverse job computes its bytes from the colour bytes of pixels of the image (41 R151, R161). -/
theorem exists_pixel_of_inverseDepends {s : State} {bpp a b : Nat} (hdep : InverseDepends s bpp a b) :
    ∃ x < s.w, ∃ y < s.h, ∃ k < 3, b = s.in0.base.toNat + y * s.in0.stride.toNat + bpp * x + k := by
  rcases hdep with ⟨x, hx, y, hy, -, k, hk, rfl⟩ | ⟨cx, hx, cy, hy, -, k, hk, rfl⟩
  · exact ⟨x, hx, y, hy, k, hk, rfl⟩
  · exact ⟨2 * cx, by omega, 2 * cy, by omega, k, hk, rfl⟩

/-- What an inverse job computes a byte from lies in the read set (41 R155, R156). -/
theorem inverseDepends_sets {op : Op} {variant : Variant} {s : State} (hacc : Accepted op variant s)
    (hinv : Op.forward op = false) {a b : Nat} (hdep : InverseDepends s (inputRole op).bpp a b) :
    s.inWriteSet op a = true ∧ s.inReadSet op b = true := by
  have hout : ∀ id ∈ [SlotId.out0, .out1, .out2], id ∈ Op.outputs op := by
    revert hinv
    cases op <;> decide
  refine ⟨(inWriteSet_iff ..).2 ?_, ?_⟩
  · rcases hdep with ⟨x, hx, y, hy, rfl, -⟩ | ⟨cx, hx, cy, hy, rfl | rfl, -⟩
    · exact ⟨.out0, hout _ (by decide), yOut_eq s x y ▸ covers_yOut hacc hinv hx hy⟩
    · exact ⟨.out1, hout _ (by decide), uOut_eq s cx cy ▸ covers_uOut hacc hinv hx hy⟩
    · exact ⟨.out2, hout _ (by decide), vOut_eq s cx cy ▸ covers_vOut hacc hinv hx hy⟩
  · obtain ⟨x, hx, y, hy, k, hk, rfl⟩ := exists_pixel_of_inverseDepends hdep
    rw [← rgbIn_eq]
    exact inReadSet_rgbIn hacc hinv hx hy hk

/-- Settles O57: for each conversion the sources are elements of its input planes, the output byte one of its output planes. -/
theorem sourcesLieInTheReadSet : Obligations.SourcesLieInTheReadSet := by
  intro op variant s a b hacc hdep
  cases op with
  | i420Rgb24 =>
    exact forwardDepends_sets hacc rfl
      (fun _ hx _ hy => inReadSet_addr hacc (id := .in1) (by simp) hy hx (by decide))
      (fun _ hx _ hy => inReadSet_addr hacc (id := .in2) (by simp) hy hx (by decide)) ((outputDependsOn_i420 ..).1 hdep)
  | nv12Rgb24 =>
    exact forwardDepends_sets hacc rfl
      (fun _ hx _ hy => inReadSet_addr hacc (id := .in1) (by simp) hy hx (by decide))
      (fun _ hx _ hy => inReadSet_addr hacc (id := .in1) (by simp) hy hx (by decide)) ((outputDependsOn_nv12 ..).1 hdep)
  | nv21Rgb24 =>
    exact forwardDepends_sets hacc rfl
      (fun _ hx _ hy => inReadSet_addr hacc (id := .in1) (by simp) hy hx (by decide))
      (fun _ hx _ hy => inReadSet_addr hacc (id := .in1) (by simp) hy hx (by decide)) ((outputDependsOn_nv21 ..).1 hdep)
  | rgb24I420 => exact inverseDepends_sets hacc rfl hdep
  | rgba32I420 => exact inverseDepends_sets hacc rfl hdep

/-! ### Contiguous planes (20 R83) -/

/-- A tight plane of one-byte elements covers exactly its w * h bytes, row after row. -/
theorem covers_tightPlane {base w h : Nat} (hbase : base < 2 ^ 32) (hw : w < 2 ^ 32) (hh : h < 2 ^ 32) (a : Nat) :
    Slot.covers (tightPlane base 1 w h) 1 a = true ↔ base ≤ a ∧ a < base + w * h := by
  simp only [covers_iff, tightPlane, BitVec.toNat_ofNat, mul_one, Nat.mod_eq_of_lt hbase, Nat.mod_eq_of_lt hw,
    Nat.mod_eq_of_lt hh]
  constructor
  · rintro ⟨r, hr, k, hk, rfl⟩
    have hrow : (r + 1) * w ≤ h * w := Nat.mul_le_mul_right w hr
    rw [Nat.succ_mul, Nat.mul_comm h] at hrow
    omega
  · rintro ⟨hle, hlt⟩
    have hw0 : 0 < w := Nat.pos_of_ne_zero fun h0 => by rw [h0, Nat.zero_mul] at hlt; omega
    have hdiv := Nat.div_add_mod (a - base) w
    rw [Nat.mul_comm] at hdiv
    exact ⟨(a - base) / w, Nat.div_lt_of_lt_mul (by omega), (a - base) % w, Nat.mod_lt _ hw0, by omega⟩

/-- Settles O46: Y, U and V cover three adjoining intervals of W * H, cw * ch and cw * ch bytes. -/
theorem splitPlanesFillTheBuffer : Obligations.SplitPlanesFillTheBuffer := by
  intro b w h hw hh hfit y u v a
  have hchroma : 0 < (w + 1) / 2 * ((h + 1) / 2) := Nat.mul_pos (by omega) (by omega)
  have hw_le : w ≤ w * h := Nat.le_mul_of_pos_right w hh
  have hh_le : h ≤ w * h := Nat.le_mul_of_pos_left h hw
  rw [Nat.mul_assoc 2] at hfit ⊢
  have hy : y a = true ↔ b ≤ a ∧ a < b + w * h := covers_tightPlane (by omega) (by omega) (by omega) a
  have chroma_fits : (w + 1) / 2 < 2 ^ 32 ∧ (h + 1) / 2 < 2 ^ 32 := by omega
  have hu : u a = true ↔ b + w * h ≤ a ∧ a < b + w * h + (w + 1) / 2 * ((h + 1) / 2) :=
    covers_tightPlane (by omega) chroma_fits.1 chroma_fits.2 a
  have hv : v a = true ↔ b + w * h + (w + 1) / 2 * ((h + 1) / 2) ≤ a ∧
      a < b + w * h + (w + 1) / 2 * ((h + 1) / 2) + (w + 1) / 2 * ((h + 1) / 2) :=
    covers_tightPlane (by simp only [chromaSize]; omega) chroma_fits.1 chroma_fits.2 a
  rw [hy, hu, hv]
  omega

/-! ### The vector kernel's blocks (42 R180) -/

theorem rowBlocks_nodup (cw row col : Nat) : (rowBlocks cw row col).Nodup :=
  (List.nodup_range' 1).map fun _ _ h => congrArg Cursor.col h

/-- Rows of blocks of different row numbers have no block in common. -/
theorem disjoint_of_rows {f : Nat → List Cursor} (hrow : ∀ r, ∀ b ∈ f r, b.row = r) {r r' : Nat} (hne : r ≠ r') :
    (f r).Disjoint (f r') := fun b hb hb' => hne ((hrow r b hb).symm.trans (hrow r' b hb'))

/-- Rows of blocks without repeats, taken for row numbers without repeats, have no repeats. -/
theorem nodup_flatMap_rows {f : Nat → List Cursor} (hrow : ∀ r, ∀ b ∈ f r, b.row = r) (hf : ∀ r, (f r).Nodup)
    {rows : List Nat} (hrows : rows.Nodup) : (rows.flatMap f).Nodup :=
  List.nodup_flatMap.2 ⟨fun r _ => hf r, hrows.imp fun hne => disjoint_of_rows hrow hne⟩

/-- The reference order takes no block twice (10 R34). -/
theorem blocksFrom_nodup (cw ch : Nat) (k : Cursor) : (blocksFrom cw ch k).Nodup := by
  unfold blocksFrom
  split
  · refine List.Nodup.append (rowBlocks_nodup ..)
      (nodup_flatMap_rows (fun r b hb => ((mem_rowBlocks ..).1 hb).1) (fun r => rowBlocks_nodup ..) (List.nodup_range' 1)) ?_
    intro b hb hb'
    obtain ⟨r, hr, hb'⟩ := List.mem_flatMap.1 hb'
    have hrow := ((mem_rowBlocks ..).1 hb).1
    have hrow' := ((mem_rowBlocks ..).1 hb').1
    have hle := (List.mem_range'_1.1 hr).1
    omega
  · exact List.nodup_nil

theorem mem_chunkBlocks (k row : Nat) (b : Cursor) : b ∈ chunkBlocks k row ↔ b.row = row ∧ b.col / 8 = k := by
  obtain ⟨r, c⟩ := b
  simp only [chunkBlocks, List.mem_map, List.mem_range, Cursor.mk.injEq]
  constructor
  · rintro ⟨j, hj, rfl, rfl⟩
    exact ⟨rfl, by omega⟩
  · rintro ⟨rfl, rfl⟩
    exact ⟨c % 8, by omega, rfl, by omega⟩

theorem chunkBlocks_nodup (k row : Nat) : (chunkBlocks k row).Nodup :=
  List.nodup_range.map fun _ _ h => Nat.add_left_cancel (congrArg Cursor.col h)

/-- The chunks of one block row. -/
def chunkRow (w row : Nat) : List Cursor := (List.range (w / Config.vectorColumns)).flatMap fun k => chunkBlocks k row

theorem chunkRow_nodup (w row : Nat) : (chunkRow w row).Nodup := by
  refine List.nodup_flatMap.2 ⟨fun k _ => chunkBlocks_nodup k row, List.nodup_range.imp fun hne b hb hb' => hne ?_⟩
  exact ((mem_chunkBlocks ..).1 hb).2.symm.trans ((mem_chunkBlocks ..).1 hb').2

theorem row_of_mem_chunkRow {w row : Nat} {b : Cursor} (h : b ∈ chunkRow w row) : b.row = row := by
  obtain ⟨k, -, hb⟩ := List.mem_flatMap.1 h
  exact ((mem_chunkBlocks ..).1 hb).1

/-- The chunks are body blocks. -/
theorem inBody_of_mem_chunks {w h : Nat} {b : Cursor}
    (hb : b ∈ (List.range (h / Config.vectorRows)).flatMap (chunkRow w)) : inBody w h b = true := by
  obtain ⟨row, hrow, hb⟩ := List.mem_flatMap.1 hb
  obtain ⟨k, hk, hb⟩ := List.mem_flatMap.1 hb
  obtain ⟨rfl, rfl⟩ := (mem_chunkBlocks ..).1 hb
  simp only [List.mem_range, Config.vectorColumns, Config.vectorRows] at hrow hk
  rw [inBody_iff]
  omega

/-- The vector kernel takes no block twice: chunks are apart, and the tail is what is not in the body (42 R180). -/
theorem vectorBlocks_nodup (w h : Nat) : (vectorBlocks w h).Nodup := by
  have hchunks := nodup_flatMap_rows (f := chunkRow w) (fun r b => row_of_mem_chunkRow) (chunkRow_nodup w)
    (List.nodup_range (n := h / Config.vectorRows))
  refine hchunks.append ((blocksFrom_nodup ..).filter _) fun b hb hb' => ?_
  have hnot := (List.mem_filter.1 hb').2
  rw [inBody_of_mem_chunks hb] at hnot
  cases hnot

/-- Settles O47: neither order takes a block twice, and both take exactly the blocks of the image. -/
theorem vectorKernelTakesEveryBlockOnce : Obligations.VectorKernelTakesEveryBlockOnce := by
  intro w h
  refine ⟨?_, vectorBlocks_nodup w h, fun b => ?_⟩
  · refine (List.perm_ext_iff_of_nodup (vectorBlocks_nodup w h) (blocksFrom_nodup ..)).2 fun b => ?_
    rw [mem_vectorBlocks, mem_blocksFrom_zero]
    exact Iff.rfl
  · rw [inBody_iff]
    omega

end Sys2Proof.Proofs
end

section
/-! SUPPORT. Proofs about whole jobs (spec 41, 42 R182, 43 R201, 20 R77, R80): the state a clean job leaves, the conversions
pixel by pixel, what an output byte depends on, and the jobs whose result is in part unspecified. -/

namespace Sys2Proof.Proofs
open Sys2Proof Sys2Proof.Machine Sys2Proof.Laws

/-! ### The state a clean job leaves (43 R201, 70 R265) -/

/-- The data memory after all the blocks of a job, before the unspecified bytes are freed (43 R201 step 5). -/
def jobMemory (op : Op) (variant : Variant) (st : Standard) (s : State) : Memory :=
  convert op (coefficients st op) s s.mem (kernelBlocks s.w s.h (jobPath op variant s))

/-- A whole job is the entry to RUN, its blocks and its end. -/
theorem convertAll_eq_endJob (op : Op) (variant : Variant) (st : Standard) (s : State) :
    convertAll op variant st s = endJob op variant { enterRun op st s with mem := jobMemory op variant st s } := by
  rw [convertAll, enterRun_mem,
    convert_regs (s := s) (enterRun_width op st s) (enterRun_height op st s) (enterRun_slot op st s), jobMemory]

section
variable {op : Op} {variant : Variant} {s : State}

theorem accepted_of_clean (h : CleanJob op variant s) : Accepted op variant s := h.2.1

theorem disjoint_of_clean (h : CleanJob op variant s) : DisjointPlanes op s := h.2.2.1

/-- A job with disjoint planes left alone by the host has no unspecified byte (20 R77, R80). -/
theorem unpredictable_of_clean (hd : DisjointPlanes op s) (ht : s.touched = []) : unpredictable op s = false := by
  rw [unpredictable, (disjoint_iff s op).1 hd, ht]
  rfl

/-- The end of a predictable job: STATUS, PHASE, the cursor and the model's notes change. -/
theorem endJob_of_predictable (h : unpredictable op s = false) (variant : Variant) : endJob op variant s =
    State.succeed (jobPath op variant s) { s with cursor := ⟨s.ch - 1, s.cw - 1⟩ } := by
  rw [endJob, h, if_neg Bool.false_ne_true]

/-- A clean job leaves its registers and the model's count of draws as they were. -/
theorem convertAll_of_clean (hclean : CleanJob op variant s) (st : Standard) : convertAll op variant st s =
    State.succeed (jobPath op variant s) { s with
      coef := coefficients st op, cursor := ⟨s.ch - 1, s.cw - 1⟩, mem := jobMemory op variant st s } := by
  obtain ⟨-, -, hd, ht, -⟩ := hclean
  rw [convertAll_eq_endJob]
  exact endJob_of_predictable (s := { enterRun op st s with mem := _ }) (unpredictable_of_clean (s := s) hd ht) variant

theorem convertAll_successFrame (hclean : CleanJob op variant s) (st : Standard) :
    SuccessFrame op variant st s (convertAll op variant st s) := by
  have hacc := accepted_of_clean hclean
  rw [convertAll_of_clean hclean]
  exact ⟨rfl, rfl, rfl, rfl, rfl, rfl, rfl, rfl, rfl, fun id => by cases id <;> rfl, rfl, rfl, rfl, rfl, rfl, rfl,
    fun a ha => convert_other hacc _ _ _ ha⟩

/-- Every output byte of a clean job holds its value (20 R72). -/
theorem convertAll_isOutput (hclean : CleanJob op variant s) {st : Standard} {a : Nat} {v : Byte}
    (hv : IsOutput op (coefficients st op) s s.mem a v) : (convertAll op variant st s).mem.read a = v := by
  have hall := mem_kernelBlocks_iff s (jobPath op variant s)
  rw [convertAll_of_clean hclean]
  obtain ⟨-, hacc, hd, -, hm⟩ := hclean
  exact convert_isOutput hacc hd hm hall hv

theorem convertAll_mem_wf (hclean : CleanJob op variant s) (st : Standard) : (convertAll op variant st s).mem.wf := by
  rw [convertAll_of_clean hclean]
  obtain ⟨-, hacc, -, -, hm⟩ := hclean
  exact convert_wf hacc _ hm _

end

/-- A clean job's command completes with the frame of a success, and every output byte holds its value. -/
theorem exec_of_clean {op : Op} {st : Standard} {i : Instr} {s : State} (hop : i.op = op)
    (hst : Standard.ofField i.std = some st) (hclean : CleanJob op i.variant s) :
    ∃ t, exec i s = .next t ∧ SuccessFrame op i.variant st s t ∧
      ∀ a v, IsOutput op (coefficients st op) s s.mem a v → t.mem.read a = v := by
  subst hop
  exact ⟨_, exec_of_accepted hclean.1 hst (accepted_of_clean hclean), convertAll_successFrame hclean st,
    fun _ _ => convertAll_isOutput hclean⟩

/-! ### The five conversions (41 R152 to R156) -/

/-- The four commands of a conversion with a supported standard complete a clean job (30 R107). -/
theorem command_completes {op : Op} {std : Nat} {st : Standard} {i : Instr} {s : State}
    (hi : i ∈ [Instr.make op .scalar std, .make op .vectorAligned std, .make op .vectorUnaligned std, .make op .auto std])
    (hst : Standard.ofField std = some st) (hclean : CleanJob op i.variant s) :
    ∃ t, exec i s = .next t ∧ SuccessFrame op i.variant st s t ∧
      ∀ a v, IsOutput op (coefficients st op) s s.mem a v → t.mem.read a = v := by
  have hsel : i.op = op ∧ i.std = std := by
    simp only [List.mem_cons, List.not_mem_nil, or_false] at hi
    rcases hi with rfl | rfl | rfl | rfl <;> exact ⟨make_op .., make_std ..⟩
  exact exec_of_clean hsel.1 (hsel.2 ▸ hst) hclean

/-- The three bytes of a pixel that a forward conversion left. -/
theorem forward_pixel {layout : ChromaLayout} {c : Coef} {s t : State}
    (hout : ∀ a v, ForwardOutput layout c s s.mem a v → t.mem.read a = v) {x y : Nat} (hx : x < s.w) (hy : y < s.h) :
    let px := forwardResult layout c s s.mem x y
    let a := s.out0.base.toNat + y * s.out0.stride.toNat + 3 * x
    t.mem.read a = px.1 ∧ t.mem.read (a + 1) = px.2.1 ∧ t.mem.read (a + 2) = px.2.2 := by
  have hpx (k : Nat) (hk : k < 3) := hout _ _ ⟨x, hx, y, hy, k, hk, rfl, rfl⟩
  simp only [rgbOut_eq] at hpx
  exact ⟨hpx 0 (by decide), hpx 1 (by decide), hpx 2 (by decide)⟩

/-- The samples that an inverse conversion left: luma from each pixel, chroma from each block's top-left pixel (41 R161). -/
theorem inverse_samples {role : Role} {bpp : Nat} (hbpp : role.bpp = bpp) {c : Coef} {s t : State}
    (hout : ∀ a v, InverseOutput role c s s.mem a v → t.mem.read a = v) :
    (∀ x y : Nat, x < s.w → y < s.h →
      let a := s.in0.base.toNat + y * s.in0.stride.toNat + bpp * x
      t.mem.read (s.out0.base.toNat + y * s.out0.stride.toNat + x) =
        invY c (s.mem.read a) (s.mem.read (a + 1)) (s.mem.read (a + 2))) ∧
    (∀ cx cy : Nat, cx < (s.w + 1) / 2 → cy < (s.h + 1) / 2 →
      let a := s.in0.base.toNat + 2 * cy * s.in0.stride.toNat + bpp * (2 * cx)
      t.mem.read (s.out1.base.toNat + cy * s.out1.stride.toNat + cx) =
        invU c (s.mem.read a) (s.mem.read (a + 1)) (s.mem.read (a + 2)) ∧
      t.mem.read (s.out2.base.toNat + cy * s.out2.stride.toNat + cx) =
        invV c (s.mem.read a) (s.mem.read (a + 1)) (s.mem.read (a + 2))) := by
  subst hbpp
  refine ⟨fun x y hx hy => ?_, fun cx cy hx hy => ⟨?_, ?_⟩⟩
  · have hY := hout _ _ (.inl ⟨x, hx, y, hy, rfl, rfl⟩)
    rwa [yOut_eq, inverseResult, rgbIn_eq, rgbIn_eq, rgbIn_eq] at hY
  · have hU := hout _ _ (.inr (.inl ⟨cx, hx, cy, hy, rfl, rfl⟩))
    rwa [uOut_eq, inverseResult, rgbIn_eq, rgbIn_eq, rgbIn_eq] at hU
  · have hV := hout _ _ (.inr (.inr ⟨cx, hx, cy, hy, rfl, rfl⟩))
    rwa [vOut_eq, inverseResult, rgbIn_eq, rgbIn_eq, rgbIn_eq] at hV

/-- Settles O20: U and V are bytes of their own planes. -/
theorem i420ToRgb24Converts : Obligations.I420ToRgb24Converts := by
  intro std st i s hi hst hclean
  obtain ⟨t, hexec, hframe, hout⟩ := command_completes (op := .i420Rgb24) hi hst hclean
  refine ⟨t, hexec, hframe, fun x y hx hy => ?_⟩
  rw [← yIn_eq, ← uIn_planar, ← vIn_planar]
  exact forward_pixel hout hx hy

/-- Settles O21: U is the first byte of the pair. -/
theorem nv12ToRgb24Converts : Obligations.Nv12ToRgb24Converts := by
  intro std st i s hi hst hclean
  obtain ⟨t, hexec, hframe, hout⟩ := command_completes (op := .nv12Rgb24) hi hst hclean
  refine ⟨t, hexec, hframe, fun x y hx hy => ?_⟩
  dsimp only
  rw [← yIn_eq, ← vIn_nv12, ← uIn_nv12]
  exact forward_pixel hout hx hy

/-- Settles O22: V is the first byte of the pair. -/
theorem nv21ToRgb24Converts : Obligations.Nv21ToRgb24Converts := by
  intro std st i s hi hst hclean
  obtain ⟨t, hexec, hframe, hout⟩ := command_completes (op := .nv21Rgb24) hi hst hclean
  refine ⟨t, hexec, hframe, fun x y hx hy => ?_⟩
  dsimp only
  rw [← yIn_eq, ← uIn_nv21, ← vIn_nv21]
  exact forward_pixel hout hx hy

/-- Settles O23: a pixel is three bytes. -/
theorem rgb24ToI420Converts : Obligations.Rgb24ToI420Converts := by
  intro std st i s hi hst hclean
  obtain ⟨t, hexec, hframe, hout⟩ := command_completes (op := .rgb24I420) hi hst hclean
  exact ⟨t, hexec, hframe, inverse_samples (role := .rgb24) (c := st.inverseSet) rfl hout⟩

/-- Settles O24: a pixel is four bytes, of which the samples use three. -/
theorem rgba32ToI420Converts : Obligations.Rgba32ToI420Converts := by
  intro std st i s hi hst hclean
  obtain ⟨t, hexec, hframe, hout⟩ := command_completes (op := .rgba32I420) hi hst hclean
  exact ⟨t, hexec, hframe, inverse_samples (role := .rgba32) (c := st.inverseSet) rfl hout⟩

/-! ### Variants and runs (42 R182, 41 R159) -/

/-- The variant shows in the end of a job only in PATH (42 R182). -/
theorem endJob_variant (op : Op) (variant variant' : Variant) (s : State) :
    endJob op variant s = { endJob op variant' s with path := (endJob op variant s).path } := by
  unfold endJob
  split <;> rfl

theorem convertRest_variant (op : Op) (variant variant' : Variant) (st : Standard) (s : State) :
    convertRest op variant st s = { convertRest op variant' st s with path := (convertRest op variant st s).path } :=
  endJob_variant ..

/-- Settles O27: both commands end the same conversion, taken in the reference order, and differ in the reported path. -/
theorem variantsLeaveTheSameBytes : Obligations.VariantsLeaveTheSameBytes := by
  intro op v v' std s hstd hclean hclean'
  obtain ⟨st, hst⟩ := exists_standard_of_lt hstd
  have run (w : Variant) (h : CleanJob op w s) :
      exec (Instr.make op w std) s = .next (convertRest op w st (enterRun op st s)) := by
    obtain ⟨hcheck, hacc, -, -, hm⟩ := h
    have hexec := exec_of_accepted (i := Instr.make op w std) hcheck (by rwa [make_std]) (by rwa [make_op, make_variant])
    rw [hexec, make_op, make_variant, convertAll_eq_convertRest hacc st hm]
  have hsame := convertRest_variant op v v' st (enterRun op st s)
  exact ⟨_, _, run v hclean, run v' hclean', by rw [hsame], hsame⟩

/-- The forward sets take no U for R and no V for B (40 R135). -/
theorem forwardSet_zero (st : Standard) : st.forwardSet.m1 = 0 ∧ st.forwardSet.m8 = 0 := by
  cases st <;> exact ⟨rfl, rfl⟩

theorem fwdPx_red (st : Standard) (y u u' v : Byte) :
    (fwdPx st.forwardSet y u v).1 = (fwdPx st.forwardSet y u' v).1 := by
  simp only [fwdPx, (forwardSet_zero st).1, channel, zero_mul]

theorem fwdPx_blue (st : Standard) (y u v v' : Byte) :
    (fwdPx st.forwardSet y u v).2.2 = (fwdPx st.forwardSet y u v').2.2 := by
  simp only [fwdPx, (forwardSet_zero st).2, channel, zero_mul]

section
variable {s : State} {m m' : Memory} {a : Nat} {v : Byte}

/-- A forward output byte keeps its value when its sources do (41 R150). -/
theorem forwardOutput_congr {layout : ChromaLayout} {st : Standard}
    (hagree : ∀ b, ForwardDepends s (s.uIn layout) (s.vIn layout) a b → m'.read b = m.read b)
    (hout : ForwardOutput layout st.forwardSet s m a v) : ForwardOutput layout st.forwardSet s m' a v := by
  obtain ⟨x, hx, y, hy, k, hk, rfl, rfl⟩ := hout
  refine ⟨x, hx, y, hy, k, hk, rfl, ?_⟩
  have hdep (b : Nat) := hagree b
  simp only [ForwardDepends, rgbOut_eq] at hdep
  simp only [forwardResult, yIn_eq]
  obtain rfl | rfl | rfl : k = 0 ∨ k = 1 ∨ k = 2 := by omega
  · rw [hdep _ ⟨x, hx, y, hy, .inl ⟨rfl, .inl rfl⟩⟩, hdep _ ⟨x, hx, y, hy, .inl ⟨rfl, .inr rfl⟩⟩]
    exact fwdPx_red ..
  · rw [hdep _ ⟨x, hx, y, hy, .inr (.inl ⟨rfl, .inl rfl⟩)⟩, hdep _ ⟨x, hx, y, hy, .inr (.inl ⟨rfl, .inr (.inl rfl)⟩)⟩,
      hdep _ ⟨x, hx, y, hy, .inr (.inl ⟨rfl, .inr (.inr rfl)⟩)⟩]
  · rw [hdep _ ⟨x, hx, y, hy, .inr (.inr ⟨rfl, .inl rfl⟩)⟩, hdep _ ⟨x, hx, y, hy, .inr (.inr ⟨rfl, .inr rfl⟩)⟩]
    exact fwdPx_blue ..

/-- An inverse result keeps its value when the colour bytes of its pixel do (41 R151). -/
theorem inverseResult_congr {f : Coef → Byte → Byte → Byte → Byte} {role : Role} {c : Coef} {x y : Nat}
    (h : ∀ k < 3, m'.read (s.rgbIn role x y k) = m.read (s.rgbIn role x y k)) :
    inverseResult f role c s m' x y = inverseResult f role c s m x y := by
  rw [inverseResult, h 0 (by decide), h 1 (by decide), h 2 (by decide), inverseResult]

/-- An inverse output byte keeps its value when its sources do (41 R151, R161). -/
theorem inverseOutput_congr {role : Role} {c : Coef}
    (hagree : ∀ b, InverseDepends s role.bpp a b → m'.read b = m.read b)
    (hout : InverseOutput role c s m a v) : InverseOutput role c s m' a v := by
  rcases hout with ⟨x, hx, y, hy, rfl, rfl⟩ | ⟨x, hx, y, hy, rfl, rfl⟩ | ⟨x, hx, y, hy, rfl, rfl⟩
  · refine .inl ⟨x, hx, y, hy, rfl, (inverseResult_congr fun k hk => hagree _ ?_).symm⟩
    exact .inl ⟨x, hx, y, hy, yOut_eq .., k, hk, rgbIn_eq ..⟩
  · refine .inr (.inl ⟨x, hx, y, hy, rfl, (inverseResult_congr fun k hk => hagree _ ?_).symm⟩)
    exact .inr ⟨x, hx, y, hy, .inl (uOut_eq ..), k, hk, rgbIn_eq ..⟩
  · refine .inr (.inr ⟨x, hx, y, hy, rfl, (inverseResult_congr fun k hk => hagree _ ?_).symm⟩)
    exact .inr ⟨x, hx, y, hy, .inr (vOut_eq ..), k, hk, rgbIn_eq ..⟩

/-- An output byte keeps its value when the bytes it is computed from do (41 R159). -/
theorem isOutput_congr {op : Op} {st : Standard} (hagree : ∀ b, OutputDependsOn op s a b → m'.read b = m.read b)
    (hout : IsOutput op (coefficients st op) s m a v) : IsOutput op (coefficients st op) s m' a v := by
  cases op with
  | i420Rgb24 => exact forwardOutput_congr (fun b hb => hagree b ((outputDependsOn_i420 ..).2 hb)) hout
  | nv12Rgb24 => exact forwardOutput_congr (fun b hb => hagree b ((outputDependsOn_nv12 ..).2 hb)) hout
  | nv21Rgb24 => exact forwardOutput_congr (fun b hb => hagree b ((outputDependsOn_nv21 ..).2 hb)) hout
  | rgb24I420 => exact inverseOutput_congr hagree hout
  | rgba32I420 => exact inverseOutput_congr hagree hout

end

/-- Settles O56: both runs leave the value of the byte's sources, which agree. -/
theorem outputByteDependsOnItsSourcesOnly : Obligations.OutputByteDependsOnItsSourcesOnly := by
  intro i s t t' m a hstd hclean hm ha hagree hexec hexec'
  obtain ⟨st, hst⟩ := exists_standard_of_lt hstd
  obtain ⟨u, hu, -, hout⟩ := exec_of_clean rfl hst hclean
  obtain ⟨hcheck, hacc, hd, ht, -⟩ := hclean
  obtain ⟨u', hu', -, hout'⟩ := exec_of_clean (s := { s with mem := m }) rfl hst ⟨hcheck, hacc, hd, ht, hm⟩
  obtain rfl := Host.Outcome.next.inj (hu.symm.trans hexec)
  obtain rfl := Host.Outcome.next.inj (hu'.symm.trans hexec')
  obtain ⟨v, hv⟩ := exists_isOutput hacc (coefficients st i.op) s.mem ha
  rw [hout a v hv]
  exact hout' a v (isOutput_congr hagree hv)

end Sys2Proof.Proofs
end

section
/-! SUPPORT. Proofs about two runs and about unspecified bytes (spec 41 R156, R159, R161, 20 R77, R80, 70 R261, 93 U2 to U4):
alpha bytes, chroma, a second run, an unpredictable job, and what a job in RUN shows. -/

namespace Sys2Proof.Proofs
open Sys2Proof Sys2Proof.Machine Sys2Proof.Laws

/-! ### Two runs (41 R156, R159, R161) -/

/-- An alpha byte of the input image is no colour byte of it (20 R65). -/
theorem colour_ne_alpha {variant : Variant} {s : State} (hacc : Accepted .rgba32I420 variant s) {x y x' y' k : Nat}
    (hx : x < s.w) (hx' : x' < s.w) (hk : k < 3) : s.in0.base.toNat + y * s.in0.stride.toNat + 4 * x + k ≠
      s.in0.base.toNat + y' * s.in0.stride.toNat + 4 * x' + 3 := by
  intro he
  have hcols := (plane_size hacc (id := .in0) (by simp) (by simp)).1
  rw [slot_in0] at hcols
  have hroom := plane_room hacc (id := .in0) (by simp)
  have haddr := (rgbIn_eq s .rgba32 x y k).trans (he.trans (rgbIn_eq s .rgba32 x' y' 3).symm)
  obtain ⟨-, -, hk3⟩ := addr_inj hroom (hcols ▸ hx) (hcols ▸ hx') (hk.trans (by decide)) (by decide) haddr
  omega

/-- An alpha byte of the input image lies in the read set (20 R71). -/
theorem inReadSet_alpha {variant : Variant} {s : State} (hacc : Accepted .rgba32I420 variant s) {x y : Nat} (hx : x < s.w)
    (hy : y < s.h) : s.inReadSet .rgba32I420 (s.in0.base.toNat + y * s.in0.stride.toNat + 4 * x + 3) = true := by
  have hin := inReadSet_addr hacc (id := .in0) (by simp) (r := y) (c := x) (k := 3) hy hx (by decide)
  exact (congrArg (s.inReadSet .rgba32I420) (rgbIn_eq s .rgba32 x y 3)).symm.trans hin

/-- Settles O25: no byte of the write set is computed from an alpha byte; and a job of no standard writes nothing, while the
write set has no alpha byte. -/
theorem alphaBytesDoNotMatter : Obligations.AlphaBytesDoNotMatter := by
  intro i s t t' m hop hclean hm hagree hexec hexec' a ha
  rw [← hop] at hclean ha
  obtain ⟨hcheck, hacc, hd, -⟩ := id hclean
  by_cases hstd : i.std < 3
  · refine outputByteDependsOnItsSourcesOnly i s t t' m a hstd hclean hm ha (fun b hb => hagree b fun x y hx hy he => ?_)
      hexec hexec'
    rw [hop] at hb hacc
    obtain ⟨x', hx', y', -, k, hk, rfl⟩ := exists_pixel_of_inverseDepends (s := s) (bpp := 4) hb
    exact colour_ne_alpha hacc hx' hx hk he
  · have hraise (s : State) (hcheck : s.phase = .check) : exec i s = .next (State.raise .unsupportedStandard s) := by
      rcases exec_check_cases hcheck i with ⟨e, he, hexec⟩ | ⟨st, hst, -⟩
      · cases he.symm.trans (validate_of_unsupported (not_lt.1 hstd) i.op i.variant s)
        exact hexec
      · cases hst.symm.trans (validate_of_unsupported (not_lt.1 hstd) i.op i.variant s)
    obtain rfl := Host.Outcome.next.inj ((hraise s hcheck).symm.trans hexec)
    obtain rfl := Host.Outcome.next.inj ((hraise { s with mem := m } hcheck).symm.trans hexec')
    refine hagree a fun x y hx hy he => ?_
    rw [hop] at ha hacc hd
    have hnot := readSet_not_writeSet hd (inReadSet_alpha hacc hx hy)
    rw [← he, ha] at hnot
    cases hnot

/-- What the inverse conversions leave is output of the conversion, with the role of its input plane. -/
theorem isOutput_of_inverse {op : Op} (hinv : Op.forward op = false) {c : Coef} {s : State} {m : Memory} {a : Nat} {v : Byte}
    (h : InverseOutput (inputRole op) c s m a v) : IsOutput op c s m a v := by
  cases op with
  | rgb24I420 => exact h
  | rgba32I420 => exact h
  | i420Rgb24 => cases hinv
  | nv12Rgb24 => cases hinv
  | nv21Rgb24 => cases hinv

/-- The chroma samples that a clean inverse job leaves are the results of their block's top-left pixel (41 R161). -/
theorem chroma_of_clean {i : Instr} {st : Standard} {s t : State} (hinv : Op.forward i.op = false)
    (hst : Standard.ofField i.std = some st) (hclean : CleanJob i.op i.variant s) (hexec : exec i s = .next t) {cx cy : Nat}
    (hx : cx < s.cw) (hy : cy < s.ch) :
    t.mem.read (s.uOut cx cy) = inverseResult invU (inputRole i.op) (coefficients st i.op) s s.mem (2 * cx) (2 * cy) ∧
      t.mem.read (s.vOut cx cy) = inverseResult invV (inputRole i.op) (coefficients st i.op) s s.mem (2 * cx) (2 * cy) := by
  obtain ⟨u, hu, -, hout⟩ := exec_of_clean rfl hst hclean
  obtain rfl := Host.Outcome.next.inj (hu.symm.trans hexec)
  exact ⟨hout _ _ (isOutput_of_inverse hinv (.inr (.inl ⟨cx, hx, cy, hy, rfl, rfl⟩))),
    hout _ _ (isOutput_of_inverse hinv (.inr (.inr ⟨cx, hx, cy, hy, rfl, rfl⟩)))⟩

/-- Settles O26: the chroma samples of both runs are results of the one pixel on which the memories agree. -/
theorem chromaIsOfTheTopLeftPixel : Obligations.ChromaIsOfTheTopLeftPixel := by
  intro i s t t' m cx cy hop hstd hclean hm hx hy hagree hexec hexec'
  obtain ⟨st, hst⟩ := exists_standard_of_lt hstd
  have hsel : Op.forward i.op = false ∧ Op.bpp i.op .in0 = (inputRole i.op).bpp := by
    rcases hop with h | h <;> rw [h] <;> exact ⟨rfl, rfl⟩
  obtain ⟨hu, hv⟩ := chroma_of_clean hsel.1 hst hclean hexec hx hy
  obtain ⟨hcheck, hacc, hd, ht, -⟩ := hclean
  obtain ⟨hu', hv'⟩ := chroma_of_clean (s := { s with mem := m }) hsel.1 hst ⟨hcheck, hacc, hd, ht, hm⟩ hexec' hx hy
  have hpixel (k : Nat) (hk : k < 3) : m.read (s.rgbIn (inputRole i.op) (2 * cx) (2 * cy) k) =
      s.mem.read (s.rgbIn (inputRole i.op) (2 * cx) (2 * cy) k) := by
    have h := hagree k hk
    rwa [hsel.2] at h
  rw [← uOut_eq, ← vOut_eq, hu, hv]
  exact ⟨hu'.trans (inverseResult_congr hpixel), hv'.trans (inverseResult_congr hpixel)⟩

/-- A whole job changes no byte outside its write set (20 R67). -/
theorem read_convertAll_other {op : Op} {variant : Variant} {s : State} (hacc : Accepted op variant s) (st : Standard)
    {a : Nat} (ha : s.inWriteSet op a = false) :
    (convertAll op variant st s).mem.read a = s.mem.read a := by
  rw [convertAll_eq_endJob]
  exact (endJob_other (s := { enterRun op st s with mem := _ }) op variant ha).trans (convert_other hacc _ _ _ ha)

section
variable {op : Op} {variant : Variant} {s : State} (hclean : CleanJob op variant s) (st : Standard)
include hclean

/-- A clean job started again is clean: it changed no register and no host wrote (41 R159). -/
theorem cleanJob_rerun : CleanJob op variant { convertAll op variant st s with phase := .check } := by
  have hwf := convertAll_mem_wf hclean st
  rw [convertAll_of_clean hclean] at hwf ⊢
  obtain ⟨-, hacc, hd, -, -⟩ := hclean
  exact ⟨rfl, hacc, hd, rfl, hwf⟩

/-- Its output bytes are those of the same registers. -/
theorem isOutput_rerun (c : Coef) (m : Memory) (a : Nat) (v : Byte) :
    IsOutput op c { convertAll op variant st s with phase := .check } m a v ↔ IsOutput op c s m a v := by
  rw [convertAll_of_clean hclean]
  exact Iff.rfl

theorem inWriteSet_rerun (a : Nat) :
    State.inWriteSet { convertAll op variant st s with phase := .check } op a = s.inWriteSet op a := by
  rw [convertAll_of_clean hclean]
  rfl

end

/-- Settles O30: the first run left its inputs alone, so the second leaves the same outputs, and neither changes another
byte. -/
theorem rerunLeavesTheSameMemory : Obligations.RerunLeavesTheSameMemory := by
  intro i s t hclean hstd hexec
  obtain ⟨st, hst⟩ := exists_standard_of_lt hstd
  have hacc := accepted_of_clean hclean
  obtain rfl : convertAll i.op i.variant st s = t :=
    Host.Outcome.next.inj ((exec_of_accepted hclean.1 hst hacc).symm.trans hexec)
  have hclean' := cleanJob_rerun hclean st
  have hacc' := accepted_of_clean hclean'
  refine ⟨_, exec_of_accepted rfl hst hacc',
    memory_ext (convertAll_mem_wf hclean' st) (convertAll_mem_wf hclean st) fun a => ?_⟩
  cases ha : s.inWriteSet i.op a with
  | false => exact read_convertAll_other hacc' st ((inWriteSet_rerun hclean st a).trans ha)
  | true =>
    obtain ⟨v, hv⟩ := exists_isOutput hacc (coefficients st i.op) s.mem ha
    have hinputs (b : Nat) (hb : OutputDependsOn i.op s a b) :
        (convertAll i.op i.variant st s).mem.read b = s.mem.read b := by
      obtain ⟨-, hread⟩ := sourcesLieInTheReadSet i.op i.variant s a b hacc hb
      exact read_convertAll_other hacc st (readSet_not_writeSet (disjoint_of_clean hclean) hread)
    rw [convertAll_isOutput hclean hv]
    exact convertAll_isOutput hclean' ((isOutput_rerun hclean st ..).2 (isOutput_congr hinputs hv))

/-! ### Unspecified bytes (20 R77, R80, 93 U2, U3) -/

section
variable {op : Op} {variant : Variant} {s : State}

/-- A job with an unspecified byte is unpredictable (20 R77, R80). -/
theorem unpredictable_of_uncertain {a : Nat} (h : uncertain op s a = true) : unpredictable op s = true := by
  rw [unpredictable, Bool.or_eq_true, decide_eq_true_eq]
  rcases (Bool.or_eq_true ..).mp h with hover | hdist
  · exact .inl hover
  · refine .inr fun hnil => ?_
    rcases (disturbed_iff op s a).1 hdist with hin | ⟨b, hin, -⟩ <;> rw [hnil] at hin <;> cases hin

/-- A job is unpredictable exactly by overlapping planes or host writes. -/
theorem unpredictable_iff : unpredictable op s = true ↔ ¬DisjointPlanes op s ∨ s.touched ≠ [] := by
  rw [unpredictable, Bool.or_eq_true, overlaps_iff, decide_eq_true_eq]

/-- The end of a job puts a free byte at its unspecified bytes of the write set and leaves every other byte (93 U2, U3). -/
theorem read_endJob (hacc : Accepted op variant s) (hm : s.mem.wf) {a : Nat} (ha : s.inWriteSet op a = true) :
    (endJob op variant s).mem.read a = if uncertain op s a then Config.freeByte s.draws a else s.mem.read a := by
  rw [endJob_mem]
  by_cases hu : uncertain op s a = true
  · rw [if_pos (unpredictable_of_uncertain hu), if_pos hu]
    exact read_freeCells hacc hm ha hu
  · rw [if_neg hu]
    split
    · exact read_freeCells_other s.mem (.inr (Bool.eq_false_iff.2 hu))
    · rfl

/-- A whole job leaves a free byte at its unspecified bytes of the write set, and at the others what its blocks gave. -/
theorem read_convertAll (hacc : Accepted op variant s) (st : Standard) (hm : s.mem.wf) {a : Nat}
    (ha : s.inWriteSet op a = true) : (convertAll op variant st s).mem.read a =
      if uncertain op s a then Config.freeByte s.draws a else (jobMemory op variant st s).read a := by
  rw [convertAll_eq_endJob]
  exact read_endJob (s := { enterRun op st s with mem := _ }) hacc (convert_wf hacc _ hm _) ha

/-- The blocks of a job do not see which bytes the host touched. -/
theorem jobMemory_untouched (st : Standard) :
    jobMemory op variant st { s with touched := [] } = jobMemory op variant st s :=
  convert_regs (s := s) rfl rfl (fun id => by cases id <;> rfl) ..

/-- With disjoint planes exactly the bytes that the host's writes reach are unspecified (20 R77, 93 U3). -/
theorem uncertain_iff_reached (hd : DisjointPlanes op s) (a : Nat) : uncertain op s a = true ↔ Reached op s a := by
  rw [uncertain, (disjoint_iff s op).1 hd, Bool.false_or, disturbed_iff]

/-- Nothing is reached where the host wrote nothing. -/
theorem not_reached_of_untouched (ht : s.touched = []) (a : Nat) : ¬Reached op s a := by
  rintro (h | ⟨b, h, -⟩) <;> rw [ht] at h <;> cases h

end

/-- Settles O31: the end of the job tells the unspecified bytes, overlap frees all of the write set, and without it the other
bytes are the blocks' in this run and in the one without the notes. -/
theorem unpredictableJobKeepsToItsWriteSet : Obligations.UnpredictableJobKeepsToItsWriteSet := by
  intro i s hstd hcheck hacc hm hwhy
  obtain ⟨st, hst⟩ := exists_standard_of_lt hstd
  have hunpr : unpredictable i.op s = true := unpredictable_iff.2 hwhy
  refine ⟨_, _, exec_of_accepted hcheck hst hacc, exec_of_accepted (s := { s with touched := [] }) hcheck hst hacc,
    endJob_phase .., endJob_done .., endJob_err .., endJob_errCode .., endJob_path .., ?_, endJob_cmd .., endJob_width ..,
    endJob_height .., convertAll_slot i.op i.variant st s, endJob_host .., endJob_readData .., ?_,
    fun a ha => read_convertAll_other hacc st ha, fun hover a ha => ?_, fun hd a ha => ⟨fun hreach => ?_, fun hreach => ?_⟩⟩
  · exact (convertAll_coef ..).trans (convertAll_coef ..).symm
  · exact (endJob_draws ..).trans (if_pos hunpr)
  · rw [read_convertAll hacc st hm ha, uncertain, (overlaps_iff s i.op).2 hover, Bool.true_or, if_pos rfl]
  · rw [read_convertAll hacc st hm ha, if_pos ((uncertain_iff_reached hd a).2 hreach)]
  · have hother := mt (uncertain_iff_reached (s := { s with touched := [] }) hd a).1 (not_reached_of_untouched rfl a)
    rw [read_convertAll hacc st hm ha, if_neg (mt (uncertain_iff_reached hd a).1 hreach)]
    refine Eq.symm ((read_convertAll (s := { s with touched := [] }) hacc st hm ha).trans ((if_neg hother).trans ?_))
    rw [jobMemory_untouched]

/-! ### What a job in RUN shows (70 R261, 93 U3, U4) -/

/-- A byte of the write set as it may be seen in RUN is the noted one or the one the job will leave. -/
theorem midByte_old_or_final {op : Op} {variant : Variant} {s : State} (hacc : Accepted op variant s) (hm : s.mem.wf)
    (st : Standard) {a : Nat} (ha : s.inWriteSet op a = true) :
    midByte op st s a = s.memAtRun.read a ∨ midByte op st s a = (convertRest op variant st s).mem.read a := by
  have hfinal : (convertRest op variant st s).mem.read a =
      if uncertain op s a then Config.freeByte s.draws a else (finalMemory op st s).read a :=
    read_endJob (s := { s with mem := finalMemory op st s }) hacc (convert_wf hacc _ hm _) ha
  rw [hfinal, midByte]
  split
  · exact .inr rfl
  · split
    · exact .inr rfl
    · exact .inl rfl

/-- What the invariant gives of a job in RUN whose command answers: the job, and the rest of it as the answer. -/
theorem run_of_inv {s f : State} {i : Instr} (h : MachineInv s) (hrun : s.phase = .run) (hdec : decode s.cmd = .ok i)
    (hexec : exec i s = .next f) : ∃ st, activeJob s = some (i.op, i.variant, st) ∧ Accepted i.op i.variant s ∧
      f = convertRest i.op i.variant st s := by
  obtain ⟨j, st, hj, hv, -⟩ := run_validated (sequencerLegal_of_inv h) hrun
  cases hdec.symm.trans hj
  exact ⟨st, activeJob_iff.2 ⟨hrun ▸ Phase.noConfusion, i, hdec, rfl, rfl, hv⟩, ((validate_ok_iff ..).1 hv).2,
    Host.Outcome.next.inj (hexec.symm.trans (exec_of_run hrun hv))⟩

section
variable {op : Op} {variant : Variant} {st : Standard} {s : State} (hrun : s.phase = .run)
  (hactive : activeJob s = some (op, variant, st))
include hrun hactive

/-- A job in RUN that is reset leaves its write set as it may be seen (70 R261). -/
theorem abandonedMemory_of_run :
    abandonedMemory s = s.mem.writeAll ((s.writeSet op).map fun a => (a, midByte op st s a)) := by
  unfold abandonedMemory
  rw [hrun, hactive]

theorem read_abandonedMemory_other {a : Nat} (ha : s.inWriteSet op a = false) :
    (abandonedMemory s).read a = s.mem.read a := by
  rw [abandonedMemory_of_run hrun hactive]
  refine read_writeAll_other s.mem fun d hd he => ?_
  obtain ⟨b, hb, rfl⟩ := List.mem_map.1 hd
  rw [← he, (mem_writeSet_iff ..).1 hb] at ha
  cases ha

theorem read_abandonedMemory (hacc : Accepted op variant s) (hm : s.mem.wf) {a : Nat} (ha : s.inWriteSet op a = true) :
    (abandonedMemory s).read a = midByte op st s a := by
  rw [abandonedMemory_of_run hrun hactive]
  refine read_writeAll_of_mem hm (fun d hd => ?_) (List.mem_map_of_mem ((mem_writeSet_iff ..).2 ha)) fun d hd he => ?_
  · obtain ⟨b, hb, rfl⟩ := List.mem_map.1 hd
    exact writeSet_inSpace hacc ((mem_writeSet_iff ..).1 hb)
  · obtain ⟨b, -, rfl⟩ := List.mem_map.1 hd
    obtain rfl : b = a := he
    rfl

end

/-- Settles O41: the reset writes the bytes of the write set alone, each with one of the two values. -/
theorem resetAbandonsTheRunningJob : Obligations.ResetAbandonsTheRunningJob := by
  intro s f i rest hinv hrun hdec hexec hhost
  obtain ⟨st, hactive, hacc, rfl⟩ := run_of_inv hinv hrun hdec hexec
  obtain ⟨hm, -⟩ := hinv
  refine ⟨_, step_reset hhost, fun a ha => read_abandonedMemory_other (s := { s with host := rest }) hrun hactive ha,
    fun a ha => ?_⟩
  have hread := read_abandonedMemory (s := { s with host := rest }) hrun hactive hacc hm ha
  exact (midByte_old_or_final hacc hm st ha).imp hread.trans hread.trans

/-- Settles O42: inside the write set the read shows one of the two values, elsewhere the byte in memory. -/
theorem hostReadsOldOrFinalByte : Obligations.HostReadsOldOrFinalByte := by
  intro s f i a rest hinv hrun hdec hexec hhost
  obtain ⟨st, hactive, hacc, rfl⟩ := run_of_inv hinv hrun hdec hexec
  obtain ⟨hm, -⟩ := hinv
  rw [step_readMem hhost, hostReadMem_run (s := { s with host := rest }) a hrun hactive]
  by_cases ha : s.inWriteSet i.op a.toNat = true
  · refine ⟨_, if_pos ha, rfl, fun hout => ?_, fun _ => ?_⟩
    · cases ha.symm.trans hout
    · exact (midByte_old_or_final hacc hm st ha).imp (congrArg (BitVec.setWidth 32)) (congrArg (BitVec.setWidth 32))
  · exact ⟨_, if_neg ha, rfl, fun _ => rfl, fun hin => absurd hin ha⟩

end Sys2Proof.Proofs
end
